-- ==== Sys2Proof/Word.lean ====
section
/-! DEFINITION. The values of the machine: exact complex samples, vectors of them, the 32-bit command header.

R18 takes a sample to be any complex number, with the field operations and `exp`. No rule looks at the value of a sample:
the block copies samples, adds and multiplies them, and multiplies them by roots of unity (R113) and by `1/L` or
`1/sqrt(L)` (R12). So a sample of this model is a polynomial, held as data: a finite sum of rational multiples of roots of
unity times symbols, where a symbol is a number left open. A complex number with rational parts is written without
symbols; any other one, such as `π`, is a symbol, and the statements hold for every assignment of complex numbers to the
symbols (`Valuation` in Safety.lean). DESIGN CHOICE, safe (log 1). -/

namespace Sys2Proof

/-- `coeff · exp(2πj · turn)` times the product of the symbols' numbers: one term of a sample. -/
structure RootTerm where
  turn : Rat
  coeff : Rat
  symbols : List Nat
deriving DecidableEq, Repr

/-- A complex value (R18): the sum of its terms. `Cplx.wf` (Machine/Arith.lean) says that the terms are in the one
canonical form, in which samples that are equal for every assignment to the symbols are equal data. -/
structure Cplx where
  terms : List RootTerm
deriving DecidableEq, Repr

/-- The complex number 0: no terms. -/
def Cplx.zero : Cplx := ⟨[]⟩

/-- The real or the imaginary part of a sample, as the host gives it: a rational number, or a number left open under a
symbol. -/
inductive Part where
  | number (q : Rat)
  | symbol (n : Nat)
deriving DecidableEq, Repr

/-- `Vec(n)` (R19): a sequence of samples, its length is `n`. -/
abbrev Vec := List Cplx

/-- A two-dimensional store `x[i][k]` (R20): row `i`, element `k`. -/
abbrev Bank := List Vec

/-- `0_L` (R19). -/
def zeroVec (L : Nat) : Vec := List.replicate L Cplx.zero

/-- A command header (R81). -/
abbrev Header := BitVec 32

end Sys2Proof
end

