-- ==== Sys2Proof/Syntax.lean ====
section
/-! DEFINITION. The commands (R82, R84), what the host sends (R80, R190), and the pseudo-instruction (R93). -/

namespace Sys2Proof

/-- The two functional units (R1, R83). -/
inductive UnitId where
  | afb
  | fmx
deriving DecidableEq, Repr

/-- One constructor per row of spec/opcode_table.json, with the operands of R84. -/
inductive Instr where
  /-- AFB_CONFIG, R104 -/
  | afbConfig (L : Nat) (taps : Vec)
  /-- AFB_PROCESS, R114 -/
  | afbProcess (u : Vec)
  /-- AFB_GET_L, R120 -/
  | afbGetL
  /-- AFB_GET_OVERLAP, R122 -/
  | afbGetOverlap
  /-- FMX_CONFIG, R142 -/
  | fmxConfig (L FL : Nat) (pre : Vec)
  /-- FMX_PROCESS, R148 -/
  | fmxProcess (v : Vec)
deriving DecidableEq, Repr

/-- The unit a command addresses (R83). -/
def Instr.unit : Instr → UnitId
  | .afbConfig _ _ => .afb
  | .afbProcess _ => .afb
  | .afbGetL => .afb
  | .afbGetOverlap => .afb
  | .fmxConfig _ _ _ => .fmx
  | .fmxProcess _ => .fmx

/-- A typed operand (R84): a natural number (R85), or a sequence of samples that comes with its length (R86). -/
inductive Operand where
  | nat (n : Nat)
  | vec (v : Vec)
deriving DecidableEq, Repr

/-- A command as the host sends it (R80): the header, then the operands in transfer order. -/
structure Command where
  header : Header
  operands : List Operand
deriving DecidableEq, Repr

/-- What the host does to the block (R203): it asserts reset (R190) or issues a command (R80). -/
inductive HostEvent where
  | reset
  | command (c : Command)
deriving DecidableEq, Repr

/-- The pseudo-instruction `afb.flush L, K` (R93): `K` AFB_PROCESS commands, each of `L` zeros. -/
def afbFlush (L K : Nat) : List Instr := List.replicate K (.afbProcess (zeroVec L))

end Sys2Proof
end

