-- ==== Sys2Proof/Decode.lean ====
section
/-! DEFINITION. From a command as the host sends it to an instruction, and back (R81, R82, R84, R89). -/

namespace Sys2Proof

/-- Why a command spells no instruction (R89). Each is `refuse(RESERVED_ENCODING)`. -/
inductive DecodeError where
  /-- `header[31:4]` is not 0 -/
  | reservedBits
  /-- `OPC` is 0x0 or 0x7 to 0xF -/
  | reservedOpcode
  /-- the operand list does not have the shape of R84 -/
  | operandShape
deriving DecidableEq, Repr

/-- `OPC`, bits 3:0 (R81). -/
def Command.opc (c : Command) : BitVec 4 := c.header.extractLsb' 0 4

/-- `RSV`, bits 31:4 (R81). -/
def Command.rsv (c : Command) : BitVec 28 := c.header.extractLsb' 4 28

/-- The instruction of an opcode and its operands: the opcode map of R82 with the operand shapes of R84. -/
def decodeOperands (opc : Nat) (ops : List Operand) : Except DecodeError Instr :=
  match opc with
  | 1 =>
    match ops with
    | [.nat L, .vec taps] => .ok (.afbConfig L taps)
    | _ => .error .operandShape
  | 2 =>
    match ops with
    | [.vec u] => .ok (.afbProcess u)
    | _ => .error .operandShape
  | 3 =>
    match ops with
    | [] => .ok .afbGetL
    | _ => .error .operandShape
  | 4 =>
    match ops with
    | [] => .ok .afbGetOverlap
    | _ => .error .operandShape
  | 5 =>
    match ops with
    | [.nat L, .nat FL, .vec pre] => .ok (.fmxConfig L FL pre)
    | _ => .error .operandShape
  | 6 =>
    match ops with
    | [.vec v] => .ok (.fmxProcess v)
    | _ => .error .operandShape
  | _ => .error .reservedOpcode

/-- The decoder (R81, R82, R84); anything that spells no command is refused by name (R89). -/
def decode (c : Command) : Except DecodeError Instr :=
  if c.rsv = 0#28 then decodeOperands c.opc.toNat c.operands else .error .reservedBits

/-- The header word of a command (R82). -/
def Instr.header : Instr → Header
  | .afbConfig _ _ => 0x00000001#32
  | .afbProcess _ => 0x00000002#32
  | .afbGetL => 0x00000003#32
  | .afbGetOverlap => 0x00000004#32
  | .fmxConfig _ _ _ => 0x00000005#32
  | .fmxProcess _ => 0x00000006#32

/-- The operands of a command in transfer order (R84). -/
def Instr.operands : Instr → List Operand
  | .afbConfig L taps => [.nat L, .vec taps]
  | .afbProcess u => [.vec u]
  | .afbGetL => []
  | .afbGetOverlap => []
  | .fmxConfig L FL pre => [.nat L, .nat FL, .vec pre]
  | .fmxProcess v => [.vec v]

/-- The command that spells an instruction (R82, R84). -/
def encode (i : Instr) : Command := ⟨i.header, i.operands⟩

/-- The operand list of R84 with every natural number 0 and every sequence empty: what "operand words of zeros" are for
a header whose operands have no bits in the opcode table (log 13). -/
def zeroOperands : Nat → List Operand
  | 1 => [.nat 0, .vec []]
  | 2 => [.vec []]
  | 5 => [.nat 0, .nat 0, .vec []]
  | 6 => [.vec []]
  | _ => []

/-- The command of a word of the opcode table: the header is the low 32 of its `nbits` bits. -/
def tableCommand (nbits w : Nat) : Command :=
  let header : Header := BitVec.ofNat 32 (w % 2 ^ nbits)
  ⟨header, zeroOperands (header.extractLsb' 0 4).toNat⟩

/-- The instruction that the decoder reads from a word of the opcode table, its operands zero. -/
def decodeTableWord (nbits w : Nat) : Option Instr :=
  match decode (tableCommand nbits w) with
  | .ok i => some i
  | .error _ => none

end Sys2Proof
end

