-- ==== Sys2Proof/Config.lean ====
section
/-! DEFINITION. What a built block fixes (the synthesis parameters, R11 to R16) and the values the spec leaves open.

R53: "A model takes them as arguments of its step relation." The step's argument is `State`, so a `Synth` rides in it
(`State.syn`), and no step changes it (log 2). -/

namespace Sys2Proof

/-- `COMM_DIR` (R11): the direction in which the commutator advances. -/
inductive CommDir where
  | plus
  | minus
deriving DecidableEq, Repr

/-- `FFT_SIGN` (R12): the sign of the DFT exponent. -/
inductive FftSign where
  | minus
  | plus
deriving DecidableEq, Repr

/-- `FFT_SCALE` (R12): the factor on every DFT output. -/
inductive FftScale where
  | one
  | invL
  | invSqrtL
deriving DecidableEq, Repr

/-- The synthesis parameters of a built block (R53). `ARITH` is exact arithmetic (R134, log 10); `SAMPLE_FMT` is
`SampleFmt` below, an argument of the transport's functions. -/
structure Synth where
  commDir : CommDir
  fftSign : FftSign
  fftScale : FftScale
  /-- largest `L` of either unit (R13) -/
  maxL : Nat
  /-- largest `K` (R13) -/
  maxK : Nat
  /-- largest `preamble_len` (R13) -/
  maxP : Nat
  /-- largest `frame_len` (R13) -/
  maxFrame : Nat
  /-- conformance tolerance of a built block's AFB outputs (R14) -/
  tol : Rat
  /-- width of a natural number on a serial transport (R15) -/
  wNat : Nat
  /-- number of channels, each a whole block (R16) -/
  nCh : Nat
deriving DecidableEq, Repr

/-- What R13 and R15 ask of the parameters: positive capacities, and `W_NAT` wide enough for each of them. -/
abbrev Synth.Legal (p : Synth) : Prop :=
  1 ≤ p.maxL ∧ 1 ≤ p.maxK ∧ 1 ≤ p.maxP ∧ 1 ≤ p.maxFrame ∧
  p.maxL < 2 ^ p.wNat ∧ p.maxFrame < 2 ^ p.wNat ∧ p.maxK < 2 ^ p.wNat ∧
  p.maxL * p.maxK < 2 ^ p.wNat ∧ p.maxL * p.maxP < 2 ^ p.wNat

/-- The block that `State.reset` shows. The directions and the scale are the spec's defaults (R11, R12); the capacities,
`tol`, `wNat` and `nCh` are OPEN in the spec. DESIGN CHOICE, unsafe (log 3): no statement rests on these numbers. -/
def Synth.default : Synth where
  commDir := .plus
  fftSign := .minus
  fftScale := .one
  maxL := 4096
  maxK := 64
  maxP := 4096
  maxFrame := 65536
  tol := 1 / 1000
  wNat := 32
  nCh := 1

/-- `SAMPLE_FMT` (R15, R65): how one part (real or imaginary) of a sample is written on a serial transport. OPEN: an
argument of the transport's functions (Machine/Transport.lean), never part of a state.

A format may have codes that it calls special (R149 (g)): an infinity, a NaN, a second zero. DESIGN CHOICE (log 20): such a
code is read as a symbol of the format's choosing, so the block passes it on as it came, and the same code is sent for
that symbol. The spec states no number for it; the symbol leaves it open. -/
structure SampleFmt where
  width : Nat
  /-- what a code stands for: a rational number, or a symbol -/
  value : BitVec width → Part
  /-- the code of a part, where the format has one -/
  code : Part → Option (BitVec width)

/-! Free values: fields that R190 (reset), R104 and R142 (a failed CONFIG) leave unspecified, U1 to U3 of
93_implementation_defined.md ("any value ... no claim may depend on it"). Each is an unknown function of the number of
the draw (`State.draws`); nothing can be proved of its values (log 5). -/

namespace Config

opaque freeAfbL : Nat → Nat
opaque freeAfbK : Nat → Nat
opaque freeAfbTaps : Nat → Bank
opaque freeAfbDelays : Nat → Bank
opaque freeAfbIndex : Nat → Nat
opaque freeFmxL : Nat → Nat
opaque freeFmxFrame : Nat → Nat
opaque freeFmxPreambleLen : Nat → Nat
opaque freeFmxPreamble : Nat → Bank
opaque freeFmxCounter : Nat → Nat

end Config

end Sys2Proof
end

