-- ==== Sys2Proof/Machine/State.lean ====
section
/-! DEFINITION. The state of the block as plain data (10_state.md), what it answers (R88), and how a step can stop. -/

namespace Sys2Proof.Machine

/-- `U.cfg` (R33, R42). -/
inductive CfgFlag where
  | unconfigured
  | configured
deriving DecidableEq, Repr

/-- `U.fault` (R34, R43, R163). -/
inductive FaultKind where
  | none
  | notConfigured
  | vectorLength
deriving DecidableEq, Repr

/-- The state of the filterbank unit (R33 to R38). -/
structure Afb where
  cfg : CfgFlag
  fault : FaultKind
  /-- subcarrier and branch count -/
  L : Nat
  /-- overlap factor: taps and delay depth of each branch -/
  K : Nat
  /-- tap store `h[b][k]` -/
  h : Bank
  /-- delay store `d[b][k]`, `k = 0` the newest sample -/
  d : Bank
  /-- commutator index -/
  r : Nat
deriving DecidableEq, Repr

/-- The state of the multiplexer unit (R42 to R46). -/
structure Fmx where
  cfg : CfgFlag
  fault : FaultKind
  /-- subcarrier count -/
  L : Nat
  /-- frame period in subcarrier vectors -/
  FL : Nat
  /-- preamble length in subcarrier vectors -/
  P : Nat
  /-- preamble store `pre[p][s]` -/
  pre : Bank
  /-- frame position counter -/
  c : Nat
deriving DecidableEq, Repr

/-- Status of a response (R88). -/
inductive Status where
  | ok
  | tapLengthMismatch
  | preambleLengthMismatch
deriving DecidableEq, Repr

/-- Payload of a response (R88). -/
inductive Payload where
  | none
  | nat (n : Nat)
  | vec (v : Vec)
deriving DecidableEq, Repr

/-- A response (R80, R88). -/
structure Response where
  status : Status
  payload : Payload
deriving DecidableEq, Repr

/-- The block (R32: the pair of the units' states) and the model's own fields: the built block's parameters (R53, log 2),
the host's actions still to come (log 6), what the host got back (log 7) and the count of free values drawn (log 5). -/
structure State where
  syn : Synth
  afb : Afb
  fmx : Fmx
  /-- the host's actions not performed yet, in issue order -/
  inbox : List HostEvent
  /-- for each command to AFB since the last reset, oldest first: its response, or none where none came -/
  afbLog : List (Option Response)
  /-- the same for FMX -/
  fmxLog : List (Option Response)
  draws : Nat
deriving DecidableEq, Repr

/-- Reasons for a step to stop with a fault: there are none. A fault of this block (R163) stops one UNIT until reset and
leaves the other running (R165), so it is a next state, with the kind in the unit's `fault` field (log 8, log 9). -/
inductive Fault where
deriving DecidableEq, Repr

/-- Reasons for a step to be refused (R169, R170: "the model marks the whole run as refused"). -/
inductive Refusal where
  /-- raised by exec for an instruction without a meaning; safe; no arm uses it -/
  | notModelled (mnemonic : String)
  /-- RESERVED_ENCODING, raised by step for a command that spells no instruction (R89); safe: nothing can be proved of
  the run -/
  | reservedEncoding
  /-- CAPACITY, raised by the two CONFIG commands for operands beyond the built block's storage (R103, R140); safe:
  nothing can be proved of the run -/
  | capacity
deriving DecidableEq, Repr

/-- AFB after reset: `cfg` and `fault` as R190 says. The other fields are unspecified there (and unobservable until the
next successful AFB_CONFIG): DESIGN CHOICE, unsafe, zero and empty (log 4). -/
def Afb.reset : Afb where
  cfg := .unconfigured
  fault := .none
  L := 0
  K := 0
  h := []
  d := []
  r := 0

/-- FMX after reset, as `Afb.reset` (R190, log 4). -/
def Fmx.reset : Fmx where
  cfg := .unconfigured
  fault := .none
  L := 0
  FL := 0
  P := 0
  pre := []
  c := 0

/-- A block with the given parameters right after reset (R190, R191), no command issued yet. -/
def State.resetOf (p : Synth) : State where
  syn := p
  afb := Afb.reset
  fmx := Fmx.reset
  inbox := []
  afbLog := []
  fmxLog := []
  draws := 0

/-- The machine right after reset, with the parameters of `Synth.default` (log 3). -/
def State.reset : State := State.resetOf Synth.default

end Sys2Proof.Machine
end

