-- ==== Sys2Proof/Machine/Flags.lean ====
section
/-! DEFINITION. The checks that decide `cfg`, the statuses and the fault kinds: configuration and capacity checks
(R102, R103, R140, R141), the codes of R88 and R163, the precondition checks (R107, R120, R122, R146). -/

namespace Sys2Proof.Machine

/-- `afb_fits(L, NT)` (R103). -/
def afbFits (p : Synth) (L NT : Nat) : Bool :=
  L ≤ p.maxL && (L == 0 || NT ≤ L * p.maxK)

/-- `afb_ok(L, NT)` (R102). -/
def afbOk (L NT : Nat) : Bool :=
  1 ≤ L && NT % L == 0 && 1 ≤ NT / L

/-- `fmx_fits(L, FL, NP)` (R140). -/
def fmxFits (p : Synth) (L FL NP : Nat) : Bool :=
  L ≤ p.maxL && FL ≤ p.maxFrame && (L == 0 || NP ≤ L * p.maxP)

/-- `fmx_ok(L, FL, NP)` (R141). -/
def fmxOk (L FL NP : Nat) : Bool :=
  1 ≤ L && NP % L == 0 && 1 ≤ FL && NP / L ≤ FL

/-- The status code of a response (R88). -/
def Status.code : Status → Nat
  | .ok => 0
  | .tapLengthMismatch => 1
  | .preambleLengthMismatch => 2

/-- The code of a fault kind in the unit's `fault` field (R163). -/
def FaultKind.code : FaultKind → Nat
  | .none => 0
  | .notConfigured => 1
  | .vectorLength => 2

/-- What an accessor checks (R120, R122): the fault it raises, `none` where it raises none. -/
def configuredCheck (cfg : CfgFlag) : FaultKind :=
  match cfg with
  | .unconfigured => .notConfigured
  | .configured => .none

/-- What a PROCESS checks, in this order (R107, R146): configured, then the vector's length against the unit's `L`. -/
def processCheck (cfg : CfgFlag) (L n : Nat) : FaultKind :=
  match cfg with
  | .unconfigured => .notConfigured
  | .configured => if n = L then .none else .vectorLength

end Sys2Proof.Machine
end

