-- ==== Sys2Proof/Machine/Arith.lean ====
section
/-! DEFINITION. Exact complex arithmetic (R18, R134) on the canonical form of a sample, and the roots of unity and
square roots that the DFT needs (R12, R113).

The canonical form. A root of unity `exp(2πjθ)` splits into its `p`-parts, one for each prime `p` dividing the
denominator of `θ`. The only relations among roots of unity are, for each prime `p`, that the `p` roots
`exp(2πj(θ + i/p))` sum to 0; so of each such `p` roots one is redundant, and the form leaves out the one whose `p`-part
has the first base-`p` digit `p - 1` (`-1` becomes minus `1`, `exp(2πj·3/4)` becomes minus `j`). Terms are sorted by
symbols and turn, no coefficient is 0, and the symbols of a term are in rising order. Then samples that are equal numbers
for every assignment to the symbols are equal data, whatever `L` they were computed for. -/

namespace Sys2Proof

/-- The turn in `[0, 1)`. -/
def fracTurn (q : Rat) : Rat := q - (q.floor : Rat)

/-- The primes that divide `n`, rising. -/
def primeDivisors (n : Nat) : List Nat :=
  (List.range (n + 1)).filter fun p =>
    2 ≤ p && n % p == 0 && (List.range p).all fun q => q < 2 || p % q != 0

/-- The largest power of `p` that divides `n`. -/
def primePart (p n : Nat) : Nat := Nat.gcd n (p ^ Nat.log2 n)

/-- The first base-`p` digit of the `p`-part of `turn`. With `q` the power of `p` in the denominator, the `p`-part is
`x/q` for the `x` in `[0, q)` that leaves `turn - x/q` a denominator without `p`. -/
def leadDigit (p : Nat) (turn : Rat) : Nat :=
  let q := primePart p turn.den
  let m := turn.den / q
  let x := ((List.range q).find? fun x => ((x * m : Nat) : Int) % q == turn.num % q).getD 0
  x * p / q

/-- Rewrites a term whose root is redundant at the prime `p` by the other `p - 1` roots of its relation. -/
def expandAt (p : Nat) (t : RootTerm) : List RootTerm :=
  if leadDigit p t.turn + 1 = p then
    (List.range (p - 1)).map fun i => ⟨fracTurn (t.turn + ((i + 1 : Nat) : Rat) / (p : Rat)), -t.coeff, t.symbols⟩
  else [t]

/-- A term as a sum of terms whose roots are in the canonical basis and whose symbols are in rising order. -/
def reduceTerm (t : RootTerm) : List RootTerm :=
  (primeDivisors (fracTurn t.turn).den).foldl (fun ts p => ts.flatMap (expandAt p))
    [⟨fracTurn t.turn, t.coeff, t.symbols.insertionSort (· ≤ ·)⟩]

/-- The order of terms: by their symbols, then by turn. -/
abbrev RootTerm.Before (t u : RootTerm) : Prop :=
  t.symbols < u.symbols ∨ t.symbols = u.symbols ∧ t.turn < u.turn

/-- Adds one term to a list in order; a coefficient that becomes 0 goes. -/
def insertTerm (t : RootTerm) : List RootTerm → List RootTerm
  | [] => if t.coeff = 0 then [] else [t]
  | u :: us =>
    if t.Before u then
      if t.coeff = 0 then u :: us else t :: u :: us
    else if t.symbols = u.symbols ∧ t.turn = u.turn then
      if t.coeff + u.coeff = 0 then us else ⟨u.turn, t.coeff + u.coeff, u.symbols⟩ :: us
    else u :: insertTerm t us

/-- The sum of terms whose roots are in the basis already. -/
def Cplx.collect (ts : List RootTerm) : Cplx := ⟨ts.foldr insertTerm []⟩

/-- The sum of any terms. -/
def Cplx.ofTerms (ts : List RootTerm) : Cplx := Cplx.collect (ts.flatMap reduceTerm)

/-- A rational number as a sample. -/
def Cplx.ofRat (q : Rat) : Cplx := Cplx.ofTerms [⟨0, q, []⟩]

/-- A part times `exp(2πj · turn)`. -/
def Part.term (turn : Rat) : Part → RootTerm
  | .number q => ⟨turn, q, []⟩
  | .symbol n => ⟨turn, 1, [n]⟩

/-- The sample with these real and imaginary parts: `a + b·j` (R18), the source's pair `(a, b)`. -/
def Cplx.ofParts (a b : Part) : Cplx := Cplx.ofTerms [a.term 0, b.term (1 / 4)]

/-- `a + b·j` for rational `a` and `b`. -/
def Cplx.cart (a b : Rat) : Cplx := Cplx.ofParts (.number a) (.number b)

/-- The complex number that is left open under a symbol. -/
def Cplx.symbol (n : Nat) : Cplx := Cplx.ofTerms [⟨0, 1, [n]⟩]

/-- `exp(2πj · turn)` (R18). -/
def Cplx.root (turn : Rat) : Cplx := Cplx.ofTerms [⟨turn, 1, []⟩]

/-- `a + b` (R18). -/
def Cplx.add (a b : Cplx) : Cplx := Cplx.collect (a.terms ++ b.terms)

/-- The product of two terms: the turns add. -/
def RootTerm.mul (s t : RootTerm) : RootTerm := ⟨s.turn + t.turn, s.coeff * t.coeff, s.symbols ++ t.symbols⟩

/-- `a · b` (R18). -/
def Cplx.mul (a b : Cplx) : Cplx := Cplx.ofTerms (a.terms.flatMap fun s => b.terms.map (RootTerm.mul s))

/-- `q · a` for a rational `q`. -/
def Cplx.scale (q : Rat) (a : Cplx) : Cplx := Cplx.collect (a.terms.map fun t => ⟨t.turn, q * t.coeff, t.symbols⟩)

/-- `-a` (R18). -/
def Cplx.neg (a : Cplx) : Cplx := Cplx.scale (-1) a

/-- `Σ` of a list of samples (R17: 0 for the empty sum). -/
def Cplx.sum (xs : Vec) : Cplx := Cplx.collect (xs.flatMap Cplx.terms)

/-- Element-wise sum of two vectors (R19). -/
def Vec.add (a b : Vec) : Vec := List.zipWith Cplx.add a b

/-- Element-wise sum of two stores. -/
def Bank.add (a b : Bank) : Bank := List.zipWith Vec.add a b

/-- `sqrt(n)` as `Π_{k=1}^{n-1} 2·sin(πk/(2n))`, where `2·sin(πk/(2n))` is the sum of two conjugate roots of unity.
DEDUCED: the identity is mathematics, not the spec's words (log 11). -/
def Cplx.sqrtNat (n : Nat) : Cplx :=
  (List.range (n - 1)).foldl (fun acc i =>
    let k : Rat := ((i + 1 : Nat) : Rat) / ((4 * n : Nat) : Rat)
    acc.mul ((Cplx.root (1 / 4 - k)).add (Cplx.root (k - 1 / 4)))) (Cplx.ofRat 1)

/-- `1/sqrt(n)` = `sqrt(n)/n` (R12). -/
def Cplx.invSqrtNat (n : Nat) : Cplx := Cplx.scale (1 / (n : Rat)) (Cplx.sqrtNat n)

/-- The part of `z` that stands at this turn, if `z` has parts: 0 where there is no term. -/
def Cplx.partAt (z : Cplx) (turn : Rat) : Part :=
  match z.terms.find? fun t => t.turn == turn with
  | none => .number 0
  | some t =>
    match t.symbols with
    | [] => .number t.coeff
    | n :: _ => .symbol n

/-- The parts of a sample that has the form `a + b·j`, each part a rational number or a symbol; none for another. -/
def Cplx.parts? (z : Cplx) : Option (Part × Part) :=
  let a := z.partAt 0
  let b := z.partAt (1 / 4)
  if z = Cplx.ofParts a b then some (a, b) else none

/-- A turn is in `[0, 1)` and its root is in the canonical basis. -/
def basisTurn (turn : Rat) : Bool :=
  decide (0 ≤ turn) && decide (turn < 1) && (primeDivisors turn.den).all fun p => leadDigit p turn + 1 != p

/-- Terms in strictly rising order. -/
def risingTerms : List RootTerm → Bool
  | [] => true
  | [_] => true
  | t :: u :: us => decide (t.Before u) && risingTerms (u :: us)

/-- Numbers in rising order, repeats allowed. -/
def risingSymbols : List Nat → Bool
  | [] => true
  | [_] => true
  | m :: n :: ns => decide (m ≤ n) && risingSymbols (n :: ns)

/-- The canonical form of a sample. -/
def Cplx.wf (z : Cplx) : Bool :=
  risingTerms z.terms && z.terms.all fun t => t.coeff != 0 && basisTurn t.turn && risingSymbols t.symbols

/-- Every sample of a vector is in canonical form. -/
def Vec.wf (v : Vec) : Bool := v.all Cplx.wf

/-- Every sample of a store is in canonical form. -/
def Bank.wf (m : Bank) : Bool := m.all Vec.wf

end Sys2Proof
end

