-- ==== Sys2Proof/Machine/Operands.lean ====
section
/-! DEFINITION. How operands are cut into stores and routed: reading an element (R20), the tap partition (R101), the
preamble rows (R45), the commutator's mapping (R40). -/

namespace Sys2Proof.Machine

/-- `v[i]` (R19). Past the end it reads 0, which no state that meets the invariant ever does (log 12). -/
def elem (v : Vec) (i : Nat) : Cplx := v.getD i Cplx.zero

/-- `m[b]` (R20), empty past the last row (log 12). -/
def row (m : Bank) (b : Nat) : Vec := m.getD b []

/-- `m[b][k]` (R20). -/
def cell (m : Bank) (b k : Nat) : Cplx := elem (row m b) k

/-- The store with `m[b][k] = f b k` for `b` in `[0, rows)` and `k` in `[0, cols)`. -/
def tabulate (rows cols : Nat) (f : Nat → Nat → Cplx) : Bank :=
  (List.range rows).map fun b => (List.range cols).map (f b)

/-- The tap partition (R101): `h[b][k] = taps[b + k·L]`. -/
def partition (L K : Nat) (taps : Vec) : Bank := tabulate L K fun b k => elem taps (b + k * L)

/-- The preamble store (R45): `pre[p][s] = flat[p·L + s]`. -/
def preambleRows (P L : Nat) (flat : Vec) : Bank := tabulate P L fun p s => elem flat (p * L + s)

/-- `COMM_DIR` as a number (R11). -/
def CommDir.sign : CommDir → Int
  | .plus => 1
  | .minus => -1

/-- `FFT_SIGN` as a number (R12). -/
def FftSign.sign : FftSign → Int
  | .minus => -1
  | .plus => 1

/-- `beta_r(s) = (s + COMM_DIR · r) mod L` (R40). -/
def beta (dir : CommDir) (L r s : Nat) : Nat := (((s : Int) + CommDir.sign dir * (r : Int)) % (L : Int)).toNat

/-- The inverse of `beta_r`: `s = (b - COMM_DIR · r) mod L` (R40). -/
def betaInv (dir : CommDir) (L r b : Nat) : Nat := (((b : Int) - CommDir.sign dir * (r : Int)) % (L : Int)).toNat

end Sys2Proof.Machine
end

