-- ==== Sys2Proof/Machine/Ops.lean ====
section
/-! DEFINITION. The operations every meaning uses: answering the host (R22, R88), raising a fault (R165), not performing a
command of a faulted unit (R165, R172), and leaving fields unspecified (R104, R142, R190). -/

namespace Sys2Proof.Machine

/-- What one command comes to (R160). -/
abbrev Result := Host.Outcome State Fault Refusal

/-- `U.fault`. -/
def State.faultOf (u : UnitId) (s : State) : FaultKind :=
  match u with
  | .afb => s.afb.fault
  | .fmx => s.fmx.fault

/-- `U.fault <- kind`. -/
def State.setFault (u : UnitId) (kind : FaultKind) (s : State) : State :=
  match u with
  | .afb => { s with afb := { s.afb with fault := kind } }
  | .fmx => { s with fmx := { s.fmx with fault := kind } }

/-- What the host got back so far for its commands to a unit. -/
def State.logOf (u : UnitId) (s : State) : List (Option Response) :=
  match u with
  | .afb => s.afbLog
  | .fmx => s.fmxLog

/-- Records what the host gets back for a command: at most one response (R80). -/
def State.report (u : UnitId) (r : Option Response) (s : State) : State :=
  match u with
  | .afb => { s with afbLog := s.afbLog ++ [r] }
  | .fmx => { s with fmxLog := s.fmxLog ++ [r] }

/-- `respond(status, payload)` (R22, R88). -/
def State.respond (u : UnitId) (status : Status) (payload : Payload) (s : State) : State :=
  s.report u (some ⟨status, payload⟩)

/-- `raise Fault(kind)` (R165): sets `U.fault`, writes no other field, returns no response. This is the whole of taking
an exception on this block (R167). -/
def State.raiseFault (u : UnitId) (kind : FaultKind) (s : State) : State :=
  (s.setFault u kind).report u none

/-- A command to a faulted unit is not performed: it writes nothing and returns no response (R165, R168). -/
def State.notPerformed (u : UnitId) (s : State) : State := s.report u none

/-- Check (2) of R172: a faulted unit does not perform the command; otherwise its rule decides. -/
def whenUnfaulted (u : UnitId) (s : State) (performed : Result) : Result :=
  match s.faultOf u with
  | .none => performed
  | .notConfigured => .next (s.notPerformed u)
  | .vectorLength => .next (s.notPerformed u)

/-- Checks (5) and (6) of R172: the first precondition that fails raises its fault; otherwise the command's rule. -/
def whenChecked (u : UnitId) (check : FaultKind) (s : State) (performed : Result) : Result :=
  match check with
  | .none => performed
  | .notConfigured => .next (s.raiseFault u .notConfigured)
  | .vectorLength => .next (s.raiseFault u .vectorLength)

/-- `AFB.cfg <- UNCONFIGURED`, the other fields but `fault` unspecified (R104, R190): free values (log 5). -/
def State.unconfigureAfb (s : State) : State :=
  { s with
    afb :=
      { cfg := .unconfigured
        fault := s.afb.fault
        L := Config.freeAfbL s.draws
        K := Config.freeAfbK s.draws
        h := Config.freeAfbTaps s.draws
        d := Config.freeAfbDelays s.draws
        r := Config.freeAfbIndex s.draws }
    draws := s.draws + 1 }

/-- `FMX.cfg <- UNCONFIGURED`, the other fields but `fault` unspecified (R142, R190): free values (log 5). -/
def State.unconfigureFmx (s : State) : State :=
  { s with
    fmx :=
      { cfg := .unconfigured
        fault := s.fmx.fault
        L := Config.freeFmxL s.draws
        FL := Config.freeFmxFrame s.draws
        P := Config.freeFmxPreambleLen s.draws
        pre := Config.freeFmxPreamble s.draws
        c := Config.freeFmxCounter s.draws }
    draws := s.draws + 1 }

/-- Reset of the whole block (R190): both units unconfigured and without a fault, every other field unspecified. It is
the only way out of a fault (R168). A run begins here (R202), so the logs begin anew (log 7). -/
def State.resetBlock (s : State) : State :=
  { ((s.unconfigureAfb.unconfigureFmx).setFault .afb .none).setFault .fmx .none with
    afbLog := []
    fmxLog := [] }

end Sys2Proof.Machine
end

