-- ==== Sys2Proof/Machine/Afb.lean ====
section
/-! DEFINITION. The analysis filterbank unit: its datapath (R108 to R113) and the meanings of its four commands. -/

namespace Sys2Proof.Machine

/-- `dn` (R108, R109): every delay line shifted by one, the oldest sample discarded, and in place 0 of branch `b` the
sample of the slot that the commutator routes to `b`. -/
def shiftDelays (dir : CommDir) (L K r : Nat) (d : Bank) (u : Vec) : Bank :=
  tabulate L K fun b k =>
    match k with
    | 0 => elem u (betaInv dir L r b)
    | j + 1 => cell d b j

/-- `y[b] = Σ_k h[b][k]·dn[b][k]` (R110). -/
def branchOutputs (L K : Nat) (h dn : Bank) : Vec :=
  (List.range L).map fun b => Cplx.sum ((List.range K).map fun k => (cell h b k).mul (cell dn b k))

/-- `z[s] = y[beta_r(s)]` (R111). -/
def placeOutputs (dir : CommDir) (L r : Nat) (y : Vec) : Vec :=
  (List.range L).map fun s => elem y (beta dir L r s)

/-- `sigma` (R113). -/
def sigma (scale : FftScale) (L : Nat) : Cplx :=
  match scale with
  | .one => Cplx.ofRat 1
  | .invL => Cplx.ofRat (1 / (L : Rat))
  | .invSqrtL => Cplx.invSqrtNat L

/-- `omega^(f·s)` with `omega = exp(FFT_SIGN · j · 2π / L)` (R113). -/
def omegaPow (sign : FftSign) (L f s : Nat) : Cplx :=
  Cplx.root ((FftSign.sign sign * ((f * s : Nat) : Int) : Int) / (L : Rat))

/-- `X[f] = sigma · Σ_s z[s]·omega^(f·s)` for `f` in `[0, L)` (R113). -/
def dft (sign : FftSign) (scale : FftScale) (L : Nat) (z : Vec) : Vec :=
  (List.range L).map fun f =>
    (sigma scale L).mul (Cplx.sum ((List.range L).map fun s => (elem z s).mul (omegaPow sign L f s)))

/-- The slots `z` that enter the DFT for an input vector (R108 to R111). -/
def Afb.slots (p : Synth) (a : Afb) (u : Vec) : Vec :=
  placeOutputs p.commDir a.L a.r (branchOutputs a.L a.K a.h (shiftDelays p.commDir a.L a.K a.r a.d u))

/-- The output vector `X` of AFB_PROCESS (R114). -/
def Afb.output (p : Synth) (a : Afb) (u : Vec) : Vec :=
  dft p.fftSign p.fftScale a.L (a.slots p u)

/-- The unit after AFB_PROCESS (R114): `d <- dn`, `r <- (r + 1) mod L`. -/
def Afb.advance (p : Synth) (a : Afb) (u : Vec) : Afb :=
  { a with
    d := shiftDelays p.commDir a.L a.K a.r a.d u
    r := (a.r + 1) % a.L }

/-- The unit after a successful AFB_CONFIG (R104); `fault` is unchanged. -/
def Afb.configure (a : Afb) (L : Nat) (taps : Vec) : Afb where
  cfg := .configured
  fault := a.fault
  L := L
  K := taps.length / L
  h := partition L (taps.length / L) taps
  d := tabulate L (taps.length / L) fun _ _ => Cplx.zero
  r := 0

/-- AFB_CONFIG (R104, checks in the order of R172). -/
def execAfbConfig (L : Nat) (taps : Vec) (s : State) : Result :=
  whenUnfaulted .afb s <|
    if !afbFits s.syn L taps.length then .refused .capacity
    else if !afbOk L taps.length then
      .next (s.unconfigureAfb.respond .afb .tapLengthMismatch .none)
    else
      .next (State.respond .afb .ok .none { s with afb := s.afb.configure L taps })

/-- AFB_PROCESS (R114, checks of R107). -/
def execAfbProcess (u : Vec) (s : State) : Result :=
  whenUnfaulted .afb s <|
    whenChecked .afb (processCheck s.afb.cfg s.afb.L u.length) s <|
      .next (State.respond .afb .ok (.vec (s.afb.output s.syn u)) { s with afb := s.afb.advance s.syn u })

/-- AFB_GET_L (R120). -/
def execAfbGetL (s : State) : Result :=
  whenUnfaulted .afb s <|
    whenChecked .afb (configuredCheck s.afb.cfg) s <|
      .next (s.respond .afb .ok (.nat s.afb.L))

/-- AFB_GET_OVERLAP (R122). -/
def execAfbGetOverlap (s : State) : Result :=
  whenUnfaulted .afb s <|
    whenChecked .afb (configuredCheck s.afb.cfg) s <|
      .next (s.respond .afb .ok (.nat s.afb.K))

end Sys2Proof.Machine
end

