-- ==== Sys2Proof/Machine/Fmx.lean ====
section
/-! DEFINITION. The frame multiplexer unit: the selection (R147) and the meanings of its two commands. -/

namespace Sys2Proof.Machine

/-- The output vector `w` of FMX_PROCESS (R147): the preamble vector at the counter's index, or the input unchanged. -/
def Fmx.output (x : Fmx) (v : Vec) : Vec :=
  if x.c < x.P then row x.pre x.c else v

/-- The unit after FMX_PROCESS (R148): `c <- (c + 1) mod FL`. -/
def Fmx.advance (x : Fmx) : Fmx := { x with c := (x.c + 1) % x.FL }

/-- The unit after a successful FMX_CONFIG (R142); `fault` is unchanged. -/
def Fmx.configure (x : Fmx) (L FL : Nat) (pre : Vec) : Fmx where
  cfg := .configured
  fault := x.fault
  L := L
  FL := FL
  P := pre.length / L
  pre := preambleRows (pre.length / L) L pre
  c := 0

/-- FMX_CONFIG (R142, checks in the order of R172). -/
def execFmxConfig (L FL : Nat) (pre : Vec) (s : State) : Result :=
  whenUnfaulted .fmx s <|
    if !fmxFits s.syn L FL pre.length then .refused .capacity
    else if !fmxOk L FL pre.length then
      .next (s.unconfigureFmx.respond .fmx .preambleLengthMismatch .none)
    else
      .next (State.respond .fmx .ok .none { s with fmx := s.fmx.configure L FL pre })

/-- FMX_PROCESS (R148, checks of R146). -/
def execFmxProcess (v : Vec) (s : State) : Result :=
  whenUnfaulted .fmx s <|
    whenChecked .fmx (processCheck s.fmx.cfg s.fmx.L v.length) s <|
      .next (State.respond .fmx .ok (.vec (s.fmx.output v)) { s with fmx := s.fmx.advance })

end Sys2Proof.Machine
end

