-- ==== Sys2Proof/Machine/Dispatch.lean ====
section
/-! DEFINITION. One arm per command (R82). -/

namespace Sys2Proof.Machine

def exec (i : Instr) (s : State) : Host.Outcome State Fault Refusal :=
  match i with
  | .afbConfig L taps => Sys2Proof.Machine.execAfbConfig L taps s
  | .afbProcess u => Sys2Proof.Machine.execAfbProcess u s
  | .afbGetL => Sys2Proof.Machine.execAfbGetL s
  | .afbGetOverlap => Sys2Proof.Machine.execAfbGetOverlap s
  | .fmxConfig L FL pre => Sys2Proof.Machine.execFmxConfig L FL pre s
  | .fmxProcess v => Sys2Proof.Machine.execFmxProcess v s

end Sys2Proof.Machine
end

