-- ==== Sys2Proof/Machine/Step.lean ====
section
/-! DEFINITION. One step: the block takes the host's next action (R70, R203), a reset (R190) or a command (R80). With
none to take it waits and holds its state (R62, R180). There is no program counter (R31): the order of the commands is
the order of `State.inbox` (log 6). -/

namespace Sys2Proof.Machine

/-- Performs a command: it is refused if it spells no instruction (R89, check (1) of R172). -/
def perform (c : Command) (s : State) : Host.Outcome State Fault Refusal :=
  match decode c with
  | .ok i => exec i s
  | .error _ => .refused .reservedEncoding

def step (s : State) : Host.Outcome State Fault Refusal :=
  match s.inbox with
  | [] => .next s
  | .reset :: rest => .next (State.resetBlock { s with inbox := rest })
  | .command c :: rest => perform c { s with inbox := rest }

/-- The host issues the command of a word of the opcode table, operands zero, as its next action (log 6, log 13). -/
def State.withFetchWord (s : State) (nbits w : Nat) : State :=
  { s with inbox := .command (tableCommand nbits w) :: s.inbox }

end Sys2Proof.Machine
end

