-- ==== Sys2Proof/Machine/Asm.lean ====
section
/-! DEFINITION. The assembler syntax: one command per line (R91), literals (R92), `afb.flush` (R93), `.reset` (R94). A
line is read as the host's actions it stands for. The spec gives the forms and not the lexical details: spaces between
tokens, signs and decimal points are log 15. -/

namespace Sys2Proof.Machine

/-- A token of a line: a run of letters, digits, dots and underscores, or one mark. -/
inductive Token where
  | word (cs : List Char)
  | mark (c : Char)
deriving DecidableEq, Repr

def isWordChar (c : Char) : Bool := c.isAlphanum || c == '.' || c == '_'

/-- Puts a finished word before the tokens that follow it. -/
def flushWord (cs : List Char) (ts : List Token) : List Token :=
  match cs with
  | [] => ts
  | _ :: _ => .word cs.reverse :: ts

/-- The tokens of a line. A comment (`;`) and a response (`->`) end it. `acc` is the word being read, reversed. -/
def tokens (acc : List Char) : List Char → List Token
  | [] => flushWord acc []
  | ';' :: _ => flushWord acc []
  | '-' :: '>' :: _ => flushWord acc []
  | c :: cs =>
    if isWordChar c then tokens (c :: acc) cs
    else if c.isWhitespace then flushWord acc (tokens [] cs)
    else flushWord acc (.mark c :: tokens [] cs)

/-- The value of a digit in base 10 or 16. -/
def digitValue (base : Nat) (c : Char) : Option Nat :=
  let v := if c.isDigit then c.toNat - '0'.toNat
    else if 'a' ≤ c && c ≤ 'f' then c.toNat - 'a'.toNat + 10
    else if 'A' ≤ c && c ≤ 'F' then c.toNat - 'A'.toNat + 10
    else base
  if v < base then some v else none

/-- A run of digits after the value `acc`. -/
def digitsFrom (base acc : Nat) : List Char → Option Nat
  | [] => some acc
  | c :: cs => (digitValue base c).bind fun v => digitsFrom base (acc * base + v) cs

/-- A run of one or more digits. -/
def digitRun (base : Nat) (cs : List Char) : Option Nat :=
  match cs with
  | [] => none
  | _ :: _ => digitsFrom base 0 cs

/-- A natural literal (R92): decimal or `0x` hexadecimal. -/
def natLiteral : List Char → Option Nat
  | '0' :: 'x' :: cs => digitRun 16 cs
  | cs => digitRun 10 cs

/-- A decimal number, with or without a fraction. -/
def decimal (cs : List Char) : Option Rat :=
  match cs.span (· != '.') with
  | (whole, []) => (digitRun 10 whole).map fun n => (n : Rat)
  | (whole, _ :: frac) =>
    match digitRun 10 whole, digitRun 10 frac with
    | some n, some f => some ((n : Rat) + (f : Rat) / ((10 ^ frac.length : Nat) : Rat))
    | _, _ => none

/-- A decimal number followed by `j`. -/
def imaginary (cs : List Char) : Option Rat :=
  match cs.reverse with
  | 'j' :: rest => decimal rest.reverse
  | _ => none

/-- The sign before a number, and the tokens after it. -/
def signed : List Token → Rat × List Token
  | .mark '-' :: ts => (-1, ts)
  | ts => (1, ts)

/-- The pair form `(a,b)` after its opening parenthesis (R92). -/
def pairLiteral (ts : List Token) : Option (Cplx × List Token) :=
  match signed ts with
  | (sa, .word a :: .mark ',' :: ts') =>
    match signed ts' with
    | (sb, .word b :: .mark ')' :: rest) =>
      match decimal a, decimal b with
      | some x, some y => some (Cplx.cart (sa * x) (sb * y), rest)
      | _, _ => none
    | _ => none
  | _ => none

/-- The imaginary part that may follow a real part, `+bj` or `-bj` (R92). -/
def imaginaryTail (a : Rat) (ts : List Token) : Option (Cplx × List Token) :=
  match ts with
  | .mark '+' :: .word b :: rest => (imaginary b).map fun y => (Cplx.cart a y, rest)
  | .mark '-' :: .word b :: rest => (imaginary b).map fun y => (Cplx.cart a (-y), rest)
  | _ => some (Cplx.cart a 0, ts)

/-- A complex literal `a`, `bj`, `a+bj`, `a-bj` or `(a,b)` (R92). -/
def complexLiteral (ts : List Token) : Option (Cplx × List Token) :=
  match ts with
  | .mark '(' :: rest => pairLiteral rest
  | _ =>
    match signed ts with
    | (s, .word w :: rest) =>
      match imaginary w with
      | some y => some (Cplx.cart 0 (s * y), rest)
      | none => (decimal w).bind fun x => imaginaryTail (s * x) rest
    | _ => none

/-- The elements of a sequence after its opening bracket, with at most `fuel` of them (R91, R92). -/
def elements : Nat → List Token → Option (Vec × List Token)
  | 0, _ => none
  | fuel + 1, ts =>
    match complexLiteral ts with
    | some (z, .mark ',' :: rest) => (elements fuel rest).map fun p => (z :: p.1, p.2)
    | some (z, .mark ']' :: rest) => some ([z], rest)
    | _ => none

/-- A sequence that ends the line; `[]` is the empty sequence (R92). -/
def lastSequence (ts : List Token) : Option Vec :=
  match ts with
  | [.mark '[', .mark ']'] => some []
  | .mark '[' :: rest =>
    match elements rest.length rest with
    | some (v, []) => some v
    | _ => none
  | _ => none

/-- The host's action that issues an instruction. -/
def issue (i : Instr) : HostEvent := .command (encode i)

/-- A line with its mnemonic taken off (R91, R93, R94). -/
def operandsOfLine (mnemonic : List Char) (ts : List Token) : Option (List HostEvent) :=
  if mnemonic = "afb.config".toList then
    match ts with
    | .word n :: .mark ',' :: rest =>
      match natLiteral n, lastSequence rest with
      | some L, some taps => some [issue (.afbConfig L taps)]
      | _, _ => none
    | _ => none
  else if mnemonic = "afb.process".toList then (lastSequence ts).map fun u => [issue (.afbProcess u)]
  else if mnemonic = "afb.get_l".toList then if ts = [] then some [issue .afbGetL] else none
  else if mnemonic = "afb.get_overlap".toList then if ts = [] then some [issue .afbGetOverlap] else none
  else if mnemonic = "fmx.config".toList then
    match ts with
    | .word n :: .mark ',' :: .word m :: .mark ',' :: rest =>
      match natLiteral n, natLiteral m, lastSequence rest with
      | some L, some FL, some pre => some [issue (.fmxConfig L FL pre)]
      | _, _, _ => none
    | _ => none
  else if mnemonic = "fmx.process".toList then (lastSequence ts).map fun v => [issue (.fmxProcess v)]
  else if mnemonic = "afb.flush".toList then
    match ts with
    | [.word n, .mark ',', .word m] =>
      match natLiteral n, natLiteral m with
      | some L, some K => some ((afbFlush L K).map issue)
      | _, _ => none
    | _ => none
  else if mnemonic = ".reset".toList then if ts = [] then some [.reset] else none
  else none

/-- One line of a program: the host's actions it stands for; none for a line that has no reading. A line without a
token stands for nothing. -/
def assembleLine (line : List Char) : Option (List HostEvent) :=
  match tokens [] line with
  | [] => some []
  | .word m :: ts => operandsOfLine m ts
  | .mark _ :: _ => none

/-- The lines of a text. `acc` is the line being read, reversed. -/
def linesOf (acc : List Char) : List Char → List (List Char)
  | [] => [acc.reverse]
  | c :: cs => if c = '\n' then acc.reverse :: linesOf [] cs else linesOf (c :: acc) cs

/-- The actions of a list of lines, in order. -/
def assembleLines : List (List Char) → Option (List HostEvent)
  | [] => some []
  | l :: ls =>
    match assembleLine l, assembleLines ls with
    | some es, some rest => some (es ++ rest)
    | _, _ => none

/-- A program text as the host's actions (R91 to R94). -/
def assemble (text : String) : Option (List HostEvent) := assembleLines (linesOf [] text.toList)

end Sys2Proof.Machine
end

