-- ==== Sys2Proof/Machine/System.lean ====
section
/-! DEFINITION. A system of `N_CH` channels (R16, R178): that many whole blocks, each reset, configured and driven on its
own; they share nothing and send each other nothing (log 19). -/

namespace Sys2Proof.Machine

/-- The blocks of a system, one per channel. -/
abbrev System := List State

/-- A system of `N_CH` blocks right after power-on (R16, R191). -/
def System.powerOn (p : Synth) : System := List.replicate p.nCh (State.resetOf p)

/-- Channel `k` takes the next action of its own host. A channel that the system does not have has no actions. -/
def System.stepChannel (k : Nat) (sys : System) : Host.Outcome System Fault Refusal :=
  match sys[k]? with
  | none => .next sys
  | some s =>
    match step s with
    | .next t => .next (sys.set k t)
    | .fault r => .fault r
    | .refused r => .refused r

end Sys2Proof.Machine
end

