-- ==== Sys2Proof/Machine/Transport.lean ====
section
/-! DEFINITION. The serial transport of commands and responses (R61, R65, R85, R86): element 0 first, the real part of a
sample before its imaginary part, a natural number in `W_NAT` bits. How a part is encoded is the OPEN parameter
`SAMPLE_FMT` (an argument here), how a length travels is the transport's own (R86, U12): a sequence of parts comes with
its length (log 14). A code that the format calls special is read as a symbol (log 20). -/

namespace Sys2Proof.Machine

/-- An operand or a payload as the transport carries it. -/
inductive SerialItem (wNat wPart : Nat) where
  /-- a natural number, `W_NAT` bits -/
  | nat (n : BitVec wNat)
  /-- the parts of a sequence of samples, in transfer order -/
  | parts (ps : List (BitVec wPart))
deriving DecidableEq, Repr

/-- A command as the transport carries it (R80): the header word, then the operands. -/
structure SerialCommand (wNat wPart : Nat) where
  header : Header
  items : List (SerialItem wNat wPart)
deriving DecidableEq, Repr

/-- The samples that a sequence of parts carries: real part, then imaginary part, element by element (R65, R86). A
sequence with half a sample carries none. -/
def samplesOfParts (fmt : SampleFmt) : List (BitVec fmt.width) → Option Vec
  | [] => some []
  | [_] => none
  | re :: im :: rest => (samplesOfParts fmt rest).map fun v => Cplx.ofParts (fmt.value re) (fmt.value im) :: v

/-- The parts of one sample, real then imaginary, where the format has a code for both.

DESIGN CHOICE (log 21): a sample has no serial form here if a part of it is neither a rational number nor one symbol, as
parts of exact AFB outputs can be (`√3/2` for `L = 3`, a sum of two symbols), or is one that the format has no code for.
The spec leaves what a built block sends for it to `ARITH` and `SAMPLE_FMT` (R14, R15), within `TOL` of it (R134):
`Synth.CarriesOutput` in Safety.lean says which parts those are. -/
def partsOfSample (fmt : SampleFmt) (z : Cplx) : Option (List (BitVec fmt.width)) :=
  match z.parts? with
  | none => none
  | some (a, b) =>
    match fmt.code a, fmt.code b with
    | some re, some im => some [re, im]
    | _, _ => none

/-- The parts of a vector, element 0 first (R65). -/
def partsOfSamples (fmt : SampleFmt) : Vec → Option (List (BitVec fmt.width))
  | [] => some []
  | z :: v =>
    match partsOfSample fmt z, partsOfSamples fmt v with
    | some ps, some qs => some (ps ++ qs)
    | _, _ => none

/-- A natural number on the transport (R85), where its width holds it. -/
def serialNat (wNat n : Nat) : Option (BitVec wNat) :=
  if n < 2 ^ wNat then some (BitVec.ofNat wNat n) else none

/-- The operand that an item carries: a natural number is zero-extended (R85). -/
def operandOfItem (fmt : SampleFmt) (wNat : Nat) : SerialItem wNat fmt.width → Option Operand
  | .nat n => some (.nat n.toNat)
  | .parts ps => (samplesOfParts fmt ps).map .vec

/-- The item that carries an operand. -/
def itemOfOperand (fmt : SampleFmt) (wNat : Nat) : Operand → Option (SerialItem wNat fmt.width)
  | .nat n => (serialNat wNat n).map .nat
  | .vec v => (partsOfSamples fmt v).map .parts

/-- All results of a list, or none. -/
def allOf {α β : Type} (f : α → Option β) : List α → Option (List β)
  | [] => some []
  | x :: xs =>
    match f x, allOf f xs with
    | some y, some ys => some (y :: ys)
    | _, _ => none

/-- Decodes a command from the transport. Items that carry no operand make a malformed operand list (R89). -/
def decodeSerial (fmt : SampleFmt) (wNat : Nat) (c : SerialCommand wNat fmt.width) : Except DecodeError Instr :=
  match allOf (operandOfItem fmt wNat) c.items with
  | some ops => decode ⟨c.header, ops⟩
  | none => if c.header.extractLsb' 4 28 ≠ 0 then .error .reservedBits else .error .operandShape

/-- The command as the transport carries it; none where the width or the format cannot carry an operand. -/
def encodeSerial (fmt : SampleFmt) (wNat : Nat) (i : Instr) : Option (SerialCommand wNat fmt.width) :=
  (allOf (itemOfOperand fmt wNat) i.operands).map fun items => ⟨i.header, items⟩

/-- A payload as the transport carries it (R85, R65): nothing, one natural number or one vector; none for a vector whose
exact samples the format does not carry, which an AFB output can be (log 21). -/
def itemsOfPayload (fmt : SampleFmt) (wNat : Nat) : Payload → Option (List (SerialItem wNat fmt.width))
  | .none => some []
  | .nat n => (serialNat wNat n).map fun b => [.nat b]
  | .vec v => (partsOfSamples fmt v).map fun ps => [.parts ps]

end Sys2Proof.Machine
end

