-- ==== Sys2Proof/WellFormed.lean ====
section
/-! DEFINITION. Which commands are well-formed. R84 admits every natural number and every sequence of complex values of
every length, so the one check is that each sample operand is in the canonical form of a complex value (log 22).
A vector of the wrong length is well-formed: it is a command that faults (R107, R146). -/

namespace Sys2Proof

/-- Every sample operand is in canonical form. -/
def Instr.wellFormed : Instr → Bool
  | .afbConfig _ taps => Vec.wf taps
  | .afbProcess u => Vec.wf u
  | .afbGetL => true
  | .afbGetOverlap => true
  | .fmxConfig _ _ pre => Vec.wf pre
  | .fmxProcess v => Vec.wf v

end Sys2Proof
end

