-- ==== Sys2Proof/Safety.lean ====
section
/-! DEFINITION. The terms in which claims are stated: the complex number a sample stands for, the invariants of the two
units (R39, R47), runs of commands, when two units cannot be told apart (R35 to R38, R44 to R46), the successful end of
a run (R202) and the conformance of a built block (R134). -/

namespace Sys2Proof

/-- An assignment of complex numbers to the symbols. A statement about the numbers of a run holds for every one. -/
abbrev Valuation := Nat → ℂ

/-- The complex number `coeff · exp(2πj · turn)` times the numbers of the symbols. -/
noncomputable def RootTerm.toComplex (ρ : Valuation) (t : RootTerm) : ℂ :=
  (t.coeff : ℂ) * Complex.exp (2 * Real.pi * Complex.I * (t.turn : ℂ)) * (t.symbols.map ρ).prod

/-- The complex number that a sum of terms is. -/
noncomputable def termsValue (ρ : Valuation) (ts : List RootTerm) : ℂ := (ts.map (RootTerm.toComplex ρ)).sum

/-- The complex number that a sample is (R18). -/
noncomputable def Cplx.toComplex (ρ : Valuation) (z : Cplx) : ℂ := termsValue ρ z.terms

/-- The number that a part is. -/
noncomputable def Part.toComplex (ρ : Valuation) : Part → ℂ
  | .number q => (q : ℂ)
  | .symbol n => ρ n

/-- A built block's value is within `tol` of the exact one in its real and its imaginary part (R134). -/
def Cplx.Within (ρ : Valuation) (tol : Rat) (exact built : Cplx) : Prop :=
  |(built.toComplex ρ).re - (exact.toComplex ρ).re| ≤ (tol : ℝ) ∧
  |(built.toComplex ρ).im - (exact.toComplex ρ).im| ≤ (tol : ℝ)

/-- A built block's output vector conforms to the exact one (R134). -/
def Synth.Conforms (p : Synth) (ρ : Valuation) (exact built : Vec) : Prop :=
  built.length = exact.length ∧
  ∀ f < exact.length, Cplx.Within ρ p.tol (Machine.elem exact f) (Machine.elem built f)

/-- The parts that a built block may send for the exact output vector: they carry a vector that conforms to it (R65,
R134). How it rounds to one of them is open (log 21). -/
def Synth.CarriesOutput (p : Synth) (ρ : Valuation) (fmt : SampleFmt) (exact : Vec) (ps : List (BitVec fmt.width)) : Prop :=
  ∃ built, Machine.samplesOfParts fmt ps = some built ∧ p.Conforms ρ exact built

namespace Machine

/-- A store of `rows` rows of `cols` samples. -/
abbrev HasShape (m : Bank) (rows cols : Nat) : Prop := m.length = rows ∧ ∀ v ∈ m, v.length = cols

/-- The AFB invariant (R39). -/
abbrev Afb.Inv (p : Synth) (a : Afb) : Prop :=
  a.cfg = .configured →
    1 ≤ a.L ∧ a.L ≤ p.maxL ∧ 1 ≤ a.K ∧ a.K ≤ p.maxK ∧ a.r < a.L ∧
    HasShape a.h a.L a.K ∧ HasShape a.d a.L a.K

/-- The FMX invariant (R47), with the bounds of R44 and the shape of R45. -/
abbrev Fmx.Inv (p : Synth) (x : Fmx) : Prop :=
  x.cfg = .configured →
    1 ≤ x.L ∧ x.L ≤ p.maxL ∧ 1 ≤ x.FL ∧ x.FL ≤ p.maxFrame ∧ x.P ≤ x.FL ∧ x.P ≤ p.maxP ∧ x.c < x.FL ∧
    HasShape x.pre x.P x.L

/-- Both units' invariants. -/
abbrev State.Inv (s : State) : Prop := s.afb.Inv s.syn ∧ s.fmx.Inv s.syn

/-- Every sample operand of the host's actions still to come is in canonical form. -/
def HostEvent.canonical : HostEvent → Bool
  | .reset => true
  | .command c => c.operands.all fun o =>
    match o with
    | .nat _ => true
    | .vec v => Vec.wf v

/-- Every sample of a response is in canonical form. -/
def Response.canonical (r : Response) : Bool :=
  match r.payload with
  | .none => true
  | .nat _ => true
  | .vec v => Vec.wf v

/-- Every response in a log carries samples in canonical form. -/
def canonicalLog (log : List (Option Response)) : Bool :=
  log.all fun r =>
    match r with
    | none => true
    | some r => r.canonical

/-- Every sample that the block can show is in canonical form: the stores of a configured unit, the pending operands and
the responses. -/
abbrev State.Canonical (s : State) : Prop :=
  (s.afb.cfg = .configured → Bank.wf s.afb.h = true ∧ Bank.wf s.afb.d = true) ∧
  (s.fmx.cfg = .configured → Bank.wf s.fmx.pre = true) ∧
  (∀ e ∈ s.inbox, HostEvent.canonical e = true) ∧
  canonicalLog s.afbLog = true ∧ canonicalLog s.fmxLog = true

/-- Two AFB states that no command can tell apart: while unconfigured only `cfg` and `fault` count (R35 to R38). -/
abbrev Afb.Agree (a b : Afb) : Prop :=
  a.cfg = b.cfg ∧ a.fault = b.fault ∧ (a.cfg = .configured → a = b)

/-- Two FMX states that no command can tell apart (R44 to R46). -/
abbrev Fmx.Agree (x y : Fmx) : Prop :=
  x.cfg = y.cfg ∧ x.fault = y.fault ∧ (x.cfg = .configured → x = y)

/-- `U.cfg`. -/
def State.cfgOf (u : UnitId) (s : State) : CfgFlag :=
  match u with
  | .afb => s.afb.cfg
  | .fmx => s.fmx.cfg

/-- Nothing of FMX, and nothing but AFB and what the host got from it, is different (R32). `draws` counts free values
and is no state of the block. -/
abbrev OnlyAfbChanged (s t : State) : Prop :=
  t.fmx = s.fmx ∧ t.fmxLog = s.fmxLog ∧ t.syn = s.syn ∧ t.inbox = s.inbox

/-- Nothing of AFB, and nothing but FMX and what the host got from it, is different (R32). -/
abbrev OnlyFmxChanged (s t : State) : Prop :=
  t.afb = s.afb ∧ t.afbLog = s.afbLog ∧ t.syn = s.syn ∧ t.inbox = s.inbox

/-- AFB is configured and not faulted, in a state that meets the AFB invariant (R39). -/
abbrev State.AfbReady (s : State) : Prop := s.afb.cfg = .configured ∧ s.afb.fault = .none ∧ s.afb.Inv s.syn

/-- FMX is configured and not faulted, in a state that meets the FMX invariant (R47). -/
abbrev State.FmxReady (s : State) : Prop := s.fmx.cfg = .configured ∧ s.fmx.fault = .none ∧ s.fmx.Inv s.syn

/-- AFB_PROCESS of `u` completes in `t` with the output vector `X` (R114). -/
def AfbAnswers (s : State) (u X : Vec) (t : State) : Prop :=
  exec (.afbProcess u) s = .next t ∧ t.afbLog = s.afbLog ++ [some ⟨.ok, .vec X⟩]

/-- The state with another delay store. -/
def State.withDelays (d : Bank) (s : State) : State := { s with afb := { s.afb with d := d } }

/-- `sigma` (R113). -/
noncomputable def sigmaValue (scale : FftScale) (L : Nat) : ℝ :=
  match scale with
  | .one => 1
  | .invL => 1 / L
  | .invSqrtL => 1 / Real.sqrt L

/-- `omega = exp(FFT_SIGN · j · 2π / L)` (R113). -/
noncomputable def omegaValue (sign : FftSign) (L : Nat) : ℂ :=
  Complex.exp ((FftSign.sign sign : ℂ) * Complex.I * (2 * Real.pi) / L)

/-- The operand shapes of R84, by opcode. -/
abbrev OperandShape (opc : Nat) (ops : List Operand) : Prop :=
  (opc = 1 ∧ ∃ L taps, ops = [.nat L, .vec taps]) ∨
  (opc = 2 ∧ ∃ u, ops = [.vec u]) ∨
  (opc = 3 ∧ ops = []) ∨
  (opc = 4 ∧ ops = []) ∨
  (opc = 5 ∧ ∃ L FL pre, ops = [.nat L, .nat FL, .vec pre]) ∨
  (opc = 6 ∧ ∃ v, ops = [.vec v])

/-- Performs instructions one after another, up to the first that is refused. -/
def execAll : List Instr → State → Result
  | [], s => .next s
  | i :: is, s =>
    match exec i s with
    | .next t => execAll is t
    | .fault r => .fault r
    | .refused r => .refused r

/-- The successful end of a run (R202): nothing pending, a response to every command, no unit faulted. -/
abbrev State.EndedSuccessfully (s : State) : Prop :=
  s.inbox = [] ∧ s.afb.fault = .none ∧ s.fmx.fault = .none ∧ (∀ r ∈ s.afbLog, r ≠ none) ∧ (∀ r ∈ s.fmxLog, r ≠ none)

/-- The state of a run right after its reset (R202), with the host about to send these commands. -/
def State.runOf (p : Synth) (cs : List Command) : State :=
  { State.resetOf p with inbox := cs.map HostEvent.command }

/-- A run of these commands ends successfully (R202), the two logs together holding one response for each command. -/
def RunSucceeds (p : Synth) (cs : List Command) : Prop :=
  ∃ t, Host.Core.run Sys2Proof.core cs.length (State.runOf p cs) = .next t ∧ t.EndedSuccessfully ∧
    t.afbLog.length + t.fmxLog.length = cs.length

end Machine

end Sys2Proof
end

