-- ==== Sys2Proof/Certificates/Slice0/Obligations.lean ====
section
/-! DEFINITION. The statements for the provers, from the numbered rules of spec/. -/

open Sys2Proof Sys2Proof.Machine

/-! ## Encoding -/

/-- The opcode map, word by word (R82, R84). -/
def Obligations.HeaderWordsSpellTheCommands : Prop :=
  ∀ (L FL : Nat) (v : Vec),
    decode ⟨0x00000001#32, [.nat L, .vec v]⟩ = .ok (.afbConfig L v) ∧
    decode ⟨0x00000002#32, [.vec v]⟩ = .ok (.afbProcess v) ∧
    decode ⟨0x00000003#32, []⟩ = .ok .afbGetL ∧
    decode ⟨0x00000004#32, []⟩ = .ok .afbGetOverlap ∧
    decode ⟨0x00000005#32, [.nat L, .nat FL, .vec v]⟩ = .ok (.fmxConfig L FL v) ∧
    decode ⟨0x00000006#32, [.vec v]⟩ = .ok (.fmxProcess v)

/-- Each instruction has one spelling, and that spelling decodes to it (R82, R84). -/
def Obligations.DecodeExactlyInvertsEncode : Prop :=
  ∀ (c : Command) (i : Instr), decode c = .ok i ↔ c = encode i

/-- The block refuses a command exactly when OPC is 0x0 or 0x7 to 0xF, RSV is not 0, or the operand list does not have
the shape of R84; a refusal carries no state (R89, R170). -/
def Obligations.ReservedEncodingsAreRefused : Prop :=
  ∀ (s : State) (c : Command) (rest : List HostEvent), s.inbox = .command c :: rest →
    (step s = .refused .reservedEncoding ↔
      c.header.toNat % 16 = 0 ∨ 7 ≤ c.header.toNat % 16 ∨ c.header.toNat / 16 ≠ 0 ∨
      ¬ OperandShape (c.header.toNat % 16) c.operands)

/-- A natural number travels in `W_NAT` bits and is zero-extended, as an operand and as a result (R85, R15). -/
def Obligations.SerialNaturalsAreZeroExtended : Prop :=
  ∀ (fmt : SampleFmt) (w n : Nat),
    (∀ b : BitVec w, operandOfItem fmt w (.nat b) = some (.nat b.toNat)) ∧
    (n < 2 ^ w → ∃ b, itemOfOperand fmt w (.nat n) = some (.nat b) ∧ b.toNat = n) ∧
    (2 ^ w ≤ n → itemOfOperand fmt w (.nat n) = none) ∧
    (n < 2 ^ w → ∃ b, itemsOfPayload fmt w (.nat n) = some [.nat b] ∧ b.toNat = n) ∧
    (2 ^ w ≤ n → itemsOfPayload fmt w (.nat n) = none)

/-- On the transport a vector is element 0 first, and in each element the real part before the imaginary part: as it is
sent, as it is read, as an operand and as a result (R65). -/
def Obligations.SerialVectorsGoElementByElement : Prop :=
  ∀ (fmt : SampleFmt) (w : Nat) (v : Vec),
    (∀ ps : List (BitVec fmt.width), partsOfSamples fmt v = some ps →
      ps.length = 2 * v.length ∧
      ∀ i < v.length, ∃ a b : Part, elem v i = Cplx.ofParts a b ∧ fmt.code a = ps[2 * i]? ∧ fmt.code b = ps[2 * i + 1]?) ∧
    (∀ ps : List (BitVec fmt.width), samplesOfParts fmt ps = some v →
      ps.length = 2 * v.length ∧
      ∀ i < v.length, ∃ a b, ps[2 * i]? = some a ∧ ps[2 * i + 1]? = some b ∧
        elem v i = Cplx.ofParts (fmt.value a) (fmt.value b)) ∧
    (∀ item, itemOfOperand fmt w (.vec v) = some item ↔ ∃ ps, partsOfSamples fmt v = some ps ∧ item = .parts ps) ∧
    (∀ items, itemsOfPayload fmt w (.vec v) = some items ↔ ∃ ps, partsOfSamples fmt v = some ps ∧ items = [.parts ps]) ∧
    itemsOfPayload fmt w .none = some []

/-- What the transport carries is what was sent, for every sample format whose codes stand for the numbers they are
given for (R65, R85, R86; that a length travels with its sequence is log 14). -/
def Obligations.SerialTransportRoundTrip : Prop :=
  ∀ (fmt : SampleFmt) (w : Nat) (i : Instr) (c : SerialCommand w fmt.width),
    (∀ a b, fmt.code a = some b → fmt.value b = a) →
    encodeSerial fmt w i = some c → decodeSerial fmt w c = .ok i

/-- Lines of the assembler, every mnemonic and every form of literal among them (R91 to R94; spacing is log 15). -/
def Obligations.AssemblerLinesStandForTheirCommands : Prop :=
  assemble "afb.config 2, [1, 2j]" = some [.command (encode (.afbConfig 2 [Cplx.cart 1 0, Cplx.cart 0 2]))] ∧
  assemble "fmx.config 2, 0x10, [(1,0), (0,1)] ; preamble"
    = some [.command (encode (.fmxConfig 2 16 [Cplx.cart 1 0, Cplx.cart 0 1]))] ∧
  assemble "fmx.process [1+2j, 3-4j] -> OK"
    = some [.command (encode (.fmxProcess [Cplx.cart 1 2, Cplx.cart 3 (-4)]))] ∧
  assemble ".reset\nafb.flush 1, 2"
    = some [.reset, .command (encode (.afbProcess (zeroVec 1))), .command (encode (.afbProcess (zeroVec 1)))] ∧
  assemble "afb.get_l\nafb.get_overlap" = some [.command (encode .afbGetL), .command (encode .afbGetOverlap)] ∧
  assemble "afb.process [-1, 2.5j, 3-0.5j, (-4,1)]"
    = some [.command (encode (.afbProcess [Cplx.cart (-1) 0, Cplx.cart 0 (5 / 2), Cplx.cart 3 (-1 / 2), Cplx.cart (-4) 1]))] ∧
  assemble "fmx.config 1, 1, []" = some [.command (encode (.fmxConfig 1 1 []))]

/-! ## Steps and reset -/

/-- A step takes the host's next action off the inbox; if it is a command that decodes, the step is that instruction's
meaning on the rest (R66, R70). -/
def Obligations.StepRunsTheDecodedCommand : Prop :=
  ∀ (s : State) (c : Command) (i : Instr) (rest : List HostEvent),
    s.inbox = .command c :: rest → decode c = .ok i → step s = exec i { s with inbox := rest }

/-- Between commands the block holds all its state (R180, R62). -/
def Obligations.StepWithoutActionHoldsTheState : Prop :=
  ∀ s : State, s.inbox = [] → step s = .next s

/-- Reset (R190): both units unconfigured and without a fault, whatever went before; to any command the block is as the
one after power-on (R191). That the logs begin anew is the model's choice (log 7). -/
def Obligations.ResetUnconfiguresBothUnits : Prop :=
  ∀ (s : State) (rest : List HostEvent), s.inbox = .reset :: rest →
    ∃ t, step s = .next t ∧
      t.afb.cfg = .unconfigured ∧ t.afb.fault = .none ∧ t.fmx.cfg = .unconfigured ∧ t.fmx.fault = .none ∧
      t.afb.Agree (State.resetOf s.syn).afb ∧ t.fmx.Agree (State.resetOf s.syn).fmx ∧
      t.afbLog = [] ∧ t.fmxLog = [] ∧ t.syn = s.syn ∧ t.inbox = rest

/-- The state after power-on, for every built block (R33, R34, R42, R43, R191). -/
def Obligations.PowerOnIsUnconfiguredAndUnfaulted : Prop :=
  ∀ p : Synth,
    (State.resetOf p).afb.cfg = .unconfigured ∧ (State.resetOf p).afb.fault = .none ∧
    (State.resetOf p).fmx.cfg = .unconfigured ∧ (State.resetOf p).fmx.fault = .none

/-! ## AFB_CONFIG -/

/-- AFB_CONFIG on an unfaulted unit, line by line (R102, R103, R104): the word it is sent as; beyond the capacities it is
refused, valid or not; where the configuration check fails it reports status 1 and leaves the unit unconfigured; otherwise
it initialises the unit completely. Nothing else of the block changes. -/
def Obligations.AfbConfigFollowsItsRule : Prop :=
  ∀ (s : State) (L : Nat) (taps : Vec), s.afb.fault = .none →
    encode (.afbConfig L taps) = ⟨0x00000001#32, [.nat L, .vec taps]⟩ ∧
    (¬ (L ≤ s.syn.maxL ∧ (L = 0 ∨ taps.length ≤ L * s.syn.maxK)) →
      exec (.afbConfig L taps) s = .refused .capacity) ∧
    (L ≤ s.syn.maxL ∧ (L = 0 ∨ taps.length ≤ L * s.syn.maxK) →
      ¬ (1 ≤ L ∧ taps.length % L = 0 ∧ 1 ≤ taps.length / L) →
      ∃ t, exec (.afbConfig L taps) s = .next t ∧ t.afb.cfg = .unconfigured ∧ t.afb.fault = .none ∧
        t.afbLog = s.afbLog ++ [some ⟨.tapLengthMismatch, .none⟩] ∧ OnlyAfbChanged s t) ∧
    (L ≤ s.syn.maxL ∧ (L = 0 ∨ taps.length ≤ L * s.syn.maxK) →
      1 ≤ L ∧ taps.length % L = 0 ∧ 1 ≤ taps.length / L →
      ∃ t, exec (.afbConfig L taps) s = .next t ∧
        t.afb.cfg = .configured ∧ t.afb.fault = .none ∧ t.afb.L = L ∧ t.afb.K = taps.length / L ∧ t.afb.r = 0 ∧
        HasShape t.afb.h L (taps.length / L) ∧ HasShape t.afb.d L (taps.length / L) ∧
        (∀ b < L, ∀ k < taps.length / L,
          taps[b + k * L]? = some (cell t.afb.h b k) ∧ cell t.afb.d b k = Cplx.zero) ∧
        t.afbLog = s.afbLog ++ [some ⟨.ok, .none⟩] ∧ OnlyAfbChanged s t ∧ t.draws = s.draws)

/-- A successful configuration performed twice leaves the state of the units as once (R69). -/
def Obligations.ConfigTwiceIsConfigOnce : Prop :=
  (∀ (s : State) (L : Nat) (taps : Vec), s.afb.fault = .none →
    afbFits s.syn L taps.length = true → afbOk L taps.length = true →
    ∃ t t', exec (.afbConfig L taps) s = .next t ∧ exec (.afbConfig L taps) t = .next t' ∧
      t'.afb = t.afb ∧ t'.fmx = t.fmx) ∧
  (∀ (s : State) (L FL : Nat) (pre : Vec), s.fmx.fault = .none →
    fmxFits s.syn L FL pre.length = true → fmxOk L FL pre.length = true →
    ∃ t t', exec (.fmxConfig L FL pre) s = .next t ∧ exec (.fmxConfig L FL pre) t = .next t' ∧
      t'.fmx = t.fmx ∧ t'.afb = t.afb)

/-! ## AFB_PROCESS -/

/-- The commutator's mapping (R40): for every index it is a bijection of `[0, L)` with the stated inverse, the identity
for index 0, and it has period `L` (R111). -/
def Obligations.CommutatorMappingIsABijection : Prop :=
  ∀ (dir : CommDir) (L r : Nat), 1 ≤ L →
    (∀ i < L, beta dir L r i < L ∧ (beta dir L r i : Int) = ((i : Int) + CommDir.sign dir * r) % L ∧
      betaInv dir L r (beta dir L r i) = i ∧ beta dir L 0 i = i ∧ beta dir L (r + L) i = beta dir L r i) ∧
    (∀ b < L, betaInv dir L r b < L ∧ (betaInv dir L r b : Int) = ((b : Int) - CommDir.sign dir * r) % L ∧
      beta dir L r (betaInv dir L r b) = b)

/-- AFB_PROCESS of a vector of length `AFB.L` completes: the commutator routes each slot to its branch, and every branch
takes exactly one new sample (R108); each delay line is shifted by one (R109); the index advances (R112); one vector of
length `L` is returned; nothing else changes. -/
def Obligations.AfbProcessShiftsDelaysAndAdvancesIndex : Prop :=
  ∀ (s : State) (u : Vec), s.AfbReady → u.length = s.afb.L →
    ∃ t X, exec (.afbProcess u) s = .next t ∧ X.length = s.afb.L ∧
      t.afbLog = s.afbLog ++ [some ⟨.ok, .vec X⟩] ∧
      HasShape t.afb.d s.afb.L s.afb.K ∧
      (∀ i < s.afb.L, ∃ b < s.afb.L, (b : Int) = ((i : Int) + CommDir.sign s.syn.commDir * s.afb.r) % s.afb.L ∧
        cell t.afb.d b 0 = elem u i) ∧
      (∀ b < s.afb.L, ∃! i, i < s.afb.L ∧ (b : Int) = ((i : Int) + CommDir.sign s.syn.commDir * s.afb.r) % s.afb.L) ∧
      (∀ b < s.afb.L, ∀ k, 1 ≤ k → k < s.afb.K → cell t.afb.d b k = cell s.afb.d b (k - 1)) ∧
      t.afb.r = (s.afb.r + 1) % s.afb.L ∧
      t.afb.cfg = s.afb.cfg ∧ t.afb.fault = s.afb.fault ∧ t.afb.L = s.afb.L ∧ t.afb.K = s.afb.K ∧ t.afb.h = s.afb.h ∧
      OnlyAfbChanged s t ∧ t.draws = s.draws

/-- The vector that AFB_PROCESS returns is, as complex numbers, the `L`-point DFT of the branch outputs placed through
the commutator (R110, R111, R113), for every assignment of numbers to the symbols: with `d'` the delay store after the command,
`X[f] = sigma · Σ_s (Σ_k h[beta_r(s)][k]·d'[beta_r(s)][k]) · omega^(f·s)`, for every `L ≥ 1`, every direction, sign and
scale. -/
def Obligations.AfbProcessReturnsTheExactDft : Prop :=
  ∀ (s : State) (u : Vec), s.AfbReady → u.length = s.afb.L →
    ∃ t X, AfbAnswers s u X t ∧ X.length = s.afb.L ∧
      ∀ (ρ : Valuation), ∀ f < s.afb.L, (elem X f).toComplex ρ =
        (sigmaValue s.syn.fftScale s.afb.L : ℂ) *
          ∑ i ∈ Finset.range s.afb.L,
            (∑ k ∈ Finset.range s.afb.K,
              (cell s.afb.h (beta s.syn.commDir s.afb.L s.afb.r i) k).toComplex ρ *
              (cell t.afb.d (beta s.syn.commDir s.afb.L s.afb.r i) k).toComplex ρ) *
            omegaValue s.syn.fftSign s.afb.L ^ (f * i)

/-- The preconditions of AFB_PROCESS in their order; a fault writes only `AFB.fault` and returns nothing (R107). -/
def Obligations.AfbProcessFaultsOnItsPreconditions : Prop :=
  ∀ (s : State) (u : Vec), s.afb.fault = .none →
    (s.afb.cfg = .unconfigured →
      ∃ t, exec (.afbProcess u) s = .next t ∧ t.afb = { s.afb with fault := .notConfigured } ∧
        t.afbLog = s.afbLog ++ [none] ∧ OnlyAfbChanged s t) ∧
    (s.afb.cfg = .configured → u.length ≠ s.afb.L →
      ∃ t, exec (.afbProcess u) s = .next t ∧ t.afb = { s.afb with fault := .vectorLength } ∧
        t.afbLog = s.afbLog ++ [none] ∧ OnlyAfbChanged s t)

/-- Flush (R130). From any configured state, after `n ≥ K` all-zero vectors every element of the delay store is 0, each of
them returned a vector of length `L`, and the `K`-th and every later one returned `0_L`; from the state right after AFB_CONFIG every all-zero command returns
`0_L`. -/
def Obligations.AfbFlushEmptiesTheDelayLines : Prop :=
  (∀ (s : State) (n : Nat), s.AfbReady → s.afb.K ≤ n →
    ∃ t outs, execAll (afbFlush s.afb.L n) s = .next t ∧
      HasShape t.afb.d s.afb.L s.afb.K ∧
      (∀ b < s.afb.L, ∀ k < s.afb.K, cell t.afb.d b k = Cplx.zero) ∧
      t.afbLog = s.afbLog ++ outs ∧ outs.length = n ∧
      ∀ i < n, ∃ X : Vec, outs[i]? = some (some ⟨.ok, .vec X⟩) ∧ X.length = s.afb.L ∧
        (s.afb.K ≤ i + 1 → X = zeroVec s.afb.L)) ∧
  (∀ (s : State) (L n : Nat) (taps : Vec), s.afb.fault = .none →
    afbFits s.syn L taps.length = true → afbOk L taps.length = true →
    ∃ t, execAll (.afbConfig L taps :: afbFlush L n) s = .next t ∧
      t.afbLog = s.afbLog ++ some ⟨.ok, .none⟩ :: List.replicate n (some ⟨.ok, .vec (zeroVec L)⟩))

/-- Linearity (R131). At a fixed commutator index AFB_PROCESS is linear in the pair (delay store, input), and the new
delay stores add the same way. For one fixed state the map from input to output is affine; it is linear exactly when the
output of `0_L` is `0_L`, which is so when the delay store is all zero. The last two also hold number by number, for
every assignment of numbers to the symbols. -/
def Obligations.AfbIsLinear : Prop :=
  (∀ (s : State) (d1 d2 : Bank) (a b : Vec), s.AfbReady →
    HasShape d1 s.afb.L s.afb.K → HasShape d2 s.afb.L s.afb.K → a.length = s.afb.L → b.length = s.afb.L →
    ∃ t1 t2 t12 X1 X2, AfbAnswers (s.withDelays d1) a X1 t1 ∧ AfbAnswers (s.withDelays d2) b X2 t2 ∧
      AfbAnswers (s.withDelays (Bank.add d1 d2)) (Vec.add a b) (Vec.add X1 X2) t12 ∧
      t12.afb.d = Bank.add t1.afb.d t2.afb.d) ∧
  (∀ (s : State) (a b : Vec), s.AfbReady → a.length = s.afb.L → b.length = s.afb.L →
    ∃ ta tb tab tz A B AB Z, AfbAnswers s a A ta ∧ AfbAnswers s b B tb ∧ AfbAnswers s (Vec.add a b) AB tab ∧
      AfbAnswers s (zeroVec s.afb.L) Z tz ∧
      Vec.add A B = Vec.add AB Z ∧ (Vec.add A B = AB ↔ Z = zeroVec s.afb.L) ∧
      ((∀ i < s.afb.L, ∀ k < s.afb.K, cell s.afb.d i k = Cplx.zero) → Z = zeroVec s.afb.L) ∧
      ∀ ρ : Valuation,
        ((∀ f < s.afb.L, (elem A f).toComplex ρ + (elem B f).toComplex ρ = (elem AB f).toComplex ρ) ↔
          ∀ f < s.afb.L, (elem Z f).toComplex ρ = 0) ∧
        ((∀ i < s.afb.L, ∀ k < s.afb.K, (cell s.afb.d i k).toComplex ρ = 0) →
          ∀ f < s.afb.L, (elem Z f).toComplex ρ = 0))

/-- Feeding `M` vectors yields exactly `M` vectors, and the commutator index has advanced by `M` modulo `L` (R118,
R37). -/
def Obligations.AfbReturnsOneVectorPerVector : Prop :=
  ∀ (s : State) (us : List Vec), s.AfbReady → (∀ u ∈ us, u.length = s.afb.L) →
    ∃ t, ∃ Xs : List Vec, execAll (us.map Instr.afbProcess) s = .next t ∧
      Xs.length = us.length ∧ (∀ X ∈ Xs, X.length = s.afb.L) ∧
      t.afbLog = s.afbLog ++ Xs.map (fun X => some ⟨.ok, .vec X⟩) ∧
      t.afb.r = (s.afb.r + us.length) % s.afb.L

/-- With one branch the unit is the plain FIR filter of the serial stream: the `m`-th output is
`Σ_k taps[k]·u_{m-k}`, samples before the first being 0 (R116 (b) and (d)). -/
def Obligations.AfbWithOneBranchIsThePlainFir : Prop :=
  ∀ (s : State) (taps : Vec) (us : List Cplx), s.afb.fault = .none →
    afbFits s.syn 1 taps.length = true → afbOk 1 taps.length = true →
    ∃ t, ∃ Xs : List Cplx, execAll (.afbConfig 1 taps :: us.map fun u => .afbProcess [u]) s = .next t ∧
      Xs.length = us.length ∧
      t.afbLog = s.afbLog ++ some ⟨.ok, .none⟩ :: Xs.map (fun X => some ⟨.ok, .vec [X]⟩) ∧
      ∀ (ρ : Valuation), ∀ m < us.length, (elem Xs m).toComplex ρ =
        ∑ k ∈ Finset.range (min taps.length (m + 1)), (elem taps k).toComplex ρ * (elem us (m - k)).toComplex ρ

/-! ## Accessors -/

/-- The accessors (R120, R122): the words they are sent as; on a configured unit they return `L` and `K` and write no state;
on an unconfigured one they raise NOT_CONFIGURED. -/
def Obligations.AccessorsReturnLAndK : Prop :=
  encode .afbGetL = ⟨0x00000003#32, []⟩ ∧ encode .afbGetOverlap = ⟨0x00000004#32, []⟩ ∧
  ∀ s : State, s.afb.fault = .none →
    (s.afb.cfg = .configured →
      exec .afbGetL s = .next { s with afbLog := s.afbLog ++ [some ⟨.ok, .nat s.afb.L⟩] } ∧
      exec .afbGetOverlap s = .next { s with afbLog := s.afbLog ++ [some ⟨.ok, .nat s.afb.K⟩] }) ∧
    (s.afb.cfg = .unconfigured → ∀ i ∈ [Instr.afbGetL, Instr.afbGetOverlap],
      exec i s = .next { s with afb := { s.afb with fault := .notConfigured }, afbLog := s.afbLog ++ [none] })

/-! ## FMX -/

/-- FMX_CONFIG on an unfaulted unit, line by line (R140, R141, R142): the word it is sent as; beyond the capacities it is
refused, valid or not; where the configuration check fails it reports status 2 and leaves the unit unconfigured; otherwise
it initialises the unit completely. Nothing else of the block changes. -/
def Obligations.FmxConfigFollowsItsRule : Prop :=
  ∀ (s : State) (L FL : Nat) (pre : Vec), s.fmx.fault = .none →
    encode (.fmxConfig L FL pre) = ⟨0x00000005#32, [.nat L, .nat FL, .vec pre]⟩ ∧
    (¬ (L ≤ s.syn.maxL ∧ FL ≤ s.syn.maxFrame ∧ (L = 0 ∨ pre.length ≤ L * s.syn.maxP)) →
      exec (.fmxConfig L FL pre) s = .refused .capacity) ∧
    (L ≤ s.syn.maxL ∧ FL ≤ s.syn.maxFrame ∧ (L = 0 ∨ pre.length ≤ L * s.syn.maxP) →
      ¬ (1 ≤ L ∧ pre.length % L = 0 ∧ 1 ≤ FL ∧ pre.length / L ≤ FL) →
      ∃ t, exec (.fmxConfig L FL pre) s = .next t ∧ t.fmx.cfg = .unconfigured ∧ t.fmx.fault = .none ∧
        t.fmxLog = s.fmxLog ++ [some ⟨.preambleLengthMismatch, .none⟩] ∧ OnlyFmxChanged s t) ∧
    (L ≤ s.syn.maxL ∧ FL ≤ s.syn.maxFrame ∧ (L = 0 ∨ pre.length ≤ L * s.syn.maxP) →
      1 ≤ L ∧ pre.length % L = 0 ∧ 1 ≤ FL ∧ pre.length / L ≤ FL →
      ∃ t, exec (.fmxConfig L FL pre) s = .next t ∧
        t.fmx.cfg = .configured ∧ t.fmx.fault = .none ∧ t.fmx.L = L ∧ t.fmx.FL = FL ∧ t.fmx.P = pre.length / L ∧
        t.fmx.c = 0 ∧ HasShape t.fmx.pre (pre.length / L) L ∧
        (∀ p < pre.length / L, ∀ i < L, pre[p * L + i]? = some (cell t.fmx.pre p i)) ∧
        t.fmxLog = s.fmxLog ++ [some ⟨.ok, .none⟩] ∧ OnlyFmxChanged s t ∧ t.draws = s.draws)

/-- FMX_PROCESS of a vector of length `FMX.L` completes: it returns the preamble vector at the counter's index or the
input unchanged, advances the counter, and changes nothing else (R147, R148). -/
def Obligations.FmxProcessSelectsPreambleOrInput : Prop :=
  ∀ (s : State) (v : Vec), s.FmxReady → v.length = s.fmx.L →
    ∃ t w, exec (.fmxProcess v) s = .next t ∧ t.fmxLog = s.fmxLog ++ [some ⟨.ok, .vec w⟩] ∧
      w.length = s.fmx.L ∧
      (s.fmx.c < s.fmx.P → s.fmx.pre[s.fmx.c]? = some w) ∧ (s.fmx.P ≤ s.fmx.c → w = v) ∧
      t.fmx = { s.fmx with c := (s.fmx.c + 1) % s.fmx.FL } ∧
      OnlyFmxChanged s t ∧ t.draws = s.draws

/-- The preconditions of FMX_PROCESS in their order; a fault writes only `FMX.fault` and returns nothing (R146). -/
def Obligations.FmxProcessFaultsOnItsPreconditions : Prop :=
  ∀ (s : State) (v : Vec), s.fmx.fault = .none →
    (s.fmx.cfg = .unconfigured →
      ∃ t, exec (.fmxProcess v) s = .next t ∧ t.fmx = { s.fmx with fault := .notConfigured } ∧
        t.fmxLog = s.fmxLog ++ [none] ∧ OnlyFmxChanged s t) ∧
    (s.fmx.cfg = .configured → v.length ≠ s.fmx.L →
      ∃ t, exec (.fmxProcess v) s = .next t ∧ t.fmx = { s.fmx with fault := .vectorLength } ∧
        t.fmxLog = s.fmxLog ++ [none] ∧ OnlyFmxChanged s t)

/-- Frame periodicity (R150): after a successful FMX_CONFIG the output of the `k`-th FMX_PROCESS is the preamble vector
at `k mod FL` when `k mod FL < P`, and its input otherwise; after `n` of them the counter is `n mod FL`. -/
def Obligations.FmxFramesArePeriodic : Prop :=
  ∀ (s : State) (L FL : Nat) (pre : Vec) (vs : List Vec), s.fmx.fault = .none →
    fmxFits s.syn L FL pre.length = true → fmxOk L FL pre.length = true → (∀ v ∈ vs, v.length = L) →
    ∃ t, ∃ ws : List Vec, execAll (.fmxConfig L FL pre :: vs.map Instr.fmxProcess) s = .next t ∧
      t.fmxLog = s.fmxLog ++ some ⟨.ok, .none⟩ :: ws.map (fun w => some ⟨.ok, .vec w⟩) ∧
      ws.length = vs.length ∧ t.fmx.c = vs.length % FL ∧
      ∀ k < vs.length,
        (k % FL < pre.length / L → ws[k]? = some ((pre.drop (k % FL * L)).take L)) ∧
        (pre.length / L ≤ k % FL → ws[k]? = vs[k]?)

/-- Every code of a format whose codes are told apart, a special one (R149 (g)) included, passes FMX bit-exactly: the
codes of a payload vector come back as they were sent, and so do those of the preamble. That a special code is read as a
symbol is the model's choice (log 20). -/
def Obligations.FmxPassesEveryCodeBitExactly : Prop :=
  ∀ (fmt : SampleFmt) (w : Nat), (∀ b, fmt.code (fmt.value b) = some b) →
    (∀ (s : State) (ps : List (BitVec fmt.width)) (v : Vec), s.FmxReady → s.fmx.P ≤ s.fmx.c →
      samplesOfParts fmt ps = some v → v.length = s.fmx.L →
      ∃ t r, exec (.fmxProcess v) s = .next t ∧ t.fmxLog = s.fmxLog ++ [some r] ∧
        itemsOfPayload fmt w r.payload = some [.parts ps]) ∧
    (∀ (s : State) (L FL : Nat) (ps : List (BitVec fmt.width)) (pre v : Vec), s.fmx.fault = .none →
      fmxFits s.syn L FL pre.length = true → fmxOk L FL pre.length = true →
      samplesOfParts fmt ps = some pre → 1 ≤ pre.length / L → v.length = L →
      ∃ t r r', execAll [.fmxConfig L FL pre, .fmxProcess v] s = .next t ∧ t.fmxLog = s.fmxLog ++ [some r, some r'] ∧
        itemsOfPayload fmt w r'.payload = some [.parts (ps.take (2 * L))])

/-! ## Outcomes, faults, order of the checks -/

/-- Every command has one outcome: a next state in which the host got at most one response for it, or the refusal
CAPACITY of a CONFIG to an unfaulted unit (R80, R160, R169). That a command to a faulted unit is taken in a next state
is the model's reading of "stuck" in 93_implementation_defined.md U8 (log 8); the log is the model's own (log 7). -/
def Obligations.EveryCommandHasOneOutcome : Prop :=
  ∀ (i : Instr) (s : State),
    (∃ t r, exec i s = .next t ∧ t.logOf i.unit = s.logOf i.unit ++ [r]) ∨
    (exec i s = .refused .capacity ∧ s.faultOf i.unit = .none ∧
      ((∃ L taps, i = .afbConfig L taps ∧ afbFits s.syn L taps.length = false) ∨
        ∃ L FL pre, i = .fmxConfig L FL pre ∧ fmxFits s.syn L FL pre.length = false))

/-- Responses (R88): the status codes; a command that completes without a fault returns one response, with the status and
the payload of its rule; a command that raises a fault returns none. -/
def Obligations.ResponsesHaveTheStatusesOfTheirCommands : Prop :=
  (Status.code .ok = 0 ∧ Status.code .tapLengthMismatch = 1 ∧ Status.code .preambleLengthMismatch = 2) ∧
  ∀ (i : Instr) (s t : State), s.Inv → s.faultOf i.unit = .none → exec i s = .next t →
    (t.faultOf i.unit ≠ .none → t.logOf i.unit = s.logOf i.unit ++ [none]) ∧
    (t.faultOf i.unit = .none → ∃ r : Response, t.logOf i.unit = s.logOf i.unit ++ [some r] ∧
      match i with
      | .afbConfig _ _ => (r.status = .ok ∨ r.status = .tapLengthMismatch) ∧ r.payload = .none
      | .afbProcess _ => r.status = .ok ∧ ∃ X : Vec, r.payload = .vec X ∧ X.length = s.afb.L
      | .afbGetL => r = ⟨.ok, .nat s.afb.L⟩
      | .afbGetOverlap => r = ⟨.ok, .nat s.afb.K⟩
      | .fmxConfig _ _ _ => (r.status = .ok ∨ r.status = .preambleLengthMismatch) ∧ r.payload = .none
      | .fmxProcess _ => r.status = .ok ∧ ∃ w : Vec, r.payload = .vec w ∧ w.length = s.fmx.L)

/-- A fault is precise (R166, R165): only the addressed unit's `fault` field changes, and there is no response. -/
def Obligations.FaultsArePrecise : Prop :=
  ∀ (i : Instr) (s t : State) (u : UnitId), exec i s = .next t → s.faultOf u = .none → t.faultOf u ≠ .none →
    i.unit = u ∧ t = (s.setFault u (t.faultOf u)).report u none

/-- The fault kinds (R163): their codes, and their causes, which are exactly these commands in exactly these states. -/
def Obligations.FaultsHaveExactlyTheirCauses : Prop :=
  (FaultKind.code .none = 0 ∧ FaultKind.code .notConfigured = 1 ∧ FaultKind.code .vectorLength = 2) ∧
  ∀ (i : Instr) (s t : State), exec i s = .next t → s.faultOf i.unit = .none →
    (t.faultOf i.unit = .notConfigured ↔
      s.cfgOf i.unit = .unconfigured ∧ (∀ L taps, i ≠ .afbConfig L taps) ∧ ∀ L FL pre, i ≠ .fmxConfig L FL pre) ∧
    (t.faultOf i.unit = .vectorLength ↔
      s.cfgOf i.unit = .configured ∧
        ((∃ u, i = .afbProcess u ∧ u.length ≠ s.afb.L) ∨ ∃ v, i = .fmxProcess v ∧ v.length ≠ s.fmx.L))

/-- A faulted unit performs no command, whatever it is: nothing is written, no response comes (R165, R168). That the block
takes the command in a next state, with a log entry that says so, is the model's reading of "stuck" in
93_implementation_defined.md U8 (log 8). -/
def Obligations.FaultedUnitPerformsNothing : Prop :=
  ∀ (i : Instr) (s : State), s.faultOf i.unit ≠ .none →
    ∃ t, exec i s = .next t ∧ t.afb = s.afb ∧ t.fmx = s.fmx ∧ t.logOf i.unit = s.logOf i.unit ++ [none] ∧
      t.syn = s.syn ∧ t.inbox = s.inbox

/-- A fault stays, with its kind, until reset, and the host gets no response from that unit (R34, R43, R168); the runs
go on past the commands to it by log 8. -/
def Obligations.FaultStaysUntilReset : Prop :=
  ∀ (is : List Instr) (s t : State) (u : UnitId), s.faultOf u ≠ .none → execAll is s = .next t →
    t.faultOf u = s.faultOf u ∧ (∃ n, t.logOf u = s.logOf u ++ List.replicate n none) ∧
    (u = .afb → t.afb = s.afb) ∧ (u = .fmx → t.fmx = s.fmx)

/-- The order of the checks (R172): a reserved encoding is refused even to a faulted unit; a faulted unit does not
perform even a CONFIG beyond the capacities; a CONFIG beyond the capacities is refused even where it is invalid; a
PROCESS of an unconfigured unit raises NOT_CONFIGURED even where the length is wrong. That a CONFIG to a faulted unit is
taken in a next state is the model's reading of "stuck" in 93_implementation_defined.md U8 (log 8). -/
def Obligations.ChecksComeInTheirOrder : Prop :=
  (∀ (s : State) (c : Command) (e : DecodeError) (rest : List HostEvent),
    s.inbox = .command c :: rest → decode c = .error e → step s = .refused .reservedEncoding) ∧
  (∀ (s : State) (L : Nat) (taps : Vec), s.afb.fault ≠ .none →
    exec (.afbConfig L taps) s = .next { s with afbLog := s.afbLog ++ [none] }) ∧
  (∀ (s : State) (L FL : Nat) (pre : Vec), s.fmx.fault ≠ .none →
    exec (.fmxConfig L FL pre) s = .next { s with fmxLog := s.fmxLog ++ [none] }) ∧
  (∀ (s : State) (L : Nat) (taps : Vec), s.afb.fault = .none → afbFits s.syn L taps.length = false →
    exec (.afbConfig L taps) s = .refused .capacity) ∧
  (∀ (s : State) (L FL : Nat) (pre : Vec), s.fmx.fault = .none → fmxFits s.syn L FL pre.length = false →
    exec (.fmxConfig L FL pre) s = .refused .capacity) ∧
  (∀ (s : State) (u : Vec), s.afb.fault = .none → s.afb.cfg = .unconfigured → ∃ t,
    exec (.afbProcess u) s = .next t ∧ t.afb.fault = .notConfigured) ∧
  (∀ (s : State) (v : Vec), s.fmx.fault = .none → s.fmx.cfg = .unconfigured → ∃ t,
    exec (.fmxProcess v) s = .next t ∧ t.fmx.fault = .notConfigured)

/-! ## Independence -/

/-- No AFB command reads or writes an FMX field and none the other way round: the other unit and what the host got from
it are unchanged (R32, R173). -/
def Obligations.CommandsTouchOnlyTheirUnit : Prop :=
  ∀ (i : Instr) (s t : State), exec i s = .next t →
    (i.unit = .afb → OnlyAfbChanged s t) ∧ (i.unit = .fmx → OnlyFmxChanged s t)

/-- Every interleaving gives each unit the same states and responses as the commands to that unit alone (R71). -/
def Obligations.UnitsRunIndependently : Prop :=
  ∀ (is : List Instr) (s t : State), execAll is s = .next t →
    (∃ t', execAll (is.filter fun i => i.unit = .afb) s = .next t' ∧ t'.afb.Agree t.afb ∧ t'.afbLog = t.afbLog) ∧
    (∃ t', execAll (is.filter fun i => i.unit = .fmx) s = .next t' ∧ t'.fmx.Agree t.fmx ∧ t'.fmxLog = t.fmxLog)

/-- What is unspecified in an unconfigured unit (after reset or a failed CONFIG) is unobservable: two states that differ
only there answer every run of commands alike and stay so (R35 to R38, R44 to R46, R190). -/
def Obligations.UnspecifiedFieldsAreUnobservable : Prop :=
  ∀ (is : List Instr) (s s' t : State),
    s.syn = s'.syn → s.afb.Agree s'.afb → s.fmx.Agree s'.fmx → s.afbLog = s'.afbLog → s.fmxLog = s'.fmxLog →
    execAll is s = .next t →
    ∃ t', execAll is s' = .next t' ∧ t.afb.Agree t'.afb ∧ t.fmx.Agree t'.fmx ∧
      t.afbLog = t'.afbLog ∧ t.fmxLog = t'.fmxLog

/-- Two FMX units configured alike and fed the same inputs give the same outputs and the same final counter, whatever
state they were in before (R151). -/
def Obligations.FmxIsDeterministic : Prop :=
  ∀ (s s' : State) (L FL : Nat) (pre : Vec) (vs : List Vec), s.syn = s'.syn →
    s.fmx.fault = .none → s'.fmx.fault = .none →
    fmxFits s.syn L FL pre.length = true → fmxOk L FL pre.length = true → (∀ v ∈ vs, v.length = L) →
    ∃ t t' outs, execAll (.fmxConfig L FL pre :: vs.map Instr.fmxProcess) s = .next t ∧
      execAll (.fmxConfig L FL pre :: vs.map Instr.fmxProcess) s' = .next t' ∧
      t.fmxLog = s.fmxLog ++ outs ∧ t'.fmxLog = s'.fmxLog ++ outs ∧ t.fmx.c = t'.fmx.c

/-- Two AFB units with the same synthesis parameters, configured alike and given the same commands, answer alike and
end in the same state, whatever state they were in before (R132). A failed AFB_CONFIG among the commands leaves fields
unspecified, so "the same state" is said up to those. -/
def Obligations.AfbIsDeterministic : Prop :=
  ∀ (s s' t : State) (L : Nat) (taps : Vec) (is : List Instr), s.syn = s'.syn →
    s.afb.fault = .none → s'.afb.fault = .none →
    afbFits s.syn L taps.length = true → afbOk L taps.length = true → (∀ i ∈ is, i.unit = .afb) →
    execAll (.afbConfig L taps :: is) s = .next t →
    ∃ t' outs, execAll (.afbConfig L taps :: is) s' = .next t' ∧
      t.afbLog = s.afbLog ++ outs ∧ t'.afbLog = s'.afbLog ++ outs ∧ t.afb.Agree t'.afb

/-- The channels of a system share nothing (R178): a step of one channel is a step of its block and leaves every other
block as it was. -/
def Obligations.ChannelsShareNothing : Prop :=
  ∀ (k : Nat) (sys sys' : System) (s : State), sys[k]? = some s → System.stepChannel k sys = .next sys' →
    (∃ t, step s = .next t ∧ sys'[k]? = some t) ∧ sys'.length = sys.length ∧ ∀ j, j ≠ k → sys'[j]? = sys[j]?

/-! ## Invariants -/

/-- After power-on the invariants hold, and every sample is canonical. -/
def Obligations.PowerOnMeetsTheInvariants : Prop :=
  ∀ p : Synth, (State.resetOf p).Inv ∧ (State.resetOf p).Canonical

/-- Every step keeps both units' invariants (R39, R47). -/
def Obligations.StepKeepsTheUnitInvariants : Prop :=
  ∀ s t : State, s.Inv → step s = .next t → t.Inv

/-- Every step keeps every sample that the block can show in the one canonical form (log 1). -/
def Obligations.StepKeepsSamplesCanonical : Prop :=
  ∀ s t : State, s.Canonical → step s = .next t → t.Canonical

/-- No step changes a synthesis parameter (R53), and a step takes at most one action off the inbox (R70). -/
def Obligations.StepKeepsTheParametersAndTheOrder : Prop :=
  ∀ s t : State, step s = .next t → t.syn = s.syn ∧ t.inbox = s.inbox.drop 1

/-- The canonical form is unique: samples that are equal as complex numbers for every assignment to the symbols are equal
data (R18; the form is the model's, log 1). -/
def Obligations.CanonicalSamplesAreEqualAsNumbers : Prop :=
  ∀ a b : Cplx, a.wf = true → b.wf = true → (∀ ρ : Valuation, a.toComplex ρ = b.toComplex ρ) → a = b

/-- Any complex numbers are samples (R18, R105 (f), R133): for every sequence of them, those of a whole run for instance,
there is one assignment to the symbols under which canonical samples, given by their real and imaginary parts, are exactly
those numbers. The symbols are the model's (log 1). -/
def Obligations.EveryComplexNumberIsASample : Prop :=
  ∀ f : Nat → ℂ, ∃ (ρ : Valuation) (a b : Nat → Part), ∀ n,
    (Cplx.ofParts (a n) (b n)).wf = true ∧ (Cplx.ofParts (a n) (b n)).toComplex ρ = f n ∧
    (a n).toComplex ρ = ((f n).re : ℂ) ∧ (b n).toComplex ρ = ((f n).im : ℂ)

/-! ## Runs -/

/-- The boot sequence (R194): after reset, a valid configuration of one unit or of each and then commands of the configured
lengths, in any interleaving, the run ends successfully, with one response for each command (R202). -/
def Obligations.BootSequenceRunsToASuccessfulEnd : Prop :=
  ∀ (p : Synth) (L L' FL : Nat) (taps pre : Vec) (is : List Instr),
    (afbFits p L taps.length = true → afbOk L taps.length = true →
      (∀ i ∈ is, i = .afbGetL ∨ i = .afbGetOverlap ∨ ∃ u, i = .afbProcess u ∧ u.length = L) →
      RunSucceeds p ((.afbConfig L taps :: is).map encode)) ∧
    (fmxFits p L' FL pre.length = true → fmxOk L' FL pre.length = true →
      (∀ i ∈ is, ∃ v, i = .fmxProcess v ∧ v.length = L') →
      RunSucceeds p ((.fmxConfig L' FL pre :: is).map encode)) ∧
    (afbFits p L taps.length = true → afbOk L taps.length = true →
      fmxFits p L' FL pre.length = true → fmxOk L' FL pre.length = true →
      (∀ i ∈ is, i = .afbGetL ∨ i = .afbGetOverlap ∨ (∃ u, i = .afbProcess u ∧ u.length = L) ∨
        ∃ v, i = .fmxProcess v ∧ v.length = L') →
      RunSucceeds p ((.afbConfig L taps :: .fmxConfig L' FL pre :: is).map encode))

/-- A faulted unit does not perform a valid CONFIG, and after a reset it does (R165, R168, R190, R192): the step of the
first CONFIG leaves both units as they were and gives no response, the reset clears the fault, and the same CONFIG then
succeeds. The first step is a next state by log 8; the logs begin anew at reset by log 7. -/
def Obligations.ResetThenConfigRecoversAFaultedUnit : Prop :=
  (∀ (s : State) (L : Nat) (taps : Vec) (rest : List HostEvent),
    s.afb.fault ≠ .none → afbFits s.syn L taps.length = true → afbOk L taps.length = true →
    s.inbox = .command (encode (.afbConfig L taps)) :: .reset :: .command (encode (.afbConfig L taps)) :: rest →
    (∃ m, step s = .next m ∧ m.afb = s.afb ∧ m.fmx = s.fmx ∧ m.afbLog = s.afbLog ++ [none] ∧ m.fmxLog = s.fmxLog) ∧
    ∃ t, Host.Core.run Sys2Proof.core 3 s = .next t ∧ t.afb.cfg = .configured ∧ t.afb.fault = .none ∧
      t.afbLog = [some ⟨.ok, .none⟩] ∧ t.inbox = rest) ∧
  (∀ (s : State) (L FL : Nat) (pre : Vec) (rest : List HostEvent),
    s.fmx.fault ≠ .none → fmxFits s.syn L FL pre.length = true → fmxOk L FL pre.length = true →
    s.inbox = .command (encode (.fmxConfig L FL pre)) :: .reset :: .command (encode (.fmxConfig L FL pre)) :: rest →
    (∃ m, step s = .next m ∧ m.afb = s.afb ∧ m.fmx = s.fmx ∧ m.fmxLog = s.fmxLog ++ [none] ∧ m.afbLog = s.afbLog) ∧
    ∃ t, Host.Core.run Sys2Proof.core 3 s = .next t ∧ t.fmx.cfg = .configured ∧ t.fmx.fault = .none ∧
      t.fmxLog = [some ⟨.ok, .none⟩] ∧ t.inbox = rest)
end

