-- ==== Sys2Proof/Laws/CplxForm.lean ====
section
/-! SUPPORT. The form of a sample's terms: what `collect` makes is sorted, has no zero coefficient, and depends only on
the weight of each product of symbols and turn. From that the linear laws hold as equalities of data. -/

namespace Sys2Proof

/-! ## Linear functionals of a sum of terms -/

/-- `Σ coeff · g symbols turn`. -/
def linear (g : List Nat → Rat → Rat) (ts : List RootTerm) : Rat :=
  (ts.map fun t => t.coeff * g t.symbols t.turn).sum

@[simp] theorem linear_nil (g : List Nat → Rat → Rat) : linear g [] = 0 := rfl

@[simp] theorem linear_cons (g : List Nat → Rat → Rat) (t : RootTerm) (ts : List RootTerm) :
    linear g (t :: ts) = t.coeff * g t.symbols t.turn + linear g ts := by simp [linear]

@[simp] theorem linear_append (g : List Nat → Rat → Rat) (ts us : List RootTerm) :
    linear g (ts ++ us) = linear g ts + linear g us := by simp [linear]

theorem linear_flatMap {α : Type} (g : List Nat → Rat → Rat) (f : α → List RootTerm) (l : List α) :
    linear g (l.flatMap f) = (l.map fun x => linear g (f x)).sum := by
  induction l with
  | nil => simp
  | cons x xs ih => simp [ih]

theorem linear_add (g k : List Nat → Rat → Rat) (ts : List RootTerm) :
    linear (fun y q => g y q + k y q) ts = linear g ts + linear k ts := by
  induction ts with
  | nil => simp
  | cons t ts ih => simp only [linear_cons, ih]; ring

theorem linear_insertTerm (g : List Nat → Rat → Rat) (t : RootTerm) (l : List RootTerm) :
    linear g (insertTerm t l) = t.coeff * g t.symbols t.turn + linear g l := by
  induction l with
  | nil =>
    simp only [insertTerm]
    split_ifs with h <;> simp [h]
  | cons u us ih =>
    simp only [insertTerm]
    split_ifs with h1 h2 h3 h4
    · simp [h2]
    · simp
    · rw [linear_cons, ← h3.1, ← h3.2, ← add_assoc, ← add_mul, h4]; simp
    · rw [linear_cons, linear_cons, h3.1, h3.2]; ring
    · rw [linear_cons, ih, linear_cons]; ring

@[simp] theorem linear_collect (g : List Nat → Rat → Rat) (ts : List RootTerm) :
    linear g (Cplx.collect ts).terms = linear g ts := by
  unfold Cplx.collect
  induction ts with
  | nil => rfl
  | cons t ts ih => simp only [List.foldr_cons, linear_insertTerm, ih, linear_cons]

/-- The weight of one product of symbols and turn. -/
def weight (ts : List RootTerm) (y : List Nat) (q : Rat) : Rat :=
  linear (fun y' q' => if y' = y ∧ q' = q then 1 else 0) ts

/-! ## The order of terms -/

theorem RootTerm.Before.trans {t u v : RootTerm} (h : t.Before u) (k : u.Before v) : t.Before v := by
  rcases h with h | ⟨h, h'⟩ <;> rcases k with k | ⟨k, k'⟩
  · exact .inl (lt_trans h k)
  · exact .inl (k ▸ h)
  · exact .inl (h ▸ k)
  · exact .inr ⟨h.trans k, h'.trans k'⟩

theorem RootTerm.Before.ne {t u : RootTerm} (h : t.Before u) : ¬ (u.symbols = t.symbols ∧ u.turn = t.turn) := by
  rintro ⟨e, e'⟩
  rcases h with h | ⟨_, h⟩
  · exact lt_irrefl _ (e ▸ h)
  · exact h.ne' e'

theorem RootTerm.before_of_not {t u : RootTerm} (h : ¬ t.Before u) (h' : ¬ (t.symbols = u.symbols ∧ t.turn = u.turn)) :
    u.Before t := by
  rcases lt_trichotomy t.symbols u.symbols with hs | hs | hs
  · exact absurd (.inl hs) h
  · rcases lt_trichotomy t.turn u.turn with ht | ht | ht
    · exact absurd (.inr ⟨hs, ht⟩) h
    · exact absurd ⟨hs, ht⟩ h'
    · exact .inr ⟨hs.symm, ht⟩
  · exact .inl hs

/-! ## What `collect` makes -/

/-- In order, no coefficient 0. -/
def Collected (ts : List RootTerm) : Prop :=
  ts.Pairwise RootTerm.Before ∧ ∀ t ∈ ts, t.coeff ≠ 0

theorem key_of_mem_insertTerm {t x : RootTerm} {l : List RootTerm} (h : x ∈ insertTerm t l) :
    (x.symbols = t.symbols ∧ x.turn = t.turn) ∨ ∃ y ∈ l, x.symbols = y.symbols ∧ x.turn = y.turn := by
  induction l with
  | nil =>
    simp only [insertTerm] at h
    split_ifs at h <;> simp_all
  | cons u us ih =>
    simp only [insertTerm] at h
    split_ifs at h with h1 h2 h3 h4
    · exact .inr ⟨x, h, rfl, rfl⟩
    · rcases List.mem_cons.mp h with rfl | h
      · exact .inl ⟨rfl, rfl⟩
      · exact .inr ⟨x, h, rfl, rfl⟩
    · exact .inr ⟨x, List.mem_cons_of_mem _ h, rfl, rfl⟩
    · rcases List.mem_cons.mp h with rfl | h
      · exact .inr ⟨u, List.mem_cons_self, rfl, rfl⟩
      · exact .inr ⟨x, List.mem_cons_of_mem _ h, rfl, rfl⟩
    · rcases List.mem_cons.mp h with rfl | h
      · exact .inr ⟨x, List.mem_cons_self, rfl, rfl⟩
      · rcases ih h with h | ⟨y, hy, e⟩
        · exact .inl h
        · exact .inr ⟨y, List.mem_cons_of_mem _ hy, e⟩

theorem key_of_mem_collect {x : RootTerm} {ts : List RootTerm} (h : x ∈ (Cplx.collect ts).terms) :
    ∃ y ∈ ts, x.symbols = y.symbols ∧ x.turn = y.turn := by
  unfold Cplx.collect at h
  induction ts generalizing x with
  | nil => simp at h
  | cons t ts ih =>
    rcases key_of_mem_insertTerm h with h | ⟨y, hy, e⟩
    · exact ⟨t, List.mem_cons_self, h⟩
    · obtain ⟨z, hz, e'⟩ := ih hy
      exact ⟨z, List.mem_cons_of_mem _ hz, e.1.trans e'.1, e.2.trans e'.2⟩

theorem insertTerm_collected {t : RootTerm} {l : List RootTerm} (h : Collected l) : Collected (insertTerm t l) := by
  induction l with
  | nil =>
    simp only [insertTerm]
    split_ifs with h1
    · exact h
    · exact ⟨List.pairwise_singleton _ _, by simpa using h1⟩
  | cons u us ih =>
    obtain ⟨hp, hc⟩ := h
    rw [List.pairwise_cons] at hp
    have hus : Collected us := ⟨hp.2, fun t ht => hc t (List.mem_cons_of_mem _ ht)⟩
    simp only [insertTerm]
    split_ifs with h1 h2 h3 h4
    · exact ⟨List.pairwise_cons.mpr hp, hc⟩
    · refine ⟨List.pairwise_cons.mpr ⟨fun x hx => ?_, List.pairwise_cons.mpr hp⟩, fun x hx => ?_⟩
      · rcases List.mem_cons.mp hx with rfl | hx
        · exact h1
        · exact h1.trans (hp.1 x hx)
      · rcases List.mem_cons.mp hx with rfl | hx
        · exact h2
        · exact hc x hx
    · exact hus
    · refine ⟨List.pairwise_cons.mpr ⟨hp.1, hp.2⟩, fun x hx => ?_⟩
      rcases List.mem_cons.mp hx with rfl | hx
      · exact h4
      · exact hus.2 x hx
    · obtain ⟨ip, ic⟩ := ih hus
      refine ⟨List.pairwise_cons.mpr ⟨fun x hx => ?_, ip⟩, fun x hx => ?_⟩
      · rcases key_of_mem_insertTerm hx with e | ⟨y, hy, e⟩
        · rw [RootTerm.Before, e.1, e.2]; exact RootTerm.before_of_not h1 h3
        · rw [RootTerm.Before, e.1, e.2]; exact hp.1 y hy
      · rcases List.mem_cons.mp hx with rfl | hx
        · exact hc x List.mem_cons_self
        · exact ic x hx

theorem collect_collected (ts : List RootTerm) : Collected (Cplx.collect ts).terms := by
  unfold Cplx.collect
  induction ts with
  | nil => exact ⟨List.Pairwise.nil, by simp⟩
  | cons t ts ih => exact insertTerm_collected ih

theorem weight_cons_tail {t : RootTerm} {ts : List RootTerm} (y : List Nat) (q : Rat) :
    weight (t :: ts) y q = (if t.symbols = y ∧ t.turn = q then t.coeff else 0) + weight ts y q := by
  unfold weight
  rw [linear_cons]
  split_ifs <;> simp

theorem weight_of_no_term {ts : List RootTerm} {y : List Nat} {q : Rat}
    (h : ∀ t ∈ ts, ¬ (t.symbols = y ∧ t.turn = q)) : weight ts y q = 0 := by
  induction ts with
  | nil => rfl
  | cons t ts ih =>
    rw [weight_cons_tail, if_neg (h t List.mem_cons_self), ih fun u hu => h u (List.mem_cons_of_mem _ hu), add_zero]

theorem weight_of_before_all {t : RootTerm} {ts : List RootTerm} (h : ∀ u ∈ ts, t.Before u) :
    weight ts t.symbols t.turn = 0 := weight_of_no_term fun u hu => (h u hu).ne

theorem weight_head {t : RootTerm} {ts : List RootTerm} (h : Collected (t :: ts)) :
    weight (t :: ts) t.symbols t.turn = t.coeff := by
  rw [weight_cons_tail, weight_of_before_all (List.pairwise_cons.mp h.1).1, if_pos ⟨rfl, rfl⟩, add_zero]

/-- The heads of two collected lists with the same weights: neither comes before the other. -/
theorem not_before_head {t u : RootTerm} {ts us : List RootTerm} (ht : Collected (t :: ts)) (hu : Collected (u :: us))
    (h : ∀ y q, weight (t :: ts) y q = weight (u :: us) y q) : ¬ t.Before u := by
  intro hb
  have := h t.symbols t.turn
  rw [weight_head ht, weight_of_before_all fun x hx => ?_] at this
  · exact ht.2 t List.mem_cons_self this
  · rcases List.mem_cons.mp hx with rfl | hx
    · exact hb
    · exact hb.trans ((List.pairwise_cons.mp hu.1).1 x hx)

/-- A collected list is fixed by its weights. -/
theorem collected_ext {ts us : List RootTerm} (ht : Collected ts) (hu : Collected us)
    (h : ∀ y q, weight ts y q = weight us y q) : ts = us := by
  induction ts generalizing us with
  | nil =>
    cases us with
    | nil => rfl
    | cons u us =>
      have := h u.symbols u.turn
      rw [weight_head hu] at this
      exact absurd this.symm (hu.2 u List.mem_cons_self)
  | cons t ts ih =>
    cases us with
    | nil =>
      have := h t.symbols t.turn
      rw [weight_head ht] at this
      exact absurd this (ht.2 t List.mem_cons_self)
    | cons u us =>
      have hkey : t.symbols = u.symbols ∧ t.turn = u.turn := by
        by_contra hne
        exact not_before_head hu ht (fun y q => (h y q).symm)
          (RootTerm.before_of_not (not_before_head ht hu h) hne)
      have hcoeff : t.coeff = u.coeff := by
        have := h t.symbols t.turn
        rw [weight_head ht, hkey.1, hkey.2, weight_head hu] at this
        exact this
      have htu : t = u := by
        cases t; cases u; simp_all
      subst htu
      congr 1
      refine ih ⟨(List.pairwise_cons.mp ht.1).2, fun x hx => ht.2 x (List.mem_cons_of_mem _ hx)⟩
        ⟨(List.pairwise_cons.mp hu.1).2, fun x hx => hu.2 x (List.mem_cons_of_mem _ hx)⟩ fun y q => ?_
      have := h y q
      rw [weight_cons_tail, weight_cons_tail] at this
      exact add_left_cancel this

@[simp] theorem weight_collect (ts : List RootTerm) (y : List Nat) (q : Rat) :
    weight (Cplx.collect ts).terms y q = weight ts y q := by
  simp [weight]

/-- `collect` depends only on the weights. -/
theorem collect_congr {ts us : List RootTerm} (h : ∀ y q, weight ts y q = weight us y q) :
    Cplx.collect ts = Cplx.collect us := by
  have : (Cplx.collect ts).terms = (Cplx.collect us).terms :=
    collected_ext (collect_collected ts) (collect_collected us) fun y q => by simpa using h y q
  cases hc : Cplx.collect ts; cases hd : Cplx.collect us
  simp_all

/-- Collecting what is collected changes nothing. -/
theorem collect_of_collected {z : Cplx} (h : Collected z.terms) : Cplx.collect z.terms = z := by
  have : (Cplx.collect z.terms).terms = z.terms := collected_ext (collect_collected _) h fun y q => by simp
  cases z; cases hc : Cplx.collect _; simp_all

/-! ## Reduction is linear -/

/-- A term with its coefficient multiplied. -/
def RootTerm.scaled (c : Rat) (t : RootTerm) : RootTerm := ⟨t.turn, c * t.coeff, t.symbols⟩

theorem expandAt_scaled (p : Nat) (c : Rat) (t : RootTerm) :
    expandAt p (t.scaled c) = (expandAt p t).map (RootTerm.scaled c) := by
  by_cases h : leadDigit p t.turn + 1 = p
  · simp [expandAt, RootTerm.scaled, h]
  · simp [expandAt, RootTerm.scaled, h]

theorem expandAll_scaled (ps : List Nat) (c : Rat) (ts : List RootTerm) :
    ps.foldl (fun ts p => ts.flatMap (expandAt p)) (ts.map (RootTerm.scaled c))
      = (ps.foldl (fun ts p => ts.flatMap (expandAt p)) ts).map (RootTerm.scaled c) := by
  induction ps generalizing ts with
  | nil => rfl
  | cons p ps ih =>
    rw [List.foldl_cons, List.foldl_cons, ← ih]
    congr 1
    rw [List.flatMap_map, List.map_flatMap]
    simp only [expandAt_scaled]

theorem linear_scaled (g : List Nat → Rat → Rat) (c : Rat) (ts : List RootTerm) :
    linear g (ts.map (RootTerm.scaled c)) = c * linear g ts := by
  induction ts with
  | nil => simp
  | cons t ts ih => simp only [List.map_cons, linear_cons, ih, RootTerm.scaled]; ring

/-- The value of a functional on a reduced root with symbols. -/
def onRoot (g : List Nat → Rat → Rat) (y : List Nat) (q : Rat) : Rat := linear g (reduceTerm ⟨q, 1, y⟩)

theorem linear_reduceTerm (g : List Nat → Rat → Rat) (t : RootTerm) :
    linear g (reduceTerm t) = t.coeff * onRoot g t.symbols t.turn := by
  have h : reduceTerm t = (reduceTerm ⟨t.turn, 1, t.symbols⟩).map (RootTerm.scaled t.coeff) := by
    simp only [reduceTerm]
    rw [← expandAll_scaled]
    simp [RootTerm.scaled]
  rw [h, linear_scaled, onRoot]

theorem linear_ofTerms (g : List Nat → Rat → Rat) (ts : List RootTerm) :
    linear g (Cplx.ofTerms ts).terms = linear (onRoot g) ts := by
  rw [Cplx.ofTerms, linear_collect, linear_flatMap]
  simp only [linear_reduceTerm]
  rfl

theorem linear_mul (g : List Nat → Rat → Rat) (a b : Cplx) :
    linear g (a.mul b).terms
      = linear (fun y q => linear (fun y' q' => onRoot g (y ++ y') (q + q')) b.terms) a.terms := by
  have inner : ∀ (s : RootTerm) (us : List RootTerm),
      linear (onRoot g) (us.map (RootTerm.mul s))
        = s.coeff * linear (fun y' q' => onRoot g (s.symbols ++ y') (s.turn + q')) us := by
    intro s us
    induction us with
    | nil => simp
    | cons u us ih => simp only [List.map_cons, linear_cons, ih, RootTerm.mul]; ring
  rw [Cplx.mul, linear_ofTerms, linear_flatMap]
  simp only [inner]
  rfl

theorem linear_sum (g : List Nat → Rat → Rat) (xs : Vec) :
    linear g (Cplx.sum xs).terms = (xs.map fun x => linear g x.terms).sum := by
  rw [Cplx.sum, linear_collect, linear_flatMap]

theorem linear_plus (g : List Nat → Rat → Rat) (a b : Cplx) :
    linear g (a.add b).terms = linear g a.terms + linear g b.terms := by
  rw [Cplx.add, linear_collect, linear_append]

/-- Two samples made by `collect` are equal when every functional agrees on them. -/
theorem cplx_ext {a b : Cplx} (ha : Collected a.terms) (hb : Collected b.terms)
    (h : ∀ g, linear g a.terms = linear g b.terms) : a = b := by
  have := collected_ext ha hb fun y q => h _
  cases a; cases b; simp_all

theorem add_collected (a b : Cplx) : Collected (a.add b).terms := collect_collected _
theorem mul_collected (a b : Cplx) : Collected (a.mul b).terms := collect_collected _
theorem sum_collected (xs : Vec) : Collected (Cplx.sum xs).terms := collect_collected _

/-! ## The linear laws, as equalities of data -/

theorem Cplx.add_comm (a b : Cplx) : a.add b = b.add a :=
  cplx_ext (add_collected _ _) (add_collected _ _) fun g => by rw [linear_plus, linear_plus]; ring

theorem Cplx.add_assoc (a b c : Cplx) : (a.add b).add c = a.add (b.add c) :=
  cplx_ext (add_collected _ _) (add_collected _ _) fun g => by
    simp only [linear_plus]; ring

theorem Cplx.add_mul (a b c : Cplx) : (a.add b).mul c = (a.mul c).add (b.mul c) :=
  cplx_ext (mul_collected _ _) (add_collected _ _) fun g => by
    simp only [linear_plus, linear_mul]

theorem Cplx.mul_add (a b c : Cplx) : a.mul (b.add c) = (a.mul b).add (a.mul c) :=
  cplx_ext (mul_collected _ _) (add_collected _ _) fun g => by
    simp only [linear_plus, linear_mul, linear_add]

theorem Cplx.sum_add (n : Nat) (f k : Nat → Cplx) :
    Cplx.sum ((List.range n).map fun i => (f i).add (k i))
      = (Cplx.sum ((List.range n).map f)).add (Cplx.sum ((List.range n).map k)) :=
  cplx_ext (sum_collected _) (add_collected _ _) fun g => by
    simp only [linear_plus, linear_sum, List.map_map, Function.comp_def]
    rw [← List.sum_map_add]

@[simp] theorem Cplx.zero_mul (a : Cplx) : Cplx.zero.mul a = Cplx.zero := rfl

@[simp] theorem Cplx.mul_zero (a : Cplx) : a.mul Cplx.zero = Cplx.zero := by
  have h : (a.terms.flatMap fun s => Cplx.zero.terms.map (RootTerm.mul s)) = [] := by
    rw [List.flatMap_eq_nil_iff]; intro s _; rfl
  rw [Cplx.mul, h]; rfl

theorem Cplx.add_zero {a : Cplx} (h : Collected a.terms) : a.add Cplx.zero = a := by
  rw [Cplx.add, show Cplx.zero.terms = [] from rfl, List.append_nil]
  exact collect_of_collected h

@[simp] theorem Cplx.zero_add_zero : Cplx.zero.add Cplx.zero = Cplx.zero := rfl

theorem Cplx.sum_zero {xs : Vec} (h : ∀ x ∈ xs, x = Cplx.zero) : Cplx.sum xs = Cplx.zero := by
  have : xs.flatMap Cplx.terms = [] := by
    rw [List.flatMap_eq_nil_iff]
    intro x hx
    rw [h x hx]
    rfl
  rw [Cplx.sum, this]
  rfl

/-- Equal sums with one equal part have the other part equal. -/
theorem Cplx.add_left_cancel {a b c : Cplx} (hb : Collected b.terms) (hc : Collected c.terms)
    (h : a.add b = a.add c) : b = c :=
  cplx_ext hb hc fun g => by
    have := congrArg (fun z : Cplx => linear g z.terms) h
    simp only [linear_plus] at this
    linarith

/-! ## Parts -/

/-- A term is reduced already if its turn and its symbols are canonical. -/
theorem reduceTerm_self {t : RootTerm} (hq : fracTurn t.turn = t.turn) (hs : t.symbols.insertionSort (· ≤ ·) = t.symbols)
    (hp : ∀ p ∈ primeDivisors t.turn.den, leadDigit p t.turn + 1 ≠ p) : reduceTerm t = [t] := by
  have key : ∀ ps : List Nat, (∀ p ∈ ps, leadDigit p t.turn + 1 ≠ p) →
      ps.foldl (fun ts p => ts.flatMap (expandAt p)) [t] = [t] := by
    intro ps
    induction ps with
    | nil => intro _; rfl
    | cons p ps ih =>
      intro h
      rw [List.foldl_cons, List.flatMap_cons, List.flatMap_nil, List.append_nil, expandAt, if_neg (h p List.mem_cons_self)]
      exact ih fun r hr => h r (List.mem_cons_of_mem _ hr)
  rw [reduceTerm, hq, hs]
  exact key _ hp

theorem reduceTerm_part (a : Part) : reduceTerm (a.term 0) = [a.term 0] ∧ reduceTerm (a.term (1 / 4)) = [a.term (1 / 4)] := by
  have h0 : fracTurn 0 = 0 ∧ ∀ p ∈ primeDivisors (0 : Rat).den, leadDigit p 0 + 1 ≠ p := by decide +kernel
  have h1 : fracTurn (1 / 4) = 1 / 4 ∧ ∀ p ∈ primeDivisors (1 / 4 : Rat).den, leadDigit p (1 / 4) + 1 ≠ p := by
    decide +kernel
  cases a <;> exact ⟨reduceTerm_self h0.1 rfl h0.2, reduceTerm_self h1.1 rfl h1.2⟩

/-- A sample with parts has those parts: reading them back gives what it was made of. -/
theorem Cplx.parts?_ofParts (a b : Part) : (Cplx.ofParts a b).parts? = some (a, b) := by
  have h : (Cplx.ofParts a b).partAt 0 = a ∧ (Cplx.ofParts a b).partAt (1 / 4) = b := by
    rw [Cplx.ofParts, Cplx.ofTerms, List.flatMap_cons, List.flatMap_cons, List.flatMap_nil, (reduceTerm_part a).1,
      (reduceTerm_part b).2]
    cases a <;> cases b <;>
      simp only [Cplx.partAt, Cplx.collect, Part.term, List.append_nil, List.cons_append, List.nil_append, List.foldr_cons,
        List.foldr_nil, insertTerm] <;>
      split_ifs <;> simp_all [insertTerm, RootTerm.Before] <;> (try split_ifs) <;> simp_all
  simp only [Cplx.parts?, h.1, h.2, if_true]

/-- The parts of a sample make it. -/
theorem Cplx.ofParts_of_parts? {z : Cplx} {a b : Part} (h : z.parts? = some (a, b)) : z = Cplx.ofParts a b := by
  simp only [Cplx.parts?] at h
  split_ifs at h with hz
  simp only [Option.some.injEq, Prod.mk.injEq] at h
  rw [← h.1, ← h.2]
  exact hz

end Sys2Proof
end

