-- ==== Sys2Proof/Laws/CplxCanonical.lean ====
section
/-! SUPPORT. Every operation on samples gives a sample in canonical form (`Cplx.wf`): the lead digit of a turn behaves as
the first digit of its `p`-part, so that rewriting at one prime never undoes what was done at another. -/

namespace Sys2Proof

/-! ## Primes and prime parts -/

theorem prime_of_mem_primeDivisors {p n : Nat} (h : p ∈ primeDivisors n) : p.Prime := by
  simp only [primeDivisors, List.mem_filter, Bool.and_eq_true, decide_eq_true_eq, List.all_eq_true,
    List.mem_range, Bool.or_eq_true, bne_iff_ne, ne_eq] at h
  rw [Nat.prime_def_lt]
  refine ⟨h.2.1.1, fun m hm hd => ?_⟩
  rcases h.2.2 m hm with h1 | h1
  · have : m ≠ 0 := by rintro rfl; rw [zero_dvd_iff] at hd; omega
    omega
  · exact absurd (Nat.mod_eq_zero_of_dvd hd) h1

theorem mem_primeDivisors {p n : Nat} (hp : p.Prime) (hn : 0 < n) (hd : p ∣ n) : p ∈ primeDivisors n := by
  simp only [primeDivisors, List.mem_filter, Bool.and_eq_true, decide_eq_true_eq, List.all_eq_true,
    List.mem_range, Bool.or_eq_true, bne_iff_ne, ne_eq, beq_iff_eq]
  refine ⟨Nat.lt_succ_of_le (Nat.le_of_dvd hn hd), ⟨hp.two_le, Nat.mod_eq_zero_of_dvd hd⟩, fun q hq => ?_⟩
  by_cases h2 : q < 2
  · exact .inl h2
  · refine .inr fun h => ?_
    rcases (Nat.dvd_prime hp).mp (Nat.dvd_of_mod_eq_zero h) with rfl | rfl <;> omega

/-- The prime part is a power of `p`, and what is left has no `p`. -/
theorem primePart_spec {p n : Nat} (hp : p.Prime) (hn : 0 < n) :
    ∃ v m, primePart p n = p ^ v ∧ n = p ^ v * m ∧ ¬ p ∣ m := by
  obtain ⟨v, m, hm, hnm⟩ := Nat.exists_eq_pow_mul_and_not_dvd hn.ne' p hp.one_lt.ne'
  have hv : v ≤ Nat.log2 n := by
    rw [Nat.le_log2 hn.ne']
    calc 2 ^ v ≤ p ^ v := Nat.pow_le_pow_left hp.two_le v
      _ ≤ n := Nat.le_of_dvd hn ⟨m, hnm⟩
  refine ⟨v, m, ?_, hnm, hm⟩
  unfold primePart
  obtain ⟨e, he⟩ : ∃ e, Nat.log2 n = v + e := ⟨_, (Nat.add_sub_cancel' hv).symm⟩
  have hcop : Nat.Coprime m (p ^ e) := Nat.Coprime.pow_right e ((Nat.Prime.coprime_iff_not_dvd hp).mpr hm).symm
  rw [he, pow_add]
  conv_lhs => rw [hnm]
  rw [Nat.gcd_mul_left, hcop, mul_one]

/-! ## The lead digit -/

/-- `turn` is `x/p^k` plus a rational whose denominator has no `p`: `x/p^k` is its `p`-part. -/
def IsPart (p k x : Nat) (turn : Rat) : Prop :=
  x < p ^ k ∧ ∃ y : Rat, ¬ p ∣ y.den ∧ turn = (x : Rat) / ((p ^ k : Nat) : Rat) + y

/-- A `p`-part is unique, up to the power it is written with. -/
theorem isPart_unique {p k x k' x' : Nat} {turn : Rat} (hp : p.Prime)
    (h : IsPart p k x turn) (h' : IsPart p k' x' turn) : x * p ^ k' = x' * p ^ k := by
  obtain ⟨hx, y, hy, e⟩ := h
  obtain ⟨hx', y', hy', e'⟩ := h'
  have hpk : ((p ^ k : Nat) : Rat) ≠ 0 := by exact_mod_cast (pow_pos hp.pos k).ne'
  have hpk' : ((p ^ k' : Nat) : Rat) ≠ 0 := by exact_mod_cast (pow_pos hp.pos k').ne'
  -- the difference of the two parts is an integer, since its denominator is a power of p and has no p
  set D : Rat := y' - y with hD
  have hDeq : (x : Rat) * ((p ^ k' : Nat) : Rat) - (x' : Rat) * ((p ^ k : Nat) : Rat)
      = D * (((p ^ k : Nat) : Rat) * ((p ^ k' : Nat) : Rat)) := by
    have : (x : Rat) / ((p ^ k : Nat) : Rat) - (x' : Rat) / ((p ^ k' : Nat) : Rat) = D := by
      rw [hD]; linarith
    rw [← this]; field_simp
  have hDden : ¬ p ∣ D.den := by
    intro hd
    have h1 : D.den ∣ y'.den * y.den := by rw [hD]; exact Rat.sub_den_dvd y' y
    rcases (Nat.Prime.dvd_mul hp).mp (hd.trans h1) with h2 | h2
    · exact hy' h2
    · exact hy h2
  have hint : D.den = 1 := by
    have hz : ((x : ℤ) * (p ^ k' : ℕ) - (x' : ℤ) * (p ^ k : ℕ)) * D.den = D.num * ((p ^ k : ℕ) * (p ^ k' : ℕ) : ℤ) := by
      have hn : D = (D.num : Rat) / (D.den : Rat) := (Rat.num_div_den D).symm
      have hd0 : (D.den : Rat) ≠ 0 := by exact_mod_cast D.den_nz
      rw [hn] at hDeq
      field_simp at hDeq
      exact_mod_cast (by push_cast at hDeq ⊢; linarith :
        ((x : Rat) * ((p ^ k' : Nat) : Rat) - (x' : Rat) * ((p ^ k : Nat) : Rat)) * (D.den : Rat)
          = (D.num : Rat) * (((p ^ k : Nat) : Rat) * ((p ^ k' : Nat) : Rat)))
    have hdvd : (D.den : ℤ) ∣ D.num * ((p ^ k : ℕ) * (p ^ k' : ℕ) : ℤ) :=
      ⟨(x : ℤ) * (p ^ k' : ℕ) - (x' : ℤ) * (p ^ k : ℕ), by rw [← hz]; ring⟩
    have hcop : IsCoprime (D.den : ℤ) D.num := by
      rw [Int.isCoprime_iff_gcd_eq_one]
      have := D.reduced
      rw [Nat.Coprime, Nat.gcd_comm] at this
      simpa [Int.gcd] using this
    have hdvd2 : (D.den : ℤ) ∣ ((p ^ k : ℕ) * (p ^ k' : ℕ) : ℤ) := hcop.dvd_of_dvd_mul_left hdvd
    have hdvd3 : D.den ∣ p ^ (k + k') := by
      rw [pow_add]; exact_mod_cast hdvd2
    obtain ⟨j, _, hj⟩ := (Nat.dvd_prime_pow hp).mp hdvd3
    cases j with
    | zero => simpa using hj
    | succ j => exact absurd (hj ▸ dvd_pow_self p (Nat.succ_ne_zero j)) hDden
  have hDnum : D = (D.num : Rat) := by
    conv_lhs => rw [← Rat.num_div_den D, hint]
    simp
  have hfin : (x : ℤ) * (p ^ k' : ℕ) - (x' : ℤ) * (p ^ k : ℕ) = D.num * ((p ^ k : ℕ) * (p ^ k' : ℕ) : ℤ) := by
    rw [hDnum] at hDeq
    exact_mod_cast hDeq
  have hP : (0 : ℤ) < (p ^ k : ℕ) := by exact_mod_cast pow_pos hp.pos k
  have hP' : (0 : ℤ) < (p ^ k' : ℕ) := by exact_mod_cast pow_pos hp.pos k'
  have hx1 : (x : ℤ) < (p ^ k : ℕ) := by exact_mod_cast hx
  have hx1' : (x' : ℤ) < (p ^ k' : ℕ) := by exact_mod_cast hx'
  have hzero : D.num = 0 := by
    by_contra hne
    have hx0 : (0 : ℤ) ≤ x := by positivity
    have hx0' : (0 : ℤ) ≤ x' := by positivity
    generalize ((p ^ k : ℕ) : ℤ) = A at *
    generalize ((p ^ k' : ℕ) : ℤ) = B at *
    rcases lt_or_gt_of_ne hne with hlt | hgt
    · have : D.num ≤ -1 := by omega
      nlinarith [mul_pos hP hP', mul_nonneg hx0 hP'.le, mul_lt_mul_of_pos_right hx1' hP]
    · have : 1 ≤ D.num := by omega
      nlinarith [mul_pos hP hP', mul_nonneg hx0' hP.le, mul_lt_mul_of_pos_right hx1 hP']
  rw [hzero, zero_mul, sub_eq_zero] at hfin
  exact_mod_cast hfin

/-- The part that `leadDigit` reads the digit of. -/
theorem leadDigit_part {p : Nat} (hp : p.Prime) (turn : Rat) :
    ∃ v x, IsPart p v x turn ∧ leadDigit p turn = x * p / p ^ v := by
  obtain ⟨v, m, hq, hn, hm⟩ := primePart_spec hp turn.den_pos
  have hpv : 0 < p ^ v := pow_pos hp.pos v
  have hdiv : turn.den / primePart p turn.den = m := by
    rw [hq]; conv_lhs => rw [hn]
    exact Nat.mul_div_cancel_left m hpv
  have hm0 : 0 < m := by
    rcases Nat.eq_zero_or_pos m with h | h
    · rw [h] at hm; exact absurd (dvd_zero p) hm
    · exact h
  have hcop : Nat.Coprime m (p ^ v) := Nat.Coprime.pow_right v ((Nat.Prime.coprime_iff_not_dvd hp).mpr hm).symm
  -- a solution exists
  have hex : ∃ x ∈ List.range (p ^ v),
      (((x * m : Nat) : Int) % ((p ^ v : Nat) : Int) == turn.num % ((p ^ v : Nat) : Int)) = true := by
    have hq0 : (0 : Int) < ((p ^ v : Nat) : Int) := by exact_mod_cast hpv
    have hb := Nat.gcd_eq_gcd_ab m (p ^ v)
    rw [hcop] at hb
    refine ⟨((turn.num * Nat.gcdA m (p ^ v)) % ((p ^ v : Nat) : Int)).toNat, ?_, ?_⟩
    · rw [List.mem_range]
      have := Int.emod_lt_of_pos (turn.num * Nat.gcdA m (p ^ v)) hq0
      have := Int.emod_nonneg (turn.num * Nat.gcdA m (p ^ v)) hq0.ne'
      omega
    · rw [beq_iff_eq]
      push_cast
      rw [Int.toNat_of_nonneg (Int.emod_nonneg _ (by exact_mod_cast hq0.ne'))]
      push_cast at hb
      rw [Int.mul_emod, Int.emod_emod, ← Int.mul_emod]
      have : turn.num * Nat.gcdA m (p ^ v) * m = turn.num + (p : ℤ) ^ v * (-(turn.num * Nat.gcdB m (p ^ v))) := by
        linear_combination (-turn.num) * hb
      rw [this, Int.add_mul_emod_self_left]
  obtain ⟨x, hfind⟩ := Option.isSome_iff_exists.mp (List.find?_isSome.mpr hex)
  have hmem : x < p ^ v := List.mem_range.mp (List.mem_of_find?_eq_some hfind)
  have hcong := List.find?_some hfind
  rw [beq_iff_eq] at hcong
  refine ⟨v, x, ⟨hmem, turn - (x : Rat) / ((p ^ v : Nat) : Rat), ?_, by ring⟩, ?_⟩
  · obtain ⟨t, ht⟩ := Int.ModEq.dvd (show Int.ModEq _ _ _ from hcong)
    have hm0' : (m : Rat) ≠ 0 := by exact_mod_cast hm0.ne'
    have hpv' : ((p ^ v : Nat) : Rat) ≠ 0 := by exact_mod_cast hpv.ne'
    have hturn : turn = (turn.num : Rat) / (((p ^ v : Nat) : Rat) * (m : Rat)) := by
      conv_lhs => rw [← Rat.num_div_den turn, hn]
      push_cast
      rfl
    have hnum : (turn.num : Rat) = (x : Rat) * (m : Rat) + ((p ^ v : Nat) : Rat) * (t : Rat) := by
      have : turn.num = (x * m : Nat) + ((p ^ v : Nat) : Int) * t := by linarith
      rw [this]; push_cast; rfl
    have hy : turn - (x : Rat) / ((p ^ v : Nat) : Rat) = (t : Rat) / ((m : Int) : Rat) := by
      rw [hturn, hnum]
      push_cast at hpv' ⊢
      field_simp
      ring
    rw [hy]
    intro hd
    have h1 := Rat.den_dvd t (m : Int)
    rw [Rat.divInt_eq_div] at h1
    exact hm (hd.trans (by exact_mod_cast h1))
  · simp only [leadDigit]
    rw [hdiv, hq, hfind]
    rfl

/-- `leadDigit` reads the first digit of the `p`-part, however the part is written. -/
theorem leadDigit_eq {p k x : Nat} {turn : Rat} (hp : p.Prime) (h : IsPart p k x turn) :
    leadDigit p turn = x * p / p ^ k := by
  obtain ⟨v, x', h', e⟩ := leadDigit_part hp turn
  have hu := isPart_unique hp h' h
  rw [e]
  calc x' * p / p ^ v = x' * p * p ^ k / (p ^ v * p ^ k) := (Nat.mul_div_mul_right _ _ (pow_pos hp.pos k)).symm
    _ = x * p * p ^ v / (p ^ k * p ^ v) := by
        rw [show x' * p * p ^ k = (x' * p ^ k) * p by ring, hu, mul_comm (p ^ v)]
        congr 1; ring
    _ = x * p / p ^ k := Nat.mul_div_mul_right _ _ (pow_pos hp.pos v)

/-- A `p`-part written with a positive power. -/
theorem exists_isPart_succ {p : Nat} (hp : p.Prime) (turn : Rat) : ∃ k x, IsPart p (k + 1) x turn := by
  obtain ⟨v, x, ⟨hx, y, hy, e⟩, _⟩ := leadDigit_part hp turn
  refine ⟨v, x * p, ?_, y, hy, ?_⟩
  · rw [pow_succ]; exact Nat.mul_lt_mul_of_pos_right hx hp.pos
  · rw [e]
    have hp0 : (p : Rat) ≠ 0 := by exact_mod_cast hp.ne_zero
    push_cast
    rw [pow_succ]
    field_simp

theorem leadDigit_lt {p : Nat} (hp : p.Prime) (turn : Rat) : leadDigit p turn < p := by
  obtain ⟨k, x, h⟩ := exists_isPart_succ hp turn
  rw [leadDigit_eq hp h, Nat.div_lt_iff_lt_mul (pow_pos hp.pos _), mul_comm]
  exact Nat.mul_lt_mul_of_pos_left h.1 hp.pos

/-- A prime that does not divide the denominator has the digit 0. -/
theorem leadDigit_of_not_dvd {p : Nat} {turn : Rat} (hp : p.Prime) (h : ¬ p ∣ turn.den) : leadDigit p turn = 0 := by
  have : IsPart p 0 0 turn := ⟨by simp, turn, h, by simp⟩
  rw [leadDigit_eq hp this]
  simp

theorem den_add_dvd_not {p : Nat} (hp : p.Prime) {a b : Rat} (ha : ¬ p ∣ a.den) (hb : ¬ p ∣ b.den) :
    ¬ p ∣ (a + b).den := by
  intro h
  rcases (Nat.Prime.dvd_mul hp).mp (h.trans (Rat.add_den_dvd a b)) with h | h
  · exact ha h
  · exact hb h

/-- Turning by `i/p` changes the digit at `p` by `i`. -/
theorem leadDigit_turn_same {p : Nat} (hp : p.Prime) (turn : Rat) (i : Nat) :
    leadDigit p (fracTurn (turn + (i : Rat) / (p : Rat))) = (leadDigit p turn + i) % p := by
  obtain ⟨k, x, hx, y, hy, e⟩ := exists_isPart_succ hp turn
  have hpk : 0 < p ^ k := pow_pos hp.pos k
  have hp0 : (p : Rat) ≠ 0 := by exact_mod_cast hp.ne_zero
  have hpk0 : (p : Rat) ^ k ≠ 0 := pow_ne_zero k hp0
  set w := x + i * p ^ k with hw
  have hpart : IsPart p (k + 1) (w % p ^ (k + 1)) (fracTurn (turn + (i : Rat) / (p : Rat))) := by
    refine ⟨Nat.mod_lt _ (pow_pos hp.pos _),
      y + ((((w / p ^ (k + 1) : Nat) : Int) - (turn + (i : Rat) / (p : Rat)).floor : Int) : Rat), ?_, ?_⟩
    · refine den_add_dvd_not hp hy ?_
      rw [Rat.den_intCast]
      exact hp.one_lt.ne' ∘ Nat.dvd_one.mp
    · have hsplit : (w : Rat) = ((p ^ (k + 1) * (w / p ^ (k + 1)) + w % p ^ (k + 1) : Nat) : Rat) := by
        rw [Nat.div_add_mod]
      have hsplit' : ((w % p ^ (k + 1) : Nat) : Rat)
          = (w : Rat) - ((p ^ (k + 1) : Nat) : Rat) * ((w / p ^ (k + 1) : Nat) : Rat) := by
        rw [hsplit]; push_cast; ring
      rw [fracTurn, hsplit']
      generalize (turn + (i : Rat) / (p : Rat)).floor = F
      generalize w / p ^ (k + 1) = D
      rw [e, hw]
      push_cast
      rw [pow_succ]
      field_simp
      ring
  have hself : IsPart p (k + 1) x turn := ⟨hx, y, hy, e⟩
  rw [leadDigit_eq hp hpart, leadDigit_eq hp hself]
  have hdig : ∀ z : Nat, z * p / p ^ (k + 1) = z / p ^ k := fun z => by
    rw [pow_succ, Nat.mul_div_mul_right _ _ hp.pos]
  rw [hdig, hdig, pow_succ, Nat.mod_mul_right_div_self, hw, Nat.add_mul_div_right _ _ hpk]

/-- Turning by `i/p` does not change the digit at another prime. -/
theorem leadDigit_turn_other {p r : Nat} (hp : p.Prime) (hr : r.Prime) (hne : r ≠ p) (turn : Rat) (i : Nat) :
    leadDigit r (fracTurn (turn + (i : Rat) / (p : Rat))) = leadDigit r turn := by
  obtain ⟨k, x, hx, y, hy, e⟩ := exists_isPart_succ hr turn
  have hpart : IsPart r (k + 1) x (fracTurn (turn + (i : Rat) / (p : Rat))) := by
    refine ⟨hx, y + ((i : Rat) / (p : Rat) + ((-(turn + (i : Rat) / (p : Rat)).floor : Int) : Rat)), ?_, ?_⟩
    · refine den_add_dvd_not hr hy (den_add_dvd_not hr ?_ ?_)
      · intro hd
        have h1 := Rat.den_dvd (i : Int) (p : Int)
        rw [Rat.divInt_eq_div] at h1
        rw [Int.cast_natCast, Int.cast_natCast, Int.natCast_dvd_natCast] at h1
        have h2 : ((i : Rat) / (p : Rat)).den ∣ p := h1
        exact hne ((Nat.prime_dvd_prime_iff_eq hr hp).mp (hd.trans h2))
      · rw [Rat.den_intCast]
        exact hr.one_lt.ne' ∘ Nat.dvd_one.mp
    · rw [fracTurn, e]
      push_cast
      ring
  rw [leadDigit_eq hr hpart, leadDigit_eq hr ⟨hx, y, hy, e⟩]

/-! ## Reduction ends in the basis -/

/-- The root is not the redundant one at the prime `r`. -/
def GoodAt (r : Nat) (turn : Rat) : Prop := leadDigit r turn + 1 ≠ r

theorem expandAt_goodAt {p r : Nat} (hp : p.Prime) (hr : r.Prime) {t u : RootTerm} (hu : u ∈ expandAt p t)
    (h : r = p ∨ GoodAt r t.turn) : GoodAt r u.turn := by
  unfold expandAt at hu
  split_ifs at hu with hd
  · obtain ⟨i, hi, rfl⟩ := List.mem_map.mp hu
    have hi' := List.mem_range.mp hi
    by_cases hrp : r = p
    · subst hrp
      show leadDigit r (fracTurn _) + 1 ≠ r
      rw [leadDigit_turn_same hp, show leadDigit r t.turn + (i + 1) = i + r by omega, Nat.add_mod_right,
        Nat.mod_eq_of_lt (by omega)]
      omega
    · show leadDigit r (fracTurn _) + 1 ≠ r
      rw [leadDigit_turn_other hp hr hrp]
      exact h.resolve_left hrp
  · rw [List.mem_singleton] at hu
    subst hu
    rcases h with rfl | h
    · exact hd
    · exact h

theorem expandAll_goodAt {ps : List Nat} (hps : ∀ p ∈ ps, p.Prime) {r : Nat} (hr : r.Prime)
    (ts : List RootTerm) (h : r ∈ ps ∨ ∀ t ∈ ts, GoodAt r t.turn) :
    ∀ u ∈ ps.foldl (fun ts p => ts.flatMap (expandAt p)) ts, GoodAt r u.turn := by
  induction ps generalizing ts with
  | nil =>
    rcases h with h | h
    · simp at h
    · exact h
  | cons p ps ih =>
    rw [List.foldl_cons]
    refine ih (fun q hq => hps q (List.mem_cons_of_mem _ hq)) _ ?_
    by_cases hmem : r ∈ ps
    · exact .inl hmem
    · refine .inr fun u hu => ?_
      obtain ⟨t, ht, hut⟩ := List.mem_flatMap.mp hu
      refine expandAt_goodAt (hps p List.mem_cons_self) hr hut ?_
      rcases h with h | h
      · rcases List.mem_cons.mp h with h | h
        · exact .inl h
        · exact absurd h hmem
      · exact .inr (h t ht)

theorem fracTurn_range (q : Rat) : 0 ≤ fracTurn q ∧ fracTurn q < 1 := by
  have h1 : ((q.floor : Int) : Rat) ≤ q := Rat.floor_le q
  have h2 : q < ((q.floor : Int) : Rat) + 1 := by
    have := Rat.lt_floor_add_one q
    push_cast at this
    exact this
  unfold fracTurn
  constructor <;> linarith

theorem expandAll_range {ps : List Nat} (ts : List RootTerm) (h : ∀ t ∈ ts, 0 ≤ t.turn ∧ t.turn < 1) :
    ∀ u ∈ ps.foldl (fun ts p => ts.flatMap (expandAt p)) ts, 0 ≤ u.turn ∧ u.turn < 1 := by
  induction ps generalizing ts with
  | nil => exact h
  | cons p ps ih =>
    rw [List.foldl_cons]
    refine ih _ fun u hu => ?_
    obtain ⟨t, ht, hut⟩ := List.mem_flatMap.mp hu
    unfold expandAt at hut
    split_ifs at hut
    · obtain ⟨i, _, rfl⟩ := List.mem_map.mp hut
      exact fracTurn_range _
    · rw [List.mem_singleton] at hut
      subst hut
      exact h _ ht

/-- Reduction gives terms whose roots are in the canonical basis. -/
theorem reduceTerm_basis {t u : RootTerm} (hu : u ∈ reduceTerm t) : basisTurn u.turn = true := by
  have hrange : 0 ≤ u.turn ∧ u.turn < 1 := by
    refine expandAll_range _ (fun x hx => ?_) u hu
    rw [List.mem_singleton] at hx
    subst hx
    exact fracTurn_range _
  simp only [basisTurn, Bool.and_eq_true, decide_eq_true_eq, List.all_eq_true, bne_iff_ne, ne_eq]
  refine ⟨hrange, fun r hr => ?_⟩
  have hrp := prime_of_mem_primeDivisors hr
  refine expandAll_goodAt (fun p hp => prime_of_mem_primeDivisors hp) hrp _ ?_ u hu
  by_cases hd : r ∣ (fracTurn t.turn).den
  · exact .inl (mem_primeDivisors hrp (Rat.den_pos _) hd)
  · refine .inr fun x hx => ?_
    rw [List.mem_singleton] at hx
    subst hx
    show leadDigit r (fracTurn t.turn) + 1 ≠ r
    rw [leadDigit_of_not_dvd hrp hd]
    have := hrp.two_le
    omega

/-! ## Every operation gives canonical form -/

theorem rising_iff {ts : List RootTerm} : risingTerms ts = true ↔ ts.Pairwise RootTerm.Before := by
  induction ts with
  | nil => simp [risingTerms]
  | cons t ts ih =>
    cases ts with
    | nil => simp [risingTerms]
    | cons u us =>
      rw [risingTerms, Bool.and_eq_true, decide_eq_true_eq, ih, List.pairwise_cons (a := t)]
      refine and_congr_left fun hp => ⟨fun h x hx => ?_, fun h => h u List.mem_cons_self⟩
      rcases List.mem_cons.mp hx with rfl | hx
      · exact h
      · exact h.trans ((List.pairwise_cons.mp hp).1 x hx)

theorem risingSymbols_iff {ns : List Nat} : risingSymbols ns = true ↔ ns.Pairwise (· ≤ ·) := by
  induction ns with
  | nil => simp [risingSymbols]
  | cons m ns ih =>
    cases ns with
    | nil => simp [risingSymbols]
    | cons n ns =>
      rw [risingSymbols, Bool.and_eq_true, decide_eq_true_eq, ih, List.pairwise_cons (a := m)]
      refine and_congr_left fun hp => ⟨fun h x hx => ?_, fun h => h n List.mem_cons_self⟩
      rcases List.mem_cons.mp hx with rfl | hx
      · exact h
      · exact h.trans ((List.pairwise_cons.mp hp).1 x hx)

/-- The root is in the canonical basis, and the symbols are in rising order. -/
abbrev RootTerm.Basic (t : RootTerm) : Prop := basisTurn t.turn = true ∧ t.symbols.Pairwise (· ≤ ·)

theorem expandAt_symbols {p : Nat} {t u : RootTerm} (hu : u ∈ expandAt p t) : u.symbols = t.symbols := by
  unfold expandAt at hu
  split_ifs at hu
  · obtain ⟨i, _, rfl⟩ := List.mem_map.mp hu
    rfl
  · rw [List.mem_singleton.mp hu]

theorem expandAll_symbols {ps : List Nat} {y : List Nat} (ts : List RootTerm) (h : ∀ t ∈ ts, t.symbols = y) :
    ∀ u ∈ ps.foldl (fun ts p => ts.flatMap (expandAt p)) ts, u.symbols = y := by
  induction ps generalizing ts with
  | nil => exact h
  | cons p ps ih =>
    rw [List.foldl_cons]
    refine ih _ fun u hu => ?_
    obtain ⟨t, ht, hut⟩ := List.mem_flatMap.mp hu
    exact (expandAt_symbols hut).trans (h t ht)

theorem reduceTerm_symbols {t u : RootTerm} (hu : u ∈ reduceTerm t) :
    u.symbols = t.symbols.insertionSort (· ≤ ·) :=
  expandAll_symbols _ (fun x hx => by rw [List.mem_singleton.mp hx]) u hu

theorem reduceTerm_basic {t u : RootTerm} (hu : u ∈ reduceTerm t) : u.Basic :=
  ⟨reduceTerm_basis hu, reduceTerm_symbols hu ▸ List.pairwise_insertionSort (· ≤ ·) _⟩

/-- Canonical form: collected, with every term basic. -/
theorem Cplx.wf_iff (z : Cplx) : z.wf = true ↔ Collected z.terms ∧ ∀ t ∈ z.terms, t.Basic := by
  simp only [Cplx.wf, Bool.and_eq_true, List.all_eq_true, bne_iff_ne, ne_eq, Collected, rising_iff, risingSymbols_iff]
  constructor
  · rintro ⟨h1, h2⟩
    exact ⟨⟨h1, fun t ht => (h2 t ht).1.1⟩, fun t ht => ⟨(h2 t ht).1.2, (h2 t ht).2⟩⟩
  · rintro ⟨⟨h1, h2⟩, h3⟩
    exact ⟨h1, fun t ht => ⟨⟨h2 t ht, (h3 t ht).1⟩, (h3 t ht).2⟩⟩

theorem Cplx.wf_collect {ts : List RootTerm} (h : ∀ t ∈ ts, t.Basic) :
    (Cplx.collect ts).wf = true := by
  rw [Cplx.wf_iff]
  refine ⟨collect_collected ts, fun t ht => ?_⟩
  obtain ⟨y, hy, e⟩ := key_of_mem_collect ht
  rw [RootTerm.Basic, e.1, e.2]
  exact h y hy

@[simp] theorem Cplx.wf_ofTerms (ts : List RootTerm) : (Cplx.ofTerms ts).wf = true :=
  Cplx.wf_collect fun u hu => by
    obtain ⟨t, _, h⟩ := List.mem_flatMap.mp hu
    exact reduceTerm_basic h

@[simp] theorem Cplx.wf_zero : Cplx.zero.wf = true := rfl
@[simp] theorem Cplx.wf_ofRat (q : Rat) : (Cplx.ofRat q).wf = true := Cplx.wf_ofTerms _
@[simp] theorem Cplx.wf_cart (a b : Rat) : (Cplx.cart a b).wf = true := Cplx.wf_ofTerms _
@[simp] theorem Cplx.wf_ofParts (a b : Part) : (Cplx.ofParts a b).wf = true := Cplx.wf_ofTerms _
@[simp] theorem Cplx.wf_symbol (n : Nat) : (Cplx.symbol n).wf = true := Cplx.wf_ofTerms _
@[simp] theorem Cplx.wf_root (q : Rat) : (Cplx.root q).wf = true := Cplx.wf_ofTerms _
@[simp] theorem Cplx.wf_mul (a b : Cplx) : (a.mul b).wf = true := Cplx.wf_ofTerms _

theorem Cplx.wf_add {a b : Cplx} (ha : a.wf = true) (hb : b.wf = true) : (a.add b).wf = true :=
  Cplx.wf_collect fun t ht => by
    rcases List.mem_append.mp ht with h | h
    · exact ((Cplx.wf_iff a).mp ha).2 t h
    · exact ((Cplx.wf_iff b).mp hb).2 t h

theorem Cplx.wf_scale {a : Cplx} (q : Rat) (ha : a.wf = true) : (a.scale q).wf = true :=
  Cplx.wf_collect fun t ht => by
    obtain ⟨u, hu, rfl⟩ := List.mem_map.mp ht
    exact ((Cplx.wf_iff a).mp ha).2 u hu

theorem Cplx.wf_sum {xs : Vec} (h : ∀ x ∈ xs, x.wf = true) : (Cplx.sum xs).wf = true :=
  Cplx.wf_collect fun t ht => by
    obtain ⟨x, hx, h'⟩ := List.mem_flatMap.mp ht
    exact ((Cplx.wf_iff x).mp (h x hx)).2 t h'

end Sys2Proof
end

