-- ==== Sys2Proof/Laws/CplxValue.lean ====
section
/-! SUPPORT. The arithmetic on samples computes what R18 says: each operation's complex value, for every assignment to the
symbols and with no condition on the form of its operands. -/

namespace Sys2Proof

open Complex

variable (ρ : Valuation)

/-! ## Sums of terms -/

@[simp] theorem termsValue_nil : termsValue ρ [] = 0 := rfl

@[simp] theorem termsValue_cons (t : RootTerm) (ts : List RootTerm) :
    termsValue ρ (t :: ts) = t.toComplex ρ + termsValue ρ ts := by simp [termsValue]

@[simp] theorem termsValue_append (ts us : List RootTerm) :
    termsValue ρ (ts ++ us) = termsValue ρ ts + termsValue ρ us := by simp [termsValue]

theorem termsValue_flatMap {α : Type} (f : α → List RootTerm) (l : List α) :
    termsValue ρ (l.flatMap f) = (l.map fun x => termsValue ρ (f x)).sum := by
  induction l with
  | nil => simp
  | cons x xs ih => simp [ih]

theorem RootTerm.toComplex_coeff_zero (q : Rat) (y : List Nat) : (⟨q, 0, y⟩ : RootTerm).toComplex ρ = 0 := by
  simp [RootTerm.toComplex]

theorem RootTerm.toComplex_add_coeff (q c d : Rat) (y : List Nat) :
    (⟨q, c + d, y⟩ : RootTerm).toComplex ρ
      = (⟨q, c, y⟩ : RootTerm).toComplex ρ + (⟨q, d, y⟩ : RootTerm).toComplex ρ := by
  simp [RootTerm.toComplex, right_distrib]

theorem RootTerm.toComplex_mul (s t : RootTerm) : (s.mul t).toComplex ρ = s.toComplex ρ * t.toComplex ρ := by
  simp only [RootTerm.toComplex, RootTerm.mul, List.map_append, List.prod_append]
  rw [mul_mul_mul_comm (_ * _), mul_mul_mul_comm (s.coeff : ℂ), ← Complex.exp_add]
  push_cast
  ring_nf

/-- A turn counts modulo 1. -/
theorem RootTerm.toComplex_fracTurn (q c : Rat) (y : List Nat) :
    (⟨fracTurn q, c, y⟩ : RootTerm).toComplex ρ = (⟨q, c, y⟩ : RootTerm).toComplex ρ := by
  simp only [RootTerm.toComplex, fracTurn]
  push_cast
  rw [mul_sub, Complex.exp_sub]
  have h : Complex.exp (2 * Real.pi * I * ((q.floor : ℤ) : ℂ)) = 1 := by
    rw [mul_comm]; exact Complex.exp_int_mul_two_pi_mul_I _
  rw [h, div_one]

/-! ## The canonical form keeps the value -/

theorem insertTerm_value (t : RootTerm) (l : List RootTerm) :
    termsValue ρ (insertTerm t l) = t.toComplex ρ + termsValue ρ l := by
  obtain ⟨q, c, y⟩ := t
  induction l with
  | nil =>
    simp only [insertTerm]
    split_ifs with h
    · subst h; simp [RootTerm.toComplex_coeff_zero]
    · simp
  | cons u us ih =>
    obtain ⟨q', c', y'⟩ := u
    simp only [insertTerm]
    split_ifs with h1 h2 h3 h4
    · subst h2; simp [RootTerm.toComplex_coeff_zero]
    · simp
    · obtain ⟨rfl, rfl⟩ := h3
      have := RootTerm.toComplex_add_coeff ρ q c c' y
      rw [h4, RootTerm.toComplex_coeff_zero] at this
      simp [← add_assoc, ← this]
    · obtain ⟨rfl, rfl⟩ := h3
      simp [RootTerm.toComplex_add_coeff, add_assoc]
    · simp only [termsValue_cons, ih]; ring

@[simp] theorem Cplx.toComplex_collect (ts : List RootTerm) : (Cplx.collect ts).toComplex ρ = termsValue ρ ts := by
  unfold Cplx.collect Cplx.toComplex
  induction ts with
  | nil => simp
  | cons t ts ih => simp only [List.foldr_cons, insertTerm_value, ih, termsValue_cons]

/-- A sum over `List.range` is the sum over `Finset.range`. -/
theorem sum_map_range {M : Type} [AddCommMonoid M] (n : Nat) (f : Nat → M) :
    ((List.range n).map f).sum = ∑ i ∈ Finset.range n, f i := by
  induction n with
  | zero => simp
  | succ n ih => rw [List.range_succ, List.map_append, List.sum_append, ih, Finset.sum_range_succ]; simp

/-- The relation of the prime (here any) `p`: the other `p - 1` roots sum to minus the root. -/
theorem otherRoots_value (p : Nat) (hp : 2 ≤ p) (q c : Rat) (y : List Nat) :
    termsValue ρ ((List.range (p - 1)).map fun i =>
      (⟨fracTurn (q + ((i + 1 : Nat) : Rat) / (p : Rat)), -c, y⟩ : RootTerm)) = (⟨q, c, y⟩ : RootTerm).toComplex ρ := by
  have hsum := (Complex.isPrimitiveRoot_exp p (by omega)).geom_sum_eq_zero (by omega)
  obtain ⟨n, rfl⟩ : ∃ n, p = n + 1 := ⟨p - 1, by omega⟩
  rw [Finset.sum_range_succ', pow_zero, add_eq_zero_iff_eq_neg] at hsum
  have hterm : ∀ i : Nat, (⟨fracTurn (q + ((i + 1 : Nat) : Rat) / ((n + 1 : Nat) : Rat)), -c, y⟩ : RootTerm).toComplex ρ
      = -(⟨q, c, y⟩ : RootTerm).toComplex ρ * Complex.exp (2 * Real.pi * I / ((n + 1 : Nat) : ℂ)) ^ (i + 1) := by
    intro i
    rw [RootTerm.toComplex_fracTurn]
    simp only [RootTerm.toComplex]
    rw [← Complex.exp_nat_mul, neg_mul, mul_right_comm ((c : ℂ) * _), mul_assoc (c : ℂ), ← Complex.exp_add]
    push_cast
    rw [neg_mul, neg_mul]
    congr 4
    field_simp
  unfold termsValue
  rw [List.map_map, Nat.add_sub_cancel, sum_map_range]
  simp only [Function.comp_apply, hterm]
  rw [← Finset.mul_sum, hsum]
  ring

theorem primeDivisors_ge_two {p n : Nat} (h : p ∈ primeDivisors n) : 2 ≤ p := by
  simp only [primeDivisors, List.mem_filter, Bool.and_eq_true, decide_eq_true_eq] at h
  exact h.2.1.1

theorem expandAt_value (p : Nat) (hp : 2 ≤ p) (t : RootTerm) : termsValue ρ (expandAt p t) = t.toComplex ρ := by
  unfold expandAt
  split_ifs
  · exact otherRoots_value ρ p hp t.turn t.coeff t.symbols
  · simp

theorem reduceTerm_value (t : RootTerm) : termsValue ρ (reduceTerm t) = t.toComplex ρ := by
  have key : ∀ (ps : List Nat) (ts : List RootTerm), (∀ p ∈ ps, 2 ≤ p) →
      termsValue ρ (ps.foldl (fun ts p => ts.flatMap (expandAt p)) ts) = termsValue ρ ts := by
    intro ps
    induction ps with
    | nil => intros; rfl
    | cons p ps ih =>
      intro ts h
      rw [List.foldl_cons, ih _ fun q hq => h q (List.mem_cons_of_mem _ hq), termsValue_flatMap]
      simp only [expandAt_value ρ p (h p List.mem_cons_self)]
      rfl
  have sorted : ((t.symbols.insertionSort (· ≤ ·)).map ρ).prod = (t.symbols.map ρ).prod :=
    ((List.perm_insertionSort (· ≤ ·) t.symbols).map ρ).prod_eq
  rw [reduceTerm, key _ _ fun p hp => primeDivisors_ge_two hp, termsValue_cons, termsValue_nil, add_zero,
    RootTerm.toComplex_fracTurn]
  simp only [RootTerm.toComplex, sorted]

@[simp] theorem Cplx.toComplex_ofTerms (ts : List RootTerm) : (Cplx.ofTerms ts).toComplex ρ = termsValue ρ ts := by
  simp only [Cplx.ofTerms, Cplx.toComplex_collect, termsValue_flatMap, reduceTerm_value]
  rfl

/-! ## One lemma per operation -/

@[simp] theorem Cplx.toComplex_zero : Cplx.zero.toComplex ρ = 0 := rfl

@[simp] theorem Cplx.toComplex_ofRat (q : Rat) : (Cplx.ofRat q).toComplex ρ = (q : ℂ) := by
  simp [Cplx.ofRat, RootTerm.toComplex]

@[simp] theorem Cplx.toComplex_root (q : Rat) :
    (Cplx.root q).toComplex ρ = Complex.exp (2 * Real.pi * I * (q : ℂ)) := by
  simp [Cplx.root, RootTerm.toComplex]

/-- A symbol is the number assigned to it. -/
@[simp] theorem Cplx.toComplex_symbol (n : Nat) : (Cplx.symbol n).toComplex ρ = ρ n := by
  simp [Cplx.symbol, RootTerm.toComplex]

theorem Part.toComplex_term (turn : Rat) (a : Part) :
    (a.term turn).toComplex ρ = a.toComplex ρ * Complex.exp (2 * Real.pi * I * (turn : ℂ)) := by
  cases a <;> simp [Part.term, Part.toComplex, RootTerm.toComplex, mul_comm]

/-- The source's pair `(a, b)` is `a + b·j` (R18). -/
@[simp] theorem Cplx.toComplex_ofParts (a b : Part) :
    (Cplx.ofParts a b).toComplex ρ = a.toComplex ρ + b.toComplex ρ * I := by
  have h : (2 * Real.pi * I * (((1 / 4 : Rat) : Rat) : ℂ) : ℂ) = Real.pi / 2 * I := by push_cast; ring
  simp only [Cplx.ofParts, Cplx.toComplex_ofTerms, termsValue_cons, termsValue_nil, Part.toComplex_term, h,
    Complex.exp_pi_div_two_mul_I]
  simp

theorem Cplx.toComplex_cart (a b : Rat) : (Cplx.cart a b).toComplex ρ = (a : ℂ) + (b : ℂ) * I :=
  Cplx.toComplex_ofParts ρ _ _

@[simp] theorem Cplx.toComplex_add (a b : Cplx) : (a.add b).toComplex ρ = a.toComplex ρ + b.toComplex ρ := by
  rw [Cplx.add, Cplx.toComplex_collect, termsValue_append]; rfl

@[simp] theorem Cplx.toComplex_mul (a b : Cplx) : (a.mul b).toComplex ρ = a.toComplex ρ * b.toComplex ρ := by
  have inner : ∀ (s : RootTerm) (us : List RootTerm),
      termsValue ρ (us.map (RootTerm.mul s)) = s.toComplex ρ * termsValue ρ us := by
    intro s us
    induction us with
    | nil => simp
    | cons u us ih => simp [RootTerm.toComplex_mul, ih, left_distrib]
  rw [Cplx.mul, Cplx.toComplex_ofTerms, termsValue_flatMap]
  simp only [inner]
  rw [List.sum_map_mul_right]
  rfl

@[simp] theorem Cplx.toComplex_scale (q : Rat) (a : Cplx) : (a.scale q).toComplex ρ = (q : ℂ) * a.toComplex ρ := by
  rw [Cplx.scale, Cplx.toComplex_collect, Cplx.toComplex]
  induction a.terms with
  | nil => simp
  | cons t ts ih =>
    simp only [List.map_cons, termsValue_cons, ih, RootTerm.toComplex]
    push_cast
    ring

@[simp] theorem Cplx.toComplex_neg (a : Cplx) : a.neg.toComplex ρ = -a.toComplex ρ := by
  simp [Cplx.neg]

@[simp] theorem Cplx.toComplex_sum (xs : Vec) : (Cplx.sum xs).toComplex ρ = (xs.map (Cplx.toComplex ρ)).sum := by
  simp only [Cplx.sum, Cplx.toComplex_collect, termsValue_flatMap]
  rfl

/-- `Σ_{i=0}^{n-1}` (R17). -/
theorem Cplx.toComplex_sum_range (n : Nat) (f : Nat → Cplx) :
    (Cplx.sum ((List.range n).map f)).toComplex ρ = ∑ i ∈ Finset.range n, (f i).toComplex ρ := by
  rw [Cplx.toComplex_sum, List.map_map, sum_map_range]
  rfl

end Sys2Proof
end

