-- ==== Sys2Proof/Laws/CplxSqrt.lean ====
section
/-! SUPPORT. The exact square root used for FFT_SCALE = INV_SQRT_L (R12) is the positive square root: the product of sines
`Π_{k=1}^{n-1} 2·sin(πk/(2n))` is `sqrt(n)` (log 11). -/

namespace Sys2Proof

open Complex

/-- One factor: `2·sin(πk/m)`. -/
theorem norm_one_sub_root (m k : Nat) (hm : 0 < m) (hk : k ≤ m) :
    ‖(1 : ℂ) - Complex.exp (2 * Real.pi * I / m) ^ k‖ = 2 * Real.sin (Real.pi * k / m) := by
  have hm' : (m : ℂ) ≠ 0 := by exact_mod_cast hm.ne'
  have hx : (1 : ℂ) - Complex.exp (2 * Real.pi * I / m) ^ k
      = -(Complex.exp (((Real.pi * k / m : ℝ) : ℂ) * I)) * (2 * I * Complex.sin ((Real.pi * k / m : ℝ) : ℂ)) := by
    rw [← Complex.exp_nat_mul]
    have h2 : ((k : ℂ) * (2 * Real.pi * I / m)) = ((Real.pi * k / m : ℝ) : ℂ) * I + ((Real.pi * k / m : ℝ) : ℂ) * I := by
      push_cast; field_simp; ring
    rw [h2, Complex.exp_add, Complex.sin]
    have hI : I * I = -1 := Complex.I_mul_I
    have he : Complex.exp (((Real.pi * k / m : ℝ) : ℂ) * I) * Complex.exp (-((Real.pi * k / m : ℝ) : ℂ) * I) = 1 := by
      rw [← Complex.exp_add]; simp
    generalize Complex.exp (((Real.pi * k / m : ℝ) : ℂ) * I) = E at *
    generalize Complex.exp (-((Real.pi * k / m : ℝ) : ℂ) * I) = F at *
    linear_combination (E * F - E * E) * hI - he
  rw [hx, norm_mul, norm_neg, Complex.norm_exp_ofReal_mul_I, one_mul, norm_mul, ← Complex.ofReal_sin]
  have hs : 0 ≤ Real.sin (Real.pi * k / m) := by
    apply Real.sin_nonneg_of_nonneg_of_le_pi
    · positivity
    · rw [div_le_iff₀ (by exact_mod_cast hm)]
      exact mul_le_mul_of_nonneg_left (by exact_mod_cast hk) Real.pi_pos.le
  rw [Complex.norm_real, Real.norm_of_nonneg hs]
  simp

/-- All the factors of `m`: their product is `m`. -/
theorem prod_sines (m : Nat) (hm : 0 < m) :
    ∏ k ∈ Finset.range (m - 1), 2 * Real.sin (Real.pi * ((k + 1 : Nat) : ℝ) / m) = m := by
  obtain ⟨n, rfl⟩ : ∃ n, m = n + 1 := ⟨m - 1, by omega⟩
  have h := (Complex.isPrimitiveRoot_exp (n + 1) (by omega)).prod_one_sub_pow_eq_order
  have h' := congrArg norm h
  rw [norm_prod] at h'
  have hn : ‖((n : ℂ) + 1)‖ = ((n + 1 : Nat) : ℝ) := by
    rw [← Nat.cast_succ, Complex.norm_natCast]
  rw [hn] at h'
  rw [Nat.add_sub_cancel]
  refine Eq.trans ?_ h'
  refine Finset.prod_congr rfl fun k hk => ?_
  have hk' := Finset.mem_range.mp hk
  rw [norm_one_sub_root (n + 1) (k + 1) (by omega) (by omega)]

/-- Half of the factors of `2n`: their product is `sqrt(n)`. -/
theorem prod_half_sines (n : Nat) (hn : 0 < n) :
    ∏ k ∈ Finset.range (n - 1), 2 * Real.sin (Real.pi * ((k + 1 : Nat) : ℝ) / ((2 * n : Nat) : ℝ)) = Real.sqrt n := by
  have hall := prod_sines (2 * n) (by omega)
  have hn' : (n : ℝ) ≠ 0 := by exact_mod_cast hn.ne'
  rw [show 2 * n - 1 = (n - 1) + 1 + (n - 1) by omega, Finset.prod_range_add, Finset.prod_range_succ] at hall
  have hmid : Real.sin (Real.pi * ((n - 1 + 1 : Nat) : ℝ) / ((2 * n : Nat) : ℝ)) = 1 := by
    rw [Nat.sub_add_cancel hn, show Real.pi * (n : ℝ) / ((2 * n : Nat) : ℝ) = Real.pi / 2 by push_cast; field_simp]
    exact Real.sin_pi_div_two
  have hrefl : ∏ x ∈ Finset.range (n - 1), 2 * Real.sin (Real.pi * ((n - 1 + 1 + x + 1 : Nat) : ℝ) / ((2 * n : Nat) : ℝ))
      = ∏ k ∈ Finset.range (n - 1), 2 * Real.sin (Real.pi * ((k + 1 : Nat) : ℝ) / ((2 * n : Nat) : ℝ)) := by
    rw [← Finset.prod_range_reflect]
    refine Finset.prod_congr rfl fun k hk => ?_
    have hk' := Finset.mem_range.mp hk
    rw [← Real.sin_pi_sub]
    congr 2
    rw [show n - 1 + 1 + (n - 1 - 1 - k) + 1 = 2 * n - (k + 1) by omega, Nat.cast_sub (by omega)]
    push_cast
    field_simp
    ring
  rw [hmid, hrefl] at hall
  have hnn : 0 ≤ ∏ k ∈ Finset.range (n - 1), 2 * Real.sin (Real.pi * ((k + 1 : Nat) : ℝ) / ((2 * n : Nat) : ℝ)) := by
    refine Finset.prod_nonneg fun k hk => ?_
    have hk' := Finset.mem_range.mp hk
    refine mul_nonneg (by norm_num) (Real.sin_nonneg_of_nonneg_of_le_pi (by positivity) ?_)
    rw [div_le_iff₀ (by positivity)]
    refine mul_le_mul_of_nonneg_left ?_ Real.pi_pos.le
    exact_mod_cast (by omega : k + 1 ≤ 2 * n)
  symm
  rw [Real.sqrt_eq_iff_mul_self_eq (by positivity) hnn]
  generalize (∏ k ∈ Finset.range (n - 1), 2 * Real.sin (Real.pi * ((k + 1 : Nat) : ℝ) / ((2 * n : Nat) : ℝ))) = P at *
  push_cast at hall
  linarith

/-- One factor of `sqrtNat`. -/
theorem sine_factor_value (ρ : Valuation) (n i : Nat) (hn : 0 < n) :
    ((Cplx.root (1 / 4 - ((i + 1 : Nat) : Rat) / ((4 * n : Nat) : Rat))).add
      (Cplx.root (((i + 1 : Nat) : Rat) / ((4 * n : Nat) : Rat) - 1 / 4))).toComplex ρ
      = ((2 * Real.sin (Real.pi * ((i + 1 : Nat) : ℝ) / ((2 * n : Nat) : ℝ)) : ℝ) : ℂ) := by
  have hn' : (n : ℂ) ≠ 0 := by exact_mod_cast hn.ne'
  rw [Cplx.toComplex_add, Cplx.toComplex_root, Cplx.toComplex_root]
  have h1 : (2 * Real.pi * I * ((1 / 4 - ((i + 1 : Nat) : Rat) / ((4 * n : Nat) : Rat) : Rat) : ℂ) : ℂ)
      = ((Real.pi / 2 - Real.pi * ((i + 1 : Nat) : ℝ) / ((2 * n : Nat) : ℝ) : ℝ) : ℂ) * I := by
    push_cast; field_simp; ring
  have h2 : (2 * Real.pi * I * ((((i + 1 : Nat) : Rat) / ((4 * n : Nat) : Rat) - 1 / 4 : Rat) : ℂ) : ℂ)
      = -((Real.pi / 2 - Real.pi * ((i + 1 : Nat) : ℝ) / ((2 * n : Nat) : ℝ) : ℝ) : ℂ) * I := by
    push_cast; field_simp; ring
  rw [h1, h2, ← Complex.two_cos, ← Complex.ofReal_cos, Real.cos_pi_div_two_sub]
  push_cast
  ring

/-- `sqrtNat n` is the positive square root of `n`. -/
theorem Cplx.toComplex_sqrtNat (ρ : Valuation) (n : Nat) (hn : 0 < n) :
    (Cplx.sqrtNat n).toComplex ρ = ((Real.sqrt n : ℝ) : ℂ) := by
  have key : ∀ m : Nat, ((List.range m).foldl (fun acc i =>
      acc.mul ((Cplx.root (1 / 4 - ((i + 1 : Nat) : Rat) / ((4 * n : Nat) : Rat))).add
        (Cplx.root (((i + 1 : Nat) : Rat) / ((4 * n : Nat) : Rat) - 1 / 4)))) (Cplx.ofRat 1)).toComplex ρ
      = ((∏ k ∈ Finset.range m, 2 * Real.sin (Real.pi * ((k + 1 : Nat) : ℝ) / ((2 * n : Nat) : ℝ)) : ℝ) : ℂ) := by
    intro m
    induction m with
    | zero => simp
    | succ m ih =>
      rw [List.range_succ, List.foldl_append, List.foldl_cons, List.foldl_nil, Cplx.toComplex_mul, ih,
        sine_factor_value ρ n m hn, Finset.prod_range_succ]
      push_cast
      ring
  rw [← prod_half_sines n hn, ← key]
  rfl

/-- `1/sqrt(n)` (R12). -/
theorem Cplx.toComplex_invSqrtNat (ρ : Valuation) (n : Nat) (hn : 0 < n) :
    (Cplx.invSqrtNat n).toComplex ρ = ((1 / Real.sqrt n : ℝ) : ℂ) := by
  rw [Cplx.invSqrtNat, Cplx.toComplex_scale, Cplx.toComplex_sqrtNat ρ n hn]
  have h : (1 / Real.sqrt n : ℝ) = (1 / (n : ℝ)) * Real.sqrt n := by
    have hs : Real.sqrt n ≠ 0 := (Real.sqrt_pos.mpr (by exact_mod_cast hn)).ne'
    have hsq : Real.sqrt n * Real.sqrt n = n := Real.mul_self_sqrt (by positivity)
    have hn' : (n : ℝ) ≠ 0 := by exact_mod_cast hn.ne'
    field_simp
    rw [pow_two, hsq]
  rw [h]
  push_cast
  rfl

end Sys2Proof
end

