-- ==== Sys2Proof/Laws/CplxUnique.lean ====
section
/-! SUPPORT. Why the canonical form is unique. The roots of the canonical basis are linearly independent over the
rationals: with a common denominator `n` they span the `n`-th roots of unity, whose span has dimension `φ(n)`, and there
are at most `φ(n)` of them. And a sample is a polynomial in its symbols, whose coefficients are sums over those roots. -/

namespace Sys2Proof

open Complex

/-- `exp(2πj · turn)`. -/
noncomputable def rootValue (turn : Rat) : ℂ := Complex.exp (2 * Real.pi * Complex.I * (turn : ℂ))

theorem RootTerm.toComplex_eq (ρ : Valuation) (t : RootTerm) :
    t.toComplex ρ = t.coeff • rootValue t.turn * (t.symbols.map ρ).prod := by
  rw [Rat.smul_def]; rfl

/-- The turns of the canonical basis with denominator `n`. -/
def basisTurns (n : Nat) : Finset Rat :=
  ((Finset.range n).image fun a : Nat => (a : Rat) / (n : Rat)).filter fun q => basisTurn q = true

theorem basisTurn_range {q : Rat} (h : basisTurn q = true) : 0 ≤ q ∧ q < 1 := by
  simp only [basisTurn, Bool.and_eq_true, decide_eq_true_eq] at h
  exact h.1

theorem basisTurn_digit {q : Rat} (h : basisTurn q = true) {p : Nat} (hp : p.Prime) : leadDigit p q + 1 ≠ p := by
  by_cases hd : p ∣ q.den
  · simp only [basisTurn, Bool.and_eq_true, List.all_eq_true, bne_iff_ne, ne_eq] at h
    exact h.2 p (mem_primeDivisors hp q.den_pos hd)
  · rw [leadDigit_of_not_dvd hp hd]
    have := hp.two_le
    omega

theorem basisTurn_of_digits {q : Rat} (h0 : 0 ≤ q) (h1 : q < 1)
    (h : ∀ p, p.Prime → p ∣ q.den → leadDigit p q + 1 ≠ p) : basisTurn q = true := by
  simp only [basisTurn, Bool.and_eq_true, decide_eq_true_eq, List.all_eq_true, bne_iff_ne, ne_eq]
  refine ⟨⟨h0, h1⟩, fun p hp => h p (prime_of_mem_primeDivisors hp) ?_⟩
  simp only [primeDivisors, List.mem_filter, Bool.and_eq_true, beq_iff_eq] at hp
  exact Nat.dvd_of_mod_eq_zero hp.2.1.2

theorem eq_div_of_den_dvd {q : Rat} {n : Nat} (hn : 0 < n) (hd : q.den ∣ n) (h0 : 0 ≤ q) (h1 : q < 1) :
    ∃ a < n, q = (a : Rat) / (n : Rat) := by
  obtain ⟨m, rfl⟩ := hd
  have hm : 0 < m := Nat.pos_of_mul_pos_left hn
  have hden : (q.den : Rat) ≠ 0 := by exact_mod_cast q.den_pos.ne'
  have hm0 : (m : Rat) ≠ 0 := by exact_mod_cast hm.ne'
  have hnum : 0 ≤ q.num := Rat.num_nonneg.mpr h0
  obtain ⟨c, hc⟩ := Int.eq_ofNat_of_zero_le hnum
  have hq : q = (c : Rat) / (q.den : Rat) := by
    conv_lhs => rw [← Rat.num_div_den q]
    rw [hc]; rfl
  have hlt : c < q.den := by
    rw [hq, div_lt_one (by exact_mod_cast q.den_pos)] at h1
    exact_mod_cast h1
  refine ⟨c * m, Nat.mul_lt_mul_of_pos_right hlt hm, ?_⟩
  conv_lhs => rw [hq]
  push_cast
  field_simp

theorem mem_basisTurns {q : Rat} {n : Nat} (hn : 0 < n) (hb : basisTurn q = true) (hd : q.den ∣ n) :
    q ∈ basisTurns n := by
  obtain ⟨h0, h1⟩ := basisTurn_range hb
  obtain ⟨a, ha, hq⟩ := eq_div_of_den_dvd hn hd h0 h1
  exact Finset.mem_filter.mpr ⟨Finset.mem_image.mpr ⟨a, Finset.mem_range.mpr ha, hq.symm⟩, hb⟩

theorem of_mem_basisTurns {q : Rat} {n : Nat} (h : q ∈ basisTurns n) :
    basisTurn q = true ∧ ∃ a < n, q = (a : Rat) / (n : Rat) := by
  obtain ⟨h1, h2⟩ := Finset.mem_filter.mp h
  obtain ⟨a, ha, rfl⟩ := Finset.mem_image.mp h1
  exact ⟨h2, a, Finset.mem_range.mp ha, rfl⟩

/-! ## At most `φ(n)` turns -/

/-- A summand without `p` in its denominator does not change the digit at `p`. -/
theorem leadDigit_add {p : Nat} (hp : p.Prime) (q : Rat) {z : Rat} (hz : ¬ p ∣ z.den) :
    leadDigit p (q + z) = leadDigit p q := by
  obtain ⟨k, x, hx, y, hy, e⟩ := exists_isPart_succ hp q
  have h1 : IsPart p (k + 1) x (q + z) := ⟨hx, y + z, den_add_dvd_not hp hy hz, by rw [e]; ring⟩
  rw [leadDigit_eq hp h1, leadDigit_eq hp ⟨hx, y, hy, e⟩]

theorem card_basisTurns_prime_pow {p k : Nat} (hp : p.Prime) (hk : 0 < k) :
    (basisTurns (p ^ k)).card ≤ (p ^ k).totient := by
  have hsub : basisTurns (p ^ k) ⊆ (Finset.range (p ^ k).totient).image fun a : Nat => (a : Rat) / ((p ^ k : Nat) : Rat) := by
    intro q hq
    obtain ⟨hb, a, ha, e⟩ := of_mem_basisTurns hq
    refine Finset.mem_image.mpr ⟨a, Finset.mem_range.mpr ?_, e.symm⟩
    have hpart : IsPart p k a q := ⟨ha, 0, fun h => hp.one_lt.ne' (Nat.dvd_one.mp h), by rw [e]; simp⟩
    have hdig := basisTurn_digit hb hp
    have hlt := leadDigit_lt hp q
    rw [leadDigit_eq hp hpart] at hdig hlt
    obtain ⟨j, rfl⟩ : ∃ j, k = j + 1 := ⟨k - 1, by omega⟩
    rw [pow_succ, Nat.mul_div_mul_right _ _ hp.pos] at hdig hlt
    rw [Nat.totient_prime_pow_succ hp, mul_comm]
    exact (Nat.div_lt_iff_lt_mul (pow_pos hp.pos j)).mp (by omega)
  calc (basisTurns (p ^ k)).card ≤ _ := Finset.card_le_card hsub
    _ ≤ (Finset.range (p ^ k).totient).card := Finset.card_image_le
    _ = _ := Finset.card_range _

theorem den_fracTurn_div_dvd (u : Int) (a : Nat) (ha : 0 < a) : (fracTurn ((u : Rat) / (a : Rat))).den ∣ a := by
  have ha0 : (a : Rat) ≠ 0 := by exact_mod_cast ha.ne'
  have : fracTurn ((u : Rat) / (a : Rat)) = ((u - ((u : Rat) / (a : Rat)).floor * a : Int) : Rat) / ((a : Int) : Rat) := by
    unfold fracTurn
    push_cast
    field_simp
  rw [this, ← Rat.divInt_eq_div]
  have := Rat.den_dvd (u - ((u : Rat) / (a : Rat)).floor * a) (a : Int)
  exact Int.natCast_dvd_natCast.mp this

theorem fracTurn_add_int (q : Rat) (z : Int) : ∃ w : Int, fracTurn (q + z) = q + w := by
  refine ⟨z - (q + z).floor, ?_⟩
  unfold fracTurn
  push_cast
  ring

/-- Two turns in `[0, 1)` that differ by an integer are equal. -/
theorem eq_of_range_of_sub_int {q r : Rat} (hq : 0 ≤ q ∧ q < 1) (hr : 0 ≤ r ∧ r < 1) {w : Int} (h : q = r + w) :
    q = r := by
  have h1 : (-1 : Rat) < (w : Rat) := by linarith [hq.1, hr.2]
  have h2 : (w : Rat) < 1 := by linarith [hq.2, hr.1]
  have h1' : (-1 : Int) < w := by exact_mod_cast h1
  have h2' : w < 1 := by exact_mod_cast h2
  have : w = 0 := by omega
  rw [h, this]; simp

theorem not_dvd_den_int {p : Nat} (hp : p.Prime) (w : Int) : ¬ p ∣ ((w : Rat)).den := by
  rw [Rat.den_intCast]
  exact hp.one_lt.ne' ∘ Nat.dvd_one.mp

theorem card_basisTurns_coprime {a b : Nat} (ha : 0 < a) (hb : 0 < b) (hab : a.Coprime b) :
    (basisTurns (a * b)).card ≤ (basisTurns a).card * (basisTurns b).card := by
  have ha0 : (a : Rat) ≠ 0 := by exact_mod_cast ha.ne'
  have hb0 : (b : Rat) ≠ 0 := by exact_mod_cast hb.ne'
  have hsub : basisTurns (a * b) ⊆ (basisTurns a ×ˢ basisTurns b).image fun xy => fracTurn (xy.1 + xy.2) := by
    intro q hq
    obtain ⟨hq1, c, _, e⟩ := of_mem_basisTurns hq
    -- the two parts of `q`
    obtain ⟨u, v, huv⟩ : ∃ u v : Int, (c : Int) = u * b + v * a := by
      have hbez := Nat.gcd_eq_gcd_ab a b
      rw [hab] at hbez
      refine ⟨c * Nat.gcdB a b, c * Nat.gcdA a b, ?_⟩
      have : (c : Int) = c * (a * Nat.gcdA a b + b * Nat.gcdB a b) := by rw [← hbez]; simp
      linear_combination this
    set x := fracTurn ((u : Rat) / (a : Rat)) with hx
    set y := fracTurn ((v : Rat) / (b : Rat)) with hy
    have hxd : x.den ∣ a := den_fracTurn_div_dvd u a ha
    have hyd : y.den ∣ b := den_fracTurn_div_dvd v b hb
    have hsum : ∃ w : Int, q = x + y + w := by
      refine ⟨((u : Rat) / (a : Rat)).floor + ((v : Rat) / (b : Rat)).floor, ?_⟩
      have hc : (c : Rat) = u * b + v * a := by exact_mod_cast huv
      rw [hx, hy, fracTurn, fracTurn, e, hc]
      push_cast
      field_simp
      ring
    obtain ⟨w, hw⟩ := hsum
    have hnot : ∀ {m n : Nat} {z : Rat} {p : Nat}, p.Prime → m.Coprime n → z.den ∣ n → p ∣ m → ¬ p ∣ z.den :=
      fun hp hmn hz hpm h => hp.one_lt.ne' (Nat.dvd_one.mp (hmn ▸ Nat.dvd_gcd hpm (h.trans hz)))
    refine Finset.mem_image.mpr ⟨(x, y), Finset.mem_product.mpr ⟨mem_basisTurns ha ?_ hxd, mem_basisTurns hb ?_ hyd⟩, ?_⟩
    · refine basisTurn_of_digits (fracTurn_range _).1 (fracTurn_range _).2 fun p hp hd => ?_
      have hz : ¬ p ∣ (y + (w : Rat)).den := den_add_dvd_not hp (hnot hp hab hyd (hd.trans hxd)) (not_dvd_den_int hp w)
      rw [← leadDigit_add hp x hz, ← add_assoc, ← hw]
      exact basisTurn_digit hq1 hp
    · refine basisTurn_of_digits (fracTurn_range _).1 (fracTurn_range _).2 fun p hp hd => ?_
      have hz : ¬ p ∣ (x + (w : Rat)).den :=
        den_add_dvd_not hp (hnot hp hab.symm hxd (hd.trans hyd)) (not_dvd_den_int hp w)
      rw [← leadDigit_add hp y hz, show y + (x + (w : Rat)) = x + y + w by ring, ← hw]
      exact basisTurn_digit hq1 hp
    · show fracTurn (x + y) = q
      refine eq_of_range_of_sub_int (fracTurn_range _) (basisTurn_range hq1) (w := -w - (x + y).floor) ?_
      rw [hw, fracTurn]
      push_cast
      ring
  calc (basisTurns (a * b)).card ≤ _ := Finset.card_le_card hsub
    _ ≤ (basisTurns a ×ˢ basisTurns b).card := Finset.card_image_le
    _ = _ := Finset.card_product _ _

theorem card_basisTurns_le (n : Nat) : (basisTurns n).card ≤ n.totient := by
  induction n using Nat.recOnPosPrimePosCoprime with
  | prime_pow p k hp hk => exact card_basisTurns_prime_pow hp hk
  | zero => rfl
  | one =>
    rw [Nat.totient_one]
    exact (Finset.card_filter_le _ _).trans (Finset.card_image_le.trans (by simp))
  | coprime a b ha hb hab iha ihb =>
    rw [Nat.totient_mul hab]
    exact (card_basisTurns_coprime (by omega) (by omega) hab).trans (Nat.mul_le_mul iha ihb)

/-! ## They span the roots of unity -/

theorem expandAt_den {p n : Nat} (hpn : p ∣ n) (hn : 0 < n) {t u : RootTerm} (ht : t.turn.den ∣ n)
    (hu : u ∈ expandAt p t) : u.turn.den ∣ n := by
  unfold expandAt at hu
  split_ifs at hu
  · obtain ⟨i, _, rfl⟩ := List.mem_map.mp hu
    obtain ⟨m, hm⟩ := ht
    obtain ⟨k, hk⟩ := hpn
    have hd0 : (t.turn.den : Rat) ≠ 0 := by exact_mod_cast t.turn.den_pos.ne'
    have hp0 : (p : Rat) ≠ 0 := by
      have : p ≠ 0 := by rintro rfl; omega
      exact_mod_cast this
    have hn0 : (n : Rat) ≠ 0 := by exact_mod_cast hn.ne'
    have h1 : t.turn = ((t.turn.num * m : Int) : Rat) / (n : Rat) := by
      conv_lhs => rw [← Rat.num_div_den t.turn]
      have : (n : Rat) = t.turn.den * m := by exact_mod_cast hm
      have hm0 : (m : Rat) ≠ 0 := fun h => hn0 (by rw [this, h, mul_zero])
      rw [this]; push_cast; field_simp
    have h2 : ((i + 1 : Nat) : Rat) / (p : Rat) = (((i + 1 : Nat) * k : Int) : Rat) / (n : Rat) := by
      have : (n : Rat) = p * k := by exact_mod_cast hk
      have hk0 : (k : Rat) ≠ 0 := fun h => hn0 (by rw [this, h, mul_zero])
      rw [this]; push_cast; field_simp
    have h3 : t.turn + ((i + 1 : Nat) : Rat) / (p : Rat)
        = ((t.turn.num * m + (i + 1 : Nat) * k : Int) : Rat) / (n : Rat) := by
      conv_lhs => rw [h2, h1]
      rw [← add_div]; push_cast; ring
    show (fracTurn (t.turn + ((i + 1 : Nat) : Rat) / (p : Rat))).den ∣ n
    rw [h3]
    exact den_fracTurn_div_dvd _ n hn
  · rw [List.mem_singleton] at hu
    exact hu ▸ ht

theorem expandAll_den {ps : List Nat} {n : Nat} (hn : 0 < n) (hps : ∀ p ∈ ps, p ∣ n) (ts : List RootTerm)
    (h : ∀ t ∈ ts, t.turn.den ∣ n) :
    ∀ u ∈ ps.foldl (fun ts p => ts.flatMap (expandAt p)) ts, u.turn.den ∣ n := by
  induction ps generalizing ts with
  | nil => exact h
  | cons p ps ih =>
    rw [List.foldl_cons]
    refine ih (fun q hq => hps q (List.mem_cons_of_mem _ hq)) _ fun u hu => ?_
    obtain ⟨t, ht, hut⟩ := List.mem_flatMap.mp hu
    exact expandAt_den (hps p List.mem_cons_self) hn (h t ht) hut

theorem reduceTerm_den {n : Nat} (hn : 0 < n) {t u : RootTerm} (h : (fracTurn t.turn).den ∣ n)
    (hu : u ∈ reduceTerm t) : u.turn.den ∣ n := by
  refine expandAll_den hn (fun p hp => ?_) _ (fun x hx => ?_) u hu
  · simp only [primeDivisors, List.mem_filter, Bool.and_eq_true, beq_iff_eq] at hp
    exact (Nat.dvd_of_mod_eq_zero hp.2.1.2).trans h
  · rw [List.mem_singleton] at hx
    exact hx ▸ h

/-- Every power of the first `n`-th root is a combination of the basis roots. -/
theorem pow_mem_span {n : Nat} (hn : 0 < n) (a : Nat) :
    Complex.exp (2 * Real.pi * Complex.I / n) ^ a
      ∈ Submodule.span ℚ (Set.range fun q : basisTurns n => rootValue q.1) := by
  have hv : Complex.exp (2 * Real.pi * Complex.I / n) ^ a = termsValue 0 (reduceTerm ⟨(a : Rat) / (n : Rat), 1, []⟩) := by
    rw [reduceTerm_value, RootTerm.toComplex, ← Complex.exp_nat_mul]
    push_cast
    rw [one_mul, List.map_nil, List.prod_nil, mul_one]
    congr 1
    ring
  rw [hv, termsValue]
  refine list_sum_mem fun z hz => ?_
  obtain ⟨u, hu, rfl⟩ := List.mem_map.mp hz
  rw [RootTerm.toComplex_eq, reduceTerm_symbols hu, List.insertionSort_nil, List.map_nil, List.prod_nil, mul_one]
  refine Submodule.smul_mem _ _ (Submodule.subset_span ⟨⟨u.turn, mem_basisTurns hn (reduceTerm_basis hu) ?_⟩, rfl⟩)
  refine reduceTerm_den hn ?_ hu
  have := den_fracTurn_div_dvd (a : Int) n hn
  rwa [Int.cast_natCast] at this

/-- The roots of the canonical basis with denominator `n` are linearly independent over the rationals. -/
theorem basisRoots_independent {n : Nat} (hn : 0 < n) :
    LinearIndependent ℚ fun q : basisTurns n => rootValue q.1 := by
  rw [linearIndependent_iff_card_le_finrank_span, Fintype.card_coe]
  refine (card_basisTurns_le n).trans ?_
  have hprim := Complex.isPrimitiveRoot_exp n hn.ne'
  have hdeg : (minpoly ℚ (Complex.exp (2 * Real.pi * Complex.I / n))).natDegree = n.totient := by
    rw [← Polynomial.cyclotomic_eq_minpoly_rat hprim hn, Polynomial.natDegree_cyclotomic]
  have hind := linearIndependent_pow (K := ℚ) (Complex.exp (2 * Real.pi * Complex.I / n))
  rw [Set.finrank]
  set V := Submodule.span ℚ (Set.range fun q : basisTurns n => rootValue q.1) with hV
  have hfin : FiniteDimensional ℚ V := FiniteDimensional.span_of_finite ℚ (Set.finite_range _)
  have hind' : LinearIndependent ℚ fun i : Fin (minpoly ℚ (Complex.exp (2 * Real.pi * Complex.I / n))).natDegree =>
      (⟨_, pow_mem_span hn i⟩ : V) :=
    LinearIndependent.of_comp V.subtype hind
  have := hind'.fintype_card_le_finrank
  rw [Fintype.card_fin, hdeg] at this
  exact this

/-! ## Samples as polynomials -/

/-- The polynomial in the symbols that a sum of terms is. -/
noncomputable def termsPolynomial (ts : List RootTerm) : MvPolynomial Nat ℂ :=
  (ts.map fun t => MvPolynomial.monomial (Multiset.toFinsupp (t.symbols : Multiset Nat))
    (t.coeff • rootValue t.turn)).sum

theorem eval_termsPolynomial (ρ : Valuation) (ts : List RootTerm) :
    MvPolynomial.eval ρ (termsPolynomial ts) = termsValue ρ ts := by
  induction ts with
  | nil => simp [termsPolynomial]
  | cons t ts ih =>
    have hsym : ((Multiset.toFinsupp (t.symbols : Multiset Nat)).prod fun n k => ρ n ^ k) = (t.symbols.map ρ).prod := by
      rw [← Multiset.prod_coe, ← Multiset.map_coe, Finset.prod_multiset_map_count]
      exact Finset.prod_congr (Multiset.toFinsupp_support _) fun _ _ => by rw [Multiset.toFinsupp_apply]
    rw [termsValue_cons, ← ih, termsPolynomial, List.map_cons, List.sum_cons, map_add, MvPolynomial.eval_monomial,
      RootTerm.toComplex_eq, hsym]
    rfl

/-- The coefficient at the symbols `y`: a sum over the roots of the basis. -/
theorem coeff_termsPolynomial {n : Nat} {ts : List RootTerm} (hb : ∀ t ∈ ts, t.turn ∈ basisTurns n)
    (hs : ∀ t ∈ ts, t.symbols.Pairwise (· ≤ ·)) {y : List Nat} (hy : y.Pairwise (· ≤ ·)) :
    MvPolynomial.coeff (Multiset.toFinsupp (y : Multiset Nat)) (termsPolynomial ts)
      = ∑ q : basisTurns n, weight ts y q.1 • rootValue q.1 := by
  induction ts with
  | nil => simp [termsPolynomial, weight]
  | cons t ts ih =>
    have ih' := ih (fun u hu => hb u (List.mem_cons_of_mem _ hu)) fun u hu => hs u (List.mem_cons_of_mem _ hu)
    have hkey : Multiset.toFinsupp (t.symbols : Multiset Nat) = Multiset.toFinsupp (y : Multiset Nat)
        ↔ t.symbols = y := by
      rw [Multiset.toFinsupp.injective.eq_iff, Multiset.coe_eq_coe]
      exact ⟨fun h => h.eq_of_pairwise (fun _ _ _ _ => le_antisymm) (hs t List.mem_cons_self) hy, fun h => h ▸ .refl _⟩
    unfold termsPolynomial at ih' ⊢
    rw [List.map_cons, List.sum_cons, MvPolynomial.coeff_add, ih', MvPolynomial.coeff_monomial]
    simp only [weight_cons_tail, add_smul, Finset.sum_add_distrib, hkey]
    congr 1
    rw [Finset.sum_eq_single (⟨t.turn, hb t List.mem_cons_self⟩ : basisTurns n)]
    · split_ifs <;> simp_all
    · intro b _ hne
      rw [if_neg fun e => hne (Subtype.ext e.2.symm), zero_smul]
    · simp

end Sys2Proof
end

