-- ==== Sys2Proof/Laws/State.lean ====
section
/-! SUPPORT. One lemma per field per update of a state or a unit, so that no proof unfolds a record update. -/

namespace Sys2Proof.Machine

variable (s : State) (u : UnitId) (k : FaultKind) (r : Option Response) (st : Status) (p : Payload)

@[simp] theorem State.setFault_afb_syn : (s.setFault .afb k).syn = s.syn := rfl
@[simp] theorem State.setFault_afb_afb : (s.setFault .afb k).afb = { s.afb with fault := k } := rfl
@[simp] theorem State.setFault_afb_fmx : (s.setFault .afb k).fmx = s.fmx := rfl
@[simp] theorem State.setFault_afb_inbox : (s.setFault .afb k).inbox = s.inbox := rfl
@[simp] theorem State.setFault_afb_afbLog : (s.setFault .afb k).afbLog = s.afbLog := rfl
@[simp] theorem State.setFault_afb_fmxLog : (s.setFault .afb k).fmxLog = s.fmxLog := rfl
@[simp] theorem State.setFault_afb_draws : (s.setFault .afb k).draws = s.draws := rfl

@[simp] theorem State.setFault_fmx_syn : (s.setFault .fmx k).syn = s.syn := rfl
@[simp] theorem State.setFault_fmx_afb : (s.setFault .fmx k).afb = s.afb := rfl
@[simp] theorem State.setFault_fmx_fmx : (s.setFault .fmx k).fmx = { s.fmx with fault := k } := rfl
@[simp] theorem State.setFault_fmx_inbox : (s.setFault .fmx k).inbox = s.inbox := rfl
@[simp] theorem State.setFault_fmx_afbLog : (s.setFault .fmx k).afbLog = s.afbLog := rfl
@[simp] theorem State.setFault_fmx_fmxLog : (s.setFault .fmx k).fmxLog = s.fmxLog := rfl
@[simp] theorem State.setFault_fmx_draws : (s.setFault .fmx k).draws = s.draws := rfl

@[simp] theorem State.report_afb_syn : (s.report .afb r).syn = s.syn := rfl
@[simp] theorem State.report_afb_afb : (s.report .afb r).afb = s.afb := rfl
@[simp] theorem State.report_afb_fmx : (s.report .afb r).fmx = s.fmx := rfl
@[simp] theorem State.report_afb_inbox : (s.report .afb r).inbox = s.inbox := rfl
@[simp] theorem State.report_afb_afbLog : (s.report .afb r).afbLog = s.afbLog ++ [r] := rfl
@[simp] theorem State.report_afb_fmxLog : (s.report .afb r).fmxLog = s.fmxLog := rfl
@[simp] theorem State.report_afb_draws : (s.report .afb r).draws = s.draws := rfl

@[simp] theorem State.report_fmx_syn : (s.report .fmx r).syn = s.syn := rfl
@[simp] theorem State.report_fmx_afb : (s.report .fmx r).afb = s.afb := rfl
@[simp] theorem State.report_fmx_fmx : (s.report .fmx r).fmx = s.fmx := rfl
@[simp] theorem State.report_fmx_inbox : (s.report .fmx r).inbox = s.inbox := rfl
@[simp] theorem State.report_fmx_afbLog : (s.report .fmx r).afbLog = s.afbLog := rfl
@[simp] theorem State.report_fmx_fmxLog : (s.report .fmx r).fmxLog = s.fmxLog ++ [r] := rfl
@[simp] theorem State.report_fmx_draws : (s.report .fmx r).draws = s.draws := rfl

@[simp] theorem State.respond_afb_syn : (s.respond .afb st p).syn = s.syn := rfl
@[simp] theorem State.respond_afb_afb : (s.respond .afb st p).afb = s.afb := rfl
@[simp] theorem State.respond_afb_fmx : (s.respond .afb st p).fmx = s.fmx := rfl
@[simp] theorem State.respond_afb_inbox : (s.respond .afb st p).inbox = s.inbox := rfl
@[simp] theorem State.respond_afb_afbLog : (s.respond .afb st p).afbLog = s.afbLog ++ [some ⟨st, p⟩] := rfl
@[simp] theorem State.respond_afb_fmxLog : (s.respond .afb st p).fmxLog = s.fmxLog := rfl
@[simp] theorem State.respond_afb_draws : (s.respond .afb st p).draws = s.draws := rfl

@[simp] theorem State.respond_fmx_syn : (s.respond .fmx st p).syn = s.syn := rfl
@[simp] theorem State.respond_fmx_afb : (s.respond .fmx st p).afb = s.afb := rfl
@[simp] theorem State.respond_fmx_fmx : (s.respond .fmx st p).fmx = s.fmx := rfl
@[simp] theorem State.respond_fmx_inbox : (s.respond .fmx st p).inbox = s.inbox := rfl
@[simp] theorem State.respond_fmx_afbLog : (s.respond .fmx st p).afbLog = s.afbLog := rfl
@[simp] theorem State.respond_fmx_fmxLog : (s.respond .fmx st p).fmxLog = s.fmxLog ++ [some ⟨st, p⟩] := rfl
@[simp] theorem State.respond_fmx_draws : (s.respond .fmx st p).draws = s.draws := rfl

@[simp] theorem State.notPerformed_afb_syn : (s.notPerformed .afb).syn = s.syn := rfl
@[simp] theorem State.notPerformed_afb_afb : (s.notPerformed .afb).afb = s.afb := rfl
@[simp] theorem State.notPerformed_afb_fmx : (s.notPerformed .afb).fmx = s.fmx := rfl
@[simp] theorem State.notPerformed_afb_inbox : (s.notPerformed .afb).inbox = s.inbox := rfl
@[simp] theorem State.notPerformed_afb_afbLog : (s.notPerformed .afb).afbLog = s.afbLog ++ [none] := rfl
@[simp] theorem State.notPerformed_afb_fmxLog : (s.notPerformed .afb).fmxLog = s.fmxLog := rfl
@[simp] theorem State.notPerformed_afb_draws : (s.notPerformed .afb).draws = s.draws := rfl

@[simp] theorem State.notPerformed_fmx_syn : (s.notPerformed .fmx).syn = s.syn := rfl
@[simp] theorem State.notPerformed_fmx_afb : (s.notPerformed .fmx).afb = s.afb := rfl
@[simp] theorem State.notPerformed_fmx_fmx : (s.notPerformed .fmx).fmx = s.fmx := rfl
@[simp] theorem State.notPerformed_fmx_inbox : (s.notPerformed .fmx).inbox = s.inbox := rfl
@[simp] theorem State.notPerformed_fmx_afbLog : (s.notPerformed .fmx).afbLog = s.afbLog := rfl
@[simp] theorem State.notPerformed_fmx_fmxLog : (s.notPerformed .fmx).fmxLog = s.fmxLog ++ [none] := rfl
@[simp] theorem State.notPerformed_fmx_draws : (s.notPerformed .fmx).draws = s.draws := rfl

@[simp] theorem State.raiseFault_afb_syn : (s.raiseFault .afb k).syn = s.syn := rfl
@[simp] theorem State.raiseFault_afb_afb : (s.raiseFault .afb k).afb = { s.afb with fault := k } := rfl
@[simp] theorem State.raiseFault_afb_fmx : (s.raiseFault .afb k).fmx = s.fmx := rfl
@[simp] theorem State.raiseFault_afb_inbox : (s.raiseFault .afb k).inbox = s.inbox := rfl
@[simp] theorem State.raiseFault_afb_afbLog : (s.raiseFault .afb k).afbLog = s.afbLog ++ [none] := rfl
@[simp] theorem State.raiseFault_afb_fmxLog : (s.raiseFault .afb k).fmxLog = s.fmxLog := rfl
@[simp] theorem State.raiseFault_afb_draws : (s.raiseFault .afb k).draws = s.draws := rfl

@[simp] theorem State.raiseFault_fmx_syn : (s.raiseFault .fmx k).syn = s.syn := rfl
@[simp] theorem State.raiseFault_fmx_afb : (s.raiseFault .fmx k).afb = s.afb := rfl
@[simp] theorem State.raiseFault_fmx_fmx : (s.raiseFault .fmx k).fmx = { s.fmx with fault := k } := rfl
@[simp] theorem State.raiseFault_fmx_inbox : (s.raiseFault .fmx k).inbox = s.inbox := rfl
@[simp] theorem State.raiseFault_fmx_afbLog : (s.raiseFault .fmx k).afbLog = s.afbLog := rfl
@[simp] theorem State.raiseFault_fmx_fmxLog : (s.raiseFault .fmx k).fmxLog = s.fmxLog ++ [none] := rfl
@[simp] theorem State.raiseFault_fmx_draws : (s.raiseFault .fmx k).draws = s.draws := rfl

@[simp] theorem State.unconfigureAfb_syn : (s.unconfigureAfb).syn = s.syn := rfl
@[simp] theorem State.unconfigureAfb_fmx : (s.unconfigureAfb).fmx = s.fmx := rfl
@[simp] theorem State.unconfigureAfb_inbox : (s.unconfigureAfb).inbox = s.inbox := rfl
@[simp] theorem State.unconfigureAfb_afbLog : (s.unconfigureAfb).afbLog = s.afbLog := rfl
@[simp] theorem State.unconfigureAfb_fmxLog : (s.unconfigureAfb).fmxLog = s.fmxLog := rfl
@[simp] theorem State.unconfigureAfb_draws : (s.unconfigureAfb).draws = s.draws + 1 := rfl
@[simp] theorem State.unconfigureAfb_afb_cfg : s.unconfigureAfb.afb.cfg = .unconfigured := rfl
@[simp] theorem State.unconfigureAfb_afb_fault : s.unconfigureAfb.afb.fault = s.afb.fault := rfl

@[simp] theorem State.unconfigureFmx_syn : (s.unconfigureFmx).syn = s.syn := rfl
@[simp] theorem State.unconfigureFmx_afb : (s.unconfigureFmx).afb = s.afb := rfl
@[simp] theorem State.unconfigureFmx_inbox : (s.unconfigureFmx).inbox = s.inbox := rfl
@[simp] theorem State.unconfigureFmx_afbLog : (s.unconfigureFmx).afbLog = s.afbLog := rfl
@[simp] theorem State.unconfigureFmx_fmxLog : (s.unconfigureFmx).fmxLog = s.fmxLog := rfl
@[simp] theorem State.unconfigureFmx_draws : (s.unconfigureFmx).draws = s.draws + 1 := rfl
@[simp] theorem State.unconfigureFmx_fmx_cfg : s.unconfigureFmx.fmx.cfg = .unconfigured := rfl
@[simp] theorem State.unconfigureFmx_fmx_fault : s.unconfigureFmx.fmx.fault = s.fmx.fault := rfl

@[simp] theorem State.resetBlock_syn : (s.resetBlock).syn = s.syn := rfl
@[simp] theorem State.resetBlock_inbox : (s.resetBlock).inbox = s.inbox := rfl
@[simp] theorem State.resetBlock_afbLog : (s.resetBlock).afbLog = [] := rfl
@[simp] theorem State.resetBlock_fmxLog : (s.resetBlock).fmxLog = [] := rfl
@[simp] theorem State.resetBlock_draws : (s.resetBlock).draws = s.draws + 2 := rfl
@[simp] theorem State.resetBlock_afb_cfg : s.resetBlock.afb.cfg = .unconfigured := rfl
@[simp] theorem State.resetBlock_afb_fault : s.resetBlock.afb.fault = .none := rfl
@[simp] theorem State.resetBlock_fmx_cfg : s.resetBlock.fmx.cfg = .unconfigured := rfl
@[simp] theorem State.resetBlock_fmx_fault : s.resetBlock.fmx.fault = .none := rfl

@[simp] theorem State.faultOf_afb : s.faultOf .afb = s.afb.fault := rfl
@[simp] theorem State.faultOf_fmx : s.faultOf .fmx = s.fmx.fault := rfl
@[simp] theorem State.logOf_afb : s.logOf .afb = s.afbLog := rfl
@[simp] theorem State.logOf_fmx : s.logOf .fmx = s.fmxLog := rfl

variable (a : Afb) (x : Fmx) (q : Synth) (v : Vec) (L FL : Nat)

@[simp] theorem Afb.advance_cfg : (a.advance q v).cfg = a.cfg := rfl
@[simp] theorem Afb.advance_fault : (a.advance q v).fault = a.fault := rfl
@[simp] theorem Afb.advance_L : (a.advance q v).L = a.L := rfl
@[simp] theorem Afb.advance_K : (a.advance q v).K = a.K := rfl
@[simp] theorem Afb.advance_h : (a.advance q v).h = a.h := rfl
@[simp] theorem Afb.advance_d : (a.advance q v).d = shiftDelays q.commDir a.L a.K a.r a.d v := rfl
@[simp] theorem Afb.advance_r : (a.advance q v).r = (a.r + 1) % a.L := rfl

@[simp] theorem Afb.configure_cfg : (a.configure L v).cfg = .configured := rfl
@[simp] theorem Afb.configure_fault : (a.configure L v).fault = a.fault := rfl
@[simp] theorem Afb.configure_L : (a.configure L v).L = L := rfl
@[simp] theorem Afb.configure_K : (a.configure L v).K = v.length / L := rfl
@[simp] theorem Afb.configure_h : (a.configure L v).h = partition L (v.length / L) v := rfl
@[simp] theorem Afb.configure_d : (a.configure L v).d = tabulate L (v.length / L) fun _ _ => Cplx.zero := rfl
@[simp] theorem Afb.configure_r : (a.configure L v).r = 0 := rfl

@[simp] theorem Fmx.advance_cfg : x.advance.cfg = x.cfg := rfl
@[simp] theorem Fmx.advance_fault : x.advance.fault = x.fault := rfl
@[simp] theorem Fmx.advance_L : x.advance.L = x.L := rfl
@[simp] theorem Fmx.advance_FL : x.advance.FL = x.FL := rfl
@[simp] theorem Fmx.advance_P : x.advance.P = x.P := rfl
@[simp] theorem Fmx.advance_pre : x.advance.pre = x.pre := rfl
@[simp] theorem Fmx.advance_c : x.advance.c = (x.c + 1) % x.FL := rfl

@[simp] theorem Fmx.configure_cfg : (x.configure L FL v).cfg = .configured := rfl
@[simp] theorem Fmx.configure_fault : (x.configure L FL v).fault = x.fault := rfl
@[simp] theorem Fmx.configure_L : (x.configure L FL v).L = L := rfl
@[simp] theorem Fmx.configure_FL : (x.configure L FL v).FL = FL := rfl
@[simp] theorem Fmx.configure_P : (x.configure L FL v).P = v.length / L := rfl
@[simp] theorem Fmx.configure_pre : (x.configure L FL v).pre = preambleRows (v.length / L) L v := rfl
@[simp] theorem Fmx.configure_c : (x.configure L FL v).c = 0 := rfl

variable (nbits w : Nat)

@[simp] theorem State.withFetchWord_syn : (s.withFetchWord nbits w).syn = s.syn := rfl
@[simp] theorem State.withFetchWord_afb : (s.withFetchWord nbits w).afb = s.afb := rfl
@[simp] theorem State.withFetchWord_fmx : (s.withFetchWord nbits w).fmx = s.fmx := rfl
@[simp] theorem State.withFetchWord_inbox : (s.withFetchWord nbits w).inbox = .command (tableCommand nbits w) :: s.inbox := rfl
@[simp] theorem State.withFetchWord_afbLog : (s.withFetchWord nbits w).afbLog = s.afbLog := rfl
@[simp] theorem State.withFetchWord_fmxLog : (s.withFetchWord nbits w).fmxLog = s.fmxLog := rfl
@[simp] theorem State.withFetchWord_draws : (s.withFetchWord nbits w).draws = s.draws := rfl

end Sys2Proof.Machine
end

