-- ==== Sys2Proof/Laws/Stores.lean ====
section
/-! SUPPORT. The stores and the commutator: what `tabulate`, `shiftDelays` and the DFT give element by element, their shape
and their canonical form, and `beta` as a bijection (R40). -/

namespace Sys2Proof.Machine

/-! ## Elements, rows, cells -/

theorem getD_map_range {α : Type} (n i : Nat) (f : Nat → α) (z : α) (hi : i < n) :
    ((List.range n).map f).getD i z = f i := by
  simp [List.getD, hi]

theorem elem_map_range {n i : Nat} (f : Nat → Cplx) (hi : i < n) : elem ((List.range n).map f) i = f i :=
  getD_map_range n i f _ hi

theorem row_tabulate {rows cols b : Nat} (f : Nat → Nat → Cplx) (hb : b < rows) :
    row (tabulate rows cols f) b = (List.range cols).map (f b) :=
  getD_map_range rows b _ _ hb

theorem cell_tabulate {rows cols b k : Nat} (f : Nat → Nat → Cplx) (hb : b < rows) (hk : k < cols) :
    cell (tabulate rows cols f) b k = f b k := by
  rw [cell, row_tabulate f hb, elem_map_range _ hk]

theorem tabulate_shape (rows cols : Nat) (f : Nat → Nat → Cplx) : HasShape (tabulate rows cols f) rows cols := by
  refine ⟨by simp [tabulate], fun v hv => ?_⟩
  obtain ⟨b, _, rfl⟩ := List.mem_map.mp hv
  simp

theorem elem_zeroVec (L i : Nat) : elem (zeroVec L) i = Cplx.zero := by
  simp only [elem, zeroVec, List.getD_eq_getElem?_getD, List.getElem?_replicate]
  split_ifs <;> rfl

/-- Two vectors of one length are equal when their elements are. -/
theorem vec_ext {v w : Vec} (hl : v.length = w.length) (h : ∀ i < v.length, elem v i = elem w i) : v = w := by
  refine List.ext_getElem hl fun i h1 h2 => ?_
  have := h i h1
  simpa [elem, h1, h2] using this

theorem HasShape.row_length {m : Bank} {rows cols b : Nat} (h : HasShape m rows cols) (hb : b < rows) :
    (row m b).length = cols := by
  have hb' : b < m.length := h.1 ▸ hb
  have : row m b = m[b] := by simp [row, hb']
  rw [this]
  exact h.2 _ (List.getElem_mem hb')

/-- Two stores of one shape are equal when their cells are. -/
theorem bank_ext {m n : Bank} {rows cols : Nat} (hm : HasShape m rows cols) (hn : HasShape n rows cols)
    (h : ∀ b < rows, ∀ k < cols, cell m b k = cell n b k) : m = n := by
  refine List.ext_getElem (hm.1.trans hn.1.symm) fun b h1 h2 => ?_
  have hb : b < rows := hm.1 ▸ h1
  have e1 : row m b = m[b] := by simp [row, h1]
  have e2 : row n b = n[b] := by simp [row, h2]
  rw [← e1, ← e2]
  refine vec_ext ((hm.row_length hb).trans (hn.row_length hb).symm) fun k hk => ?_
  rw [hm.row_length hb] at hk
  exact h b hb k hk

/-- A store that holds zeros everywhere. -/
theorem bank_eq_zeros_iff {m : Bank} {rows cols : Nat} (hm : HasShape m rows cols) :
    m = (tabulate rows cols fun _ _ => Cplx.zero) ↔ ∀ b < rows, ∀ k < cols, cell m b k = Cplx.zero := by
  constructor
  · rintro rfl b hb k hk
    exact cell_tabulate _ hb hk
  · intro h
    exact bank_ext hm (tabulate_shape _ _ _) fun b hb k hk => by rw [h b hb k hk, cell_tabulate _ hb hk]

theorem elem_wf {v : Vec} (h : Vec.wf v = true) (i : Nat) : (elem v i).wf = true := by
  rw [elem, List.getD_eq_getElem?_getD]
  cases hi : v[i]? with
  | none => rfl
  | some z => exact List.all_eq_true.mp h z (List.mem_of_getElem? hi)

theorem row_wf {m : Bank} (h : Bank.wf m = true) (b : Nat) : Vec.wf (row m b) = true := by
  rw [row, List.getD_eq_getElem?_getD]
  cases hi : m[b]? with
  | none => rfl
  | some z => exact List.all_eq_true.mp h z (List.mem_of_getElem? hi)

theorem cell_wf {m : Bank} (h : Bank.wf m = true) (b k : Nat) : (cell m b k).wf = true := elem_wf (row_wf h b) k

theorem map_range_wf {n : Nat} {f : Nat → Cplx} (h : ∀ i, (f i).wf = true) :
    Vec.wf ((List.range n).map f) = true := by
  rw [Vec.wf, List.all_eq_true]
  intro x hx
  obtain ⟨i, _, rfl⟩ := List.mem_map.mp hx
  exact h i

theorem tabulate_wf {rows cols : Nat} {f : Nat → Nat → Cplx} (h : ∀ b k, (f b k).wf = true) :
    Bank.wf (tabulate rows cols f) = true := by
  rw [Bank.wf, List.all_eq_true]
  intro x hx
  obtain ⟨b, _, rfl⟩ := List.mem_map.mp hx
  exact map_range_wf (h b)

/-! ## The commutator -/

theorem beta_lt (dir : CommDir) {L : Nat} (hL : 1 ≤ L) (r s : Nat) : beta dir L r s < L := by
  have h0 : (0 : Int) < (L : Int) := by omega
  have := Int.emod_lt_of_pos ((s : Int) + CommDir.sign dir * r) h0
  have := Int.emod_nonneg ((s : Int) + CommDir.sign dir * r) h0.ne'
  unfold beta
  omega

theorem betaInv_lt (dir : CommDir) {L : Nat} (hL : 1 ≤ L) (r b : Nat) : betaInv dir L r b < L := by
  have h0 : (0 : Int) < (L : Int) := by omega
  have := Int.emod_lt_of_pos ((b : Int) - CommDir.sign dir * r) h0
  have := Int.emod_nonneg ((b : Int) - CommDir.sign dir * r) h0.ne'
  unfold betaInv
  omega

theorem betaInv_beta (dir : CommDir) {L s : Nat} (r : Nat) (hs : s < L) :
    betaInv dir L r (beta dir L r s) = s := by
  have h0 : (0 : Int) < (L : Int) := by omega
  unfold betaInv beta
  rw [Int.toNat_of_nonneg (Int.emod_nonneg _ h0.ne'), Int.sub_emod, Int.emod_emod, ← Int.sub_emod,
    Int.add_sub_cancel, Int.emod_eq_of_lt (by omega) (by omega)]
  omega

theorem beta_betaInv (dir : CommDir) {L b : Nat} (r : Nat) (hb : b < L) :
    beta dir L r (betaInv dir L r b) = b := by
  have h0 : (0 : Int) < (L : Int) := by omega
  unfold betaInv beta
  rw [Int.toNat_of_nonneg (Int.emod_nonneg _ h0.ne'), Int.add_emod, Int.emod_emod, ← Int.add_emod,
    Int.sub_add_cancel, Int.emod_eq_of_lt (by omega) (by omega)]
  omega

theorem beta_zero (dir : CommDir) {L s : Nat} (hs : s < L) : beta dir L 0 s = s := by
  unfold beta
  rw [Nat.cast_zero, mul_zero, add_zero, Int.emod_eq_of_lt (by omega) (by omega)]
  omega

/-! ## The datapath of AFB -/

theorem shiftDelays_shape (dir : CommDir) (L K r : Nat) (d : Bank) (u : Vec) :
    HasShape (shiftDelays dir L K r d u) L K := tabulate_shape _ _ _

/-- The new sample of a slot is at place 0 of its branch (R109). -/
theorem cell_shiftDelays_new (dir : CommDir) {L K s : Nat} (r : Nat) (d : Bank) (u : Vec) (hs : s < L) (hK : 1 ≤ K) :
    cell (shiftDelays dir L K r d u) (beta dir L r s) 0 = elem u s := by
  rw [shiftDelays, cell_tabulate _ (beta_lt dir (by omega) r s) (by omega)]
  simp only [betaInv_beta dir r hs]

/-- The older samples move up by one (R109). -/
theorem cell_shiftDelays_old (dir : CommDir) {L K b k : Nat} (r : Nat) (d : Bank) (u : Vec) (hb : b < L)
    (hk : k + 1 < K) : cell (shiftDelays dir L K r d u) b (k + 1) = cell d b k := by
  rw [shiftDelays, cell_tabulate _ hb hk]

theorem shiftDelays_wf (dir : CommDir) (L K r : Nat) {d : Bank} {u : Vec} (hd : Bank.wf d = true)
    (hu : Vec.wf u = true) : Bank.wf (shiftDelays dir L K r d u) = true :=
  tabulate_wf fun b k => by
    cases k with
    | zero => exact elem_wf hu _
    | succ j => exact cell_wf hd b j

/-- A slot of the DFT's input (R110, R111). -/
theorem elem_slots (p : Synth) (a : Afb) (u : Vec) {s : Nat} (hs : s < a.L) :
    elem (a.slots p u) s = Cplx.sum ((List.range a.K).map fun k =>
      (cell a.h (beta p.commDir a.L a.r s) k).mul
        (cell (shiftDelays p.commDir a.L a.K a.r a.d u) (beta p.commDir a.L a.r s) k)) := by
  rw [Afb.slots, placeOutputs, elem_map_range _ hs, branchOutputs, elem_map_range _ (beta_lt _ (by omega) _ _)]

@[simp] theorem dft_length (sign : FftSign) (scale : FftScale) (L : Nat) (z : Vec) : (dft sign scale L z).length = L := by
  simp [dft]

@[simp] theorem Afb.output_length (p : Synth) (a : Afb) (u : Vec) : (a.output p u).length = a.L := dft_length _ _ _ _

theorem elem_dft (sign : FftSign) (scale : FftScale) {L f : Nat} (z : Vec) (hf : f < L) :
    elem (dft sign scale L z) f
      = (sigma scale L).mul (Cplx.sum ((List.range L).map fun s => (elem z s).mul (omegaPow sign L f s))) :=
  elem_map_range _ hf

theorem dft_wf (sign : FftSign) (scale : FftScale) (L : Nat) (z : Vec) : Vec.wf (dft sign scale L z) = true :=
  map_range_wf fun _ => Cplx.wf_mul _ _

theorem Afb.output_wf (p : Synth) (a : Afb) (u : Vec) : Vec.wf (a.output p u) = true := dft_wf _ _ _ _

/-- The DFT of zeros is zeros. -/
theorem dft_of_zeros (sign : FftSign) (scale : FftScale) (L : Nat) {z : Vec}
    (h : ∀ s < L, elem z s = Cplx.zero) : dft sign scale L z = zeroVec L := by
  refine vec_ext (by simp [zeroVec]) fun f hf => ?_
  rw [dft_length] at hf
  rw [elem_dft sign scale z hf, elem_zeroVec, Cplx.sum_zero, Cplx.mul_zero]
  intro x hx
  obtain ⟨s, hs, rfl⟩ := List.mem_map.mp hx
  rw [h s (List.mem_range.mp hs), Cplx.zero_mul]

/-! ## The configurations -/

theorem partition_shape (L K : Nat) (taps : Vec) : HasShape (partition L K taps) L K := tabulate_shape _ _ _

theorem cell_partition {L K b k : Nat} (taps : Vec) (hb : b < L) (hk : k < K) :
    cell (partition L K taps) b k = elem taps (b + k * L) := cell_tabulate _ hb hk

theorem preambleRows_shape (P L : Nat) (flat : Vec) : HasShape (preambleRows P L flat) P L := tabulate_shape _ _ _

theorem cell_preambleRows {P L i s : Nat} (flat : Vec) (hi : i < P) (hs : s < L) :
    cell (preambleRows P L flat) i s = elem flat (i * L + s) := cell_tabulate _ hi hs

theorem afbOk_iff (L NT : Nat) : afbOk L NT = true ↔ 1 ≤ L ∧ NT % L = 0 ∧ 1 ≤ NT / L := by
  simp [afbOk, and_assoc]

theorem afbFits_iff (p : Synth) (L NT : Nat) :
    afbFits p L NT = true ↔ L ≤ p.maxL ∧ (L = 0 ∨ NT ≤ L * p.maxK) := by
  simp [afbFits]

theorem fmxOk_iff (L FL NP : Nat) : fmxOk L FL NP = true ↔ 1 ≤ L ∧ NP % L = 0 ∧ 1 ≤ FL ∧ NP / L ≤ FL := by
  simp [fmxOk, and_assoc]

theorem fmxFits_iff (p : Synth) (L FL NP : Nat) :
    fmxFits p L FL NP = true ↔ L ≤ p.maxL ∧ FL ≤ p.maxFrame ∧ (L = 0 ∨ NP ≤ L * p.maxP) := by
  simp [fmxFits, and_assoc]

/-- A configuration that is accepted meets the invariant (R39). -/
theorem Afb.configure_inv (p : Synth) (a : Afb) {L : Nat} {taps : Vec} (hfit : afbFits p L taps.length = true)
    (hok : afbOk L taps.length = true) : (a.configure L taps).Inv p := by
  rw [afbFits_iff] at hfit
  rw [afbOk_iff] at hok
  intro _
  refine ⟨hok.1, hfit.1, hok.2.2, ?_, hok.1, partition_shape _ _ _, tabulate_shape _ _ _⟩
  have h := hfit.2.resolve_left (by omega)
  exact Nat.div_le_of_le_mul h

/-- A configuration that is accepted meets the invariant (R47). -/
theorem Fmx.configure_inv (p : Synth) (x : Fmx) {L FL : Nat} {pre : Vec} (hfit : fmxFits p L FL pre.length = true)
    (hok : fmxOk L FL pre.length = true) : (x.configure L FL pre).Inv p := by
  rw [fmxFits_iff] at hfit
  rw [fmxOk_iff] at hok
  intro _
  refine ⟨hok.1, hfit.1, hok.2.2.1, hfit.2.1, hok.2.2.2, ?_, hok.2.2.1, preambleRows_shape _ _ _⟩
  have h := hfit.2.2.resolve_left (by omega)
  exact Nat.div_le_of_le_mul h

/-- AFB_PROCESS keeps the invariant (R39). -/
theorem Afb.advance_inv {p : Synth} {a : Afb} (u : Vec) (h : a.Inv p) : (a.advance p u).Inv p := by
  intro hc
  obtain ⟨h1, h2, h3, h4, _, h6, _⟩ := h hc
  exact ⟨h1, h2, h3, h4, Nat.mod_lt _ h1, h6, shiftDelays_shape _ _ _ _ _ _⟩

/-- FMX_PROCESS keeps the invariant (R47). -/
theorem Fmx.advance_inv {p : Synth} {x : Fmx} (h : x.Inv p) : x.advance.Inv p := by
  intro hc
  obtain ⟨h1, h2, h3, h4, h5, h6, _, h8⟩ := h hc
  exact ⟨h1, h2, h3, h4, h5, h6, Nat.mod_lt _ h3, h8⟩

end Sys2Proof.Machine
end

