-- ==== Sys2Proof/Laws/Exec.lean ====
section
/-! SUPPORT. What each shared operation and each meaning can do, said once: the value under the conditions of R172, and
the cases when it answers a next state. -/

namespace Sys2Proof.Machine

theorem FaultKind.cases_none (k : FaultKind) : k = .none ∨ k ≠ .none := by cases k <;> simp

theorem whenUnfaulted_of_none {u : UnitId} {s : State} (r : Result) (h : s.faultOf u = .none) :
    whenUnfaulted u s r = r := by
  unfold whenUnfaulted; rw [h]

theorem whenUnfaulted_of_faulted {u : UnitId} {s : State} (r : Result) (h : s.faultOf u ≠ .none) :
    whenUnfaulted u s r = .next (s.notPerformed u) := by
  unfold whenUnfaulted
  cases hk : s.faultOf u <;> simp_all

theorem whenChecked_of_none (u : UnitId) (s : State) (r : Result) : whenChecked u .none s r = r := rfl

theorem whenChecked_of_fault {u : UnitId} {k : FaultKind} (s : State) (r : Result) (h : k ≠ .none) :
    whenChecked u k s r = .next (s.raiseFault u k) := by
  cases k <;> simp_all [whenChecked]

@[simp] theorem configuredCheck_configured : configuredCheck .configured = .none := rfl
@[simp] theorem configuredCheck_unconfigured : configuredCheck .unconfigured = .notConfigured := rfl
@[simp] theorem processCheck_unconfigured (L n : Nat) : processCheck .unconfigured L n = .notConfigured := rfl
@[simp] theorem processCheck_right_length (L : Nat) : processCheck .configured L L = .none := by simp [processCheck]
theorem processCheck_wrong_length {L n : Nat} (h : n ≠ L) : processCheck .configured L n = .vectorLength := by
  simp [processCheck, h]

/-! ## Values -/

theorem execAfbConfig_capacity {L : Nat} {taps : Vec} {s : State} (hf : s.afb.fault = .none)
    (hfit : afbFits s.syn L taps.length = false) : execAfbConfig L taps s = .refused .capacity := by
  rw [execAfbConfig, whenUnfaulted_of_none (u := .afb) _ hf, hfit]; rfl

theorem execAfbConfig_mismatch {L : Nat} {taps : Vec} {s : State} (hf : s.afb.fault = .none)
    (hfit : afbFits s.syn L taps.length = true) (hok : afbOk L taps.length = false) :
    execAfbConfig L taps s = .next (s.unconfigureAfb.respond .afb .tapLengthMismatch .none) := by
  rw [execAfbConfig, whenUnfaulted_of_none (u := .afb) _ hf, hfit, hok]; rfl

theorem execAfbConfig_ok {L : Nat} {taps : Vec} {s : State} (hf : s.afb.fault = .none)
    (hfit : afbFits s.syn L taps.length = true) (hok : afbOk L taps.length = true) :
    execAfbConfig L taps s
      = .next (State.respond .afb .ok .none { s with afb := s.afb.configure L taps }) := by
  rw [execAfbConfig, whenUnfaulted_of_none (u := .afb) _ hf, hfit, hok]; rfl

theorem execAfbProcess_ok {u : Vec} {s : State} (hf : s.afb.fault = .none) (hc : s.afb.cfg = .configured)
    (hl : u.length = s.afb.L) :
    execAfbProcess u s
      = .next (State.respond .afb .ok (.vec (s.afb.output s.syn u)) { s with afb := s.afb.advance s.syn u }) := by
  rw [execAfbProcess, whenUnfaulted_of_none (u := .afb) _ hf, hc, hl, processCheck_right_length, whenChecked_of_none]

theorem execFmxConfig_capacity {L FL : Nat} {pre : Vec} {s : State} (hf : s.fmx.fault = .none)
    (hfit : fmxFits s.syn L FL pre.length = false) : execFmxConfig L FL pre s = .refused .capacity := by
  rw [execFmxConfig, whenUnfaulted_of_none (u := .fmx) _ hf, hfit]; rfl

theorem execFmxConfig_mismatch {L FL : Nat} {pre : Vec} {s : State} (hf : s.fmx.fault = .none)
    (hfit : fmxFits s.syn L FL pre.length = true) (hok : fmxOk L FL pre.length = false) :
    execFmxConfig L FL pre s = .next (s.unconfigureFmx.respond .fmx .preambleLengthMismatch .none) := by
  rw [execFmxConfig, whenUnfaulted_of_none (u := .fmx) _ hf, hfit, hok]; rfl

theorem execFmxConfig_ok {L FL : Nat} {pre : Vec} {s : State} (hf : s.fmx.fault = .none)
    (hfit : fmxFits s.syn L FL pre.length = true) (hok : fmxOk L FL pre.length = true) :
    execFmxConfig L FL pre s
      = .next (State.respond .fmx .ok .none { s with fmx := s.fmx.configure L FL pre }) := by
  rw [execFmxConfig, whenUnfaulted_of_none (u := .fmx) _ hf, hfit, hok]; rfl

theorem execFmxProcess_ok {v : Vec} {s : State} (hf : s.fmx.fault = .none) (hc : s.fmx.cfg = .configured)
    (hl : v.length = s.fmx.L) :
    execFmxProcess v s
      = .next (State.respond .fmx .ok (.vec (s.fmx.output v)) { s with fmx := s.fmx.advance }) := by
  rw [execFmxProcess, whenUnfaulted_of_none (u := .fmx) _ hf, hc, hl, processCheck_right_length, whenChecked_of_none]

/-! ## Cases of a next state -/

/-- Everything a PROCESS or an accessor can do: not performed, one of its faults, or its effect. -/
theorem checked_cases {u : UnitId} {k : FaultKind} {s t done : State}
    (h : whenUnfaulted u s (whenChecked u k s (.next done)) = .next t) :
    (s.faultOf u ≠ .none ∧ t = s.notPerformed u) ∨
    (s.faultOf u = .none ∧ k ≠ .none ∧ t = s.raiseFault u k) ∨
    (s.faultOf u = .none ∧ k = .none ∧ t = done) := by
  rcases FaultKind.cases_none (s.faultOf u) with hf | hf
  · rw [whenUnfaulted_of_none _ hf] at h
    rcases FaultKind.cases_none k with hk | hk
    · subst hk
      rw [whenChecked_of_none] at h
      exact .inr (.inr ⟨hf, rfl, (Host.Outcome.next.inj h).symm⟩)
    · rw [whenChecked_of_fault _ _ hk] at h
      exact .inr (.inl ⟨hf, hk, (Host.Outcome.next.inj h).symm⟩)
  · rw [whenUnfaulted_of_faulted _ hf] at h
    exact .inl ⟨hf, (Host.Outcome.next.inj h).symm⟩

/-- Everything AFB_CONFIG can do when it answers a next state. -/
theorem execAfbConfig_cases {L : Nat} {taps : Vec} {s t : State} (h : execAfbConfig L taps s = .next t) :
    (s.afb.fault ≠ .none ∧ t = s.notPerformed .afb) ∨
    (s.afb.fault = .none ∧ afbFits s.syn L taps.length = true ∧ afbOk L taps.length = false ∧
      t = s.unconfigureAfb.respond .afb .tapLengthMismatch .none) ∨
    (s.afb.fault = .none ∧ afbFits s.syn L taps.length = true ∧ afbOk L taps.length = true ∧
      t = State.respond .afb .ok .none { s with afb := s.afb.configure L taps }) := by
  rcases FaultKind.cases_none s.afb.fault with hf | hf
  · cases hfit : afbFits s.syn L taps.length with
    | false => rw [execAfbConfig_capacity hf hfit] at h; cases h
    | true =>
      cases hok : afbOk L taps.length with
      | false =>
        rw [execAfbConfig_mismatch hf hfit hok] at h
        exact .inr (.inl ⟨hf, rfl, rfl, (Host.Outcome.next.inj h).symm⟩)
      | true =>
        rw [execAfbConfig_ok hf hfit hok] at h
        exact .inr (.inr ⟨hf, rfl, rfl, (Host.Outcome.next.inj h).symm⟩)
  · rw [execAfbConfig, whenUnfaulted_of_faulted (u := .afb) _ hf] at h
    exact .inl ⟨hf, (Host.Outcome.next.inj h).symm⟩

/-- Everything FMX_CONFIG can do when it answers a next state. -/
theorem execFmxConfig_cases {L FL : Nat} {pre : Vec} {s t : State} (h : execFmxConfig L FL pre s = .next t) :
    (s.fmx.fault ≠ .none ∧ t = s.notPerformed .fmx) ∨
    (s.fmx.fault = .none ∧ fmxFits s.syn L FL pre.length = true ∧ fmxOk L FL pre.length = false ∧
      t = s.unconfigureFmx.respond .fmx .preambleLengthMismatch .none) ∨
    (s.fmx.fault = .none ∧ fmxFits s.syn L FL pre.length = true ∧ fmxOk L FL pre.length = true ∧
      t = State.respond .fmx .ok .none { s with fmx := s.fmx.configure L FL pre }) := by
  rcases FaultKind.cases_none s.fmx.fault with hf | hf
  · cases hfit : fmxFits s.syn L FL pre.length with
    | false => rw [execFmxConfig_capacity hf hfit] at h; cases h
    | true =>
      cases hok : fmxOk L FL pre.length with
      | false =>
        rw [execFmxConfig_mismatch hf hfit hok] at h
        exact .inr (.inl ⟨hf, rfl, rfl, (Host.Outcome.next.inj h).symm⟩)
      | true =>
        rw [execFmxConfig_ok hf hfit hok] at h
        exact .inr (.inr ⟨hf, rfl, rfl, (Host.Outcome.next.inj h).symm⟩)
  · rw [execFmxConfig, whenUnfaulted_of_faulted (u := .fmx) _ hf] at h
    exact .inl ⟨hf, (Host.Outcome.next.inj h).symm⟩

/-- Everything AFB_PROCESS can do. -/
theorem execAfbProcess_cases {u : Vec} {s t : State} (h : execAfbProcess u s = .next t) :
    (s.afb.fault ≠ .none ∧ t = s.notPerformed .afb) ∨
    (s.afb.fault = .none ∧ processCheck s.afb.cfg s.afb.L u.length ≠ .none ∧
      t = s.raiseFault .afb (processCheck s.afb.cfg s.afb.L u.length)) ∨
    (s.afb.fault = .none ∧ processCheck s.afb.cfg s.afb.L u.length = .none ∧
      t = State.respond .afb .ok (.vec (s.afb.output s.syn u)) { s with afb := s.afb.advance s.syn u }) :=
  checked_cases h

/-- Everything FMX_PROCESS can do. -/
theorem execFmxProcess_cases {v : Vec} {s t : State} (h : execFmxProcess v s = .next t) :
    (s.fmx.fault ≠ .none ∧ t = s.notPerformed .fmx) ∨
    (s.fmx.fault = .none ∧ processCheck s.fmx.cfg s.fmx.L v.length ≠ .none ∧
      t = s.raiseFault .fmx (processCheck s.fmx.cfg s.fmx.L v.length)) ∨
    (s.fmx.fault = .none ∧ processCheck s.fmx.cfg s.fmx.L v.length = .none ∧
      t = State.respond .fmx .ok (.vec (s.fmx.output v)) { s with fmx := s.fmx.advance }) :=
  checked_cases h

/-- Everything AFB_GET_L can do. -/
theorem execAfbGetL_cases {s t : State} (h : execAfbGetL s = .next t) :
    (s.afb.fault ≠ .none ∧ t = s.notPerformed .afb) ∨
    (s.afb.fault = .none ∧ configuredCheck s.afb.cfg ≠ .none ∧ t = s.raiseFault .afb (configuredCheck s.afb.cfg)) ∨
    (s.afb.fault = .none ∧ configuredCheck s.afb.cfg = .none ∧ t = s.respond .afb .ok (.nat s.afb.L)) :=
  checked_cases h

/-- Everything AFB_GET_OVERLAP can do. -/
theorem execAfbGetOverlap_cases {s t : State} (h : execAfbGetOverlap s = .next t) :
    (s.afb.fault ≠ .none ∧ t = s.notPerformed .afb) ∨
    (s.afb.fault = .none ∧ configuredCheck s.afb.cfg ≠ .none ∧ t = s.raiseFault .afb (configuredCheck s.afb.cfg)) ∨
    (s.afb.fault = .none ∧ configuredCheck s.afb.cfg = .none ∧ t = s.respond .afb .ok (.nat s.afb.K)) :=
  checked_cases h

/-- A command to a faulted unit, whatever it is (R165). -/
theorem exec_of_faulted {i : Instr} {s : State} (h : s.faultOf i.unit ≠ .none) :
    exec i s = .next (s.notPerformed i.unit) := by
  cases i <;> exact whenUnfaulted_of_faulted _ h

/-! ## Runs -/

/-- A run of the core takes its first step, then the rest. -/
theorem core_run_succ {s t : State} (n : Nat) (h : step s = .next t) :
    Host.Core.run Sys2Proof.core (n + 1) s = Host.Core.run Sys2Proof.core n t := by
  have h' : Sys2Proof.core.step s = .next t := h
  simp only [Host.Core.run, h']

@[simp] theorem execAll_nil (s : State) : execAll [] s = .next s := rfl

theorem execAll_cons_next {i : Instr} {is : List Instr} {s t : State} (h : exec i s = .next t) :
    execAll (i :: is) s = execAll is t := by
  simp only [execAll, h]

/-- A run that answers a next state performs its first command, then the rest. -/
theorem execAll_cons_cases {i : Instr} {is : List Instr} {s t : State} (h : execAll (i :: is) s = .next t) :
    ∃ m, exec i s = .next m ∧ execAll is m = .next t := by
  simp only [execAll] at h
  cases hm : exec i s with
  | next m => rw [hm] at h; exact ⟨m, rfl, h⟩
  | fault r => cases r
  | refused r => rw [hm] at h; cases h

theorem execAll_append {is js : List Instr} {s m : State} (h : execAll is s = .next m) :
    execAll (is ++ js) s = execAll js m := by
  induction is generalizing s with
  | nil => cases h; rfl
  | cons i is ih =>
    obtain ⟨k, hk, hrest⟩ := execAll_cons_cases h
    rw [List.cons_append, execAll_cons_next hk]
    exact ih hrest

/-- An induction over a run, packaged: what every command keeps, every run keeps. -/
theorem execAll_induction {P : State → Prop} (hstep : ∀ i s t, P s → exec i s = .next t → P t)
    {is : List Instr} {s t : State} (hs : P s) (h : execAll is s = .next t) : P t := by
  induction is generalizing s with
  | nil => cases h; exact hs
  | cons i is ih =>
    obtain ⟨m, hm, hrest⟩ := execAll_cons_cases h
    exact ih (hstep i s m hs hm) hrest

end Sys2Proof.Machine
end

