-- ==== Sys2Proof/Laws/PerInstr.lean ====
section
/-! SUPPORT. Statements for every instruction, one lemma per constructor. -/

namespace Sys2Proof.Laws.HeaderFields

/-- The word an instruction is sent as: its reserved bits are 0, its opcode is in 1 to 6, and the opcode says which unit it
addresses (R81, R82, R83). -/
def Statement (i : Instr) : Prop :=
  (encode i).rsv = 0#28 ∧ 1 ≤ (encode i).opc.toNat ∧ (encode i).opc.toNat ≤ 6 ∧
  (i.unit = .afb ↔ (encode i).opc.toNat ≤ 4)

theorem afbConfig (L : Nat) (taps : Vec) : Statement (.afbConfig L taps) := by
  simp [Statement, encode, Command.rsv, Command.opc, Instr.header, Instr.unit]

theorem afbProcess (u : Vec) : Statement (.afbProcess u) := by
  simp [Statement, encode, Command.rsv, Command.opc, Instr.header, Instr.unit]

theorem afbGetL : Statement .afbGetL := by
  simp [Statement, encode, Command.rsv, Command.opc, Instr.header, Instr.unit]

theorem afbGetOverlap : Statement .afbGetOverlap := by
  simp [Statement, encode, Command.rsv, Command.opc, Instr.header, Instr.unit]

theorem fmxConfig (L FL : Nat) (pre : Vec) : Statement (.fmxConfig L FL pre) := by
  simp [Statement, encode, Command.rsv, Command.opc, Instr.header, Instr.unit]

theorem fmxProcess (v : Vec) : Statement (.fmxProcess v) := by
  simp [Statement, encode, Command.rsv, Command.opc, Instr.header, Instr.unit]

end Sys2Proof.Laws.HeaderFields
end

