-- ==== Sys2Proof/Tests/Slice0.lean ====
section
/-! SUPPORT. Tests. Expected values come from the spec: the encodings of 30_encoding.md, the vectors of 95_test_vectors.md
(their ids in the comments), the worked examples in the rules. The second half shows, for every statement with hypotheses,
a state and operands that meet them together. -/

namespace Sys2Proof.Tests

open Sys2Proof Sys2Proof.Machine

-- many small theorems checked at once cost a thread's memory each
set_option Elab.async false

/-! ## Helpers -/

/-- A small built block: `MAX_L` 4, `MAX_K` 2, `MAX_P` 2, `MAX_FRAME` 4. -/
def small : Synth :=
  { commDir := .plus, fftSign := .minus, fftScale := .one, maxL := 4, maxK := 2, maxP := 2, maxFrame := 4, tol := 1 / 100,
    wNat := 8, nCh := 2 }

def start : State := State.resetOf small

/-- A real sample. -/
def re (q : Rat) : Cplx := Cplx.cart q 0

/-- An imaginary sample. -/
def im (q : Rat) : Cplx := Cplx.cart 0 q

/-- `afb.config 2, [1,2,3,4]` with the given delay store and commutator index. -/
def twoBranch (d : Bank) (r : Nat) : State :=
  { start with
    afb :=
      { cfg := .configured, fault := .none, L := 2, K := 2, h := [[re 1, re 3], [re 2, re 4]], d := d, r := r } }

/-- `twoBranch` right after its configuration. -/
def fresh : State := twoBranch [[Cplx.zero, Cplx.zero], [Cplx.zero, Cplx.zero]] 0

/-- `afb.config 4, [1,...,8]` with the given delay store and commutator index. -/
def fourBranch (d : Bank) (r : Nat) : State :=
  { start with
    afb :=
      { cfg := .configured, fault := .none, L := 4, K := 2,
        h := [[re 1, re 5], [re 2, re 6], [re 3, re 7], [re 4, re 8]], d := d, r := r } }

/-- `fmx.config 2, 4, [1, 1j]` with the given counter. -/
def framed (c : Nat) : State :=
  { start with fmx := { cfg := .configured, fault := .none, L := 2, FL := 4, P := 1, pre := [[re 1, im 1]], c := c } }

/-- AFB faulted by an accessor before its configuration. -/
def faulted : State := start.raiseFault .afb .notConfigured

/-- The next state of an outcome. -/
def nextOf : Result → Option State
  | .next t => some t
  | .fault _ => none
  | .refused _ => none

/-- The reason of a refusal. -/
def refusalOf : Result → Option Refusal
  | .next _ => none
  | .fault _ => none
  | .refused r => some r

/-- A host about to issue one command. -/
def issuing (header : Header) (ops : List Operand) : State := { start with inbox := [.command ⟨header, ops⟩] }

/-- A transport whose parts are 8-bit two's complement integers, but for the code 0x80, which is special. -/
def fmt8 : SampleFmt where
  width := 8
  value b := if b = 0x80#8 then .symbol 5 else .number (b.toInt : Rat)
  code a :=
    match a with
    | .symbol n => if n = 5 then some 0x80#8 else none
    | .number q =>
      let b := BitVec.ofInt 8 q.num
      if b ≠ 0x80#8 ∧ ((b.toInt : Int) : Rat) = q then some b else none

/-! ## Well-formed operands (log 22): one ill-formed sample for each part of the check -/

theorem test_wf_accepts : (Instr.afbProcess [⟨[⟨0, 1, []⟩, ⟨1 / 4, 2, []⟩, ⟨0, 1, [3, 3]⟩]⟩]).wellFormed = true := by
  decide +kernel
theorem test_wf_refuses_unsorted_terms :
    (Instr.afbProcess [⟨[⟨1 / 4, 2, []⟩, ⟨0, 1, []⟩]⟩]).wellFormed = false ∧
    (Instr.afbProcess [⟨[⟨0, 1, [3]⟩, ⟨0, 1, []⟩]⟩]).wellFormed = false := by decide +kernel
theorem test_wf_refuses_repeated_term : (Instr.fmxProcess [⟨[⟨0, 1, []⟩, ⟨0, 2, []⟩]⟩]).wellFormed = false := by
  decide +kernel
theorem test_wf_refuses_zero_coefficient : (Instr.afbConfig 1 [⟨[⟨0, 0, []⟩]⟩]).wellFormed = false := by decide +kernel
theorem test_wf_refuses_redundant_root : (Instr.fmxConfig 1 1 [⟨[⟨1 / 2, 1, []⟩]⟩]).wellFormed = false := by
  decide +kernel
theorem test_wf_refuses_full_turn : (Instr.afbProcess [⟨[⟨1, 1, []⟩]⟩]).wellFormed = false := by decide +kernel
theorem test_wf_refuses_negative_turn : (Instr.afbProcess [⟨[⟨-1 / 4, 1, []⟩]⟩]).wellFormed = false := by
  decide +kernel
theorem test_wf_refuses_unsorted_symbols : (Instr.afbProcess [⟨[⟨0, 1, [4, 3]⟩]⟩]).wellFormed = false := by
  decide +kernel

/-! ## Decoding: the words of R82, operands of R84 -/

theorem test_decode_afb_config :
    decode ⟨0b00000000000000000000000000000001#32, [.nat 1, .vec [re 7]]⟩ = .ok (.afbConfig 1 [re 7]) := by
  simp [decode, decodeOperands, Command.rsv, Command.opc]
theorem test_decode_afb_process :
    decode ⟨0b00000000000000000000000000000010#32, [.vec [re 7]]⟩ = .ok (.afbProcess [re 7]) := by
  simp [decode, decodeOperands, Command.rsv, Command.opc]
theorem test_decode_afb_get_l : decode ⟨0b00000000000000000000000000000011#32, []⟩ = .ok .afbGetL := by
  simp [decode, decodeOperands, Command.rsv, Command.opc]
theorem test_decode_afb_get_overlap : decode ⟨0b00000000000000000000000000000100#32, []⟩ = .ok .afbGetOverlap := by
  simp [decode, decodeOperands, Command.rsv, Command.opc]
theorem test_decode_fmx_config :
    decode ⟨0b00000000000000000000000000000101#32, [.nat 2, .nat 3, .vec []]⟩ = .ok (.fmxConfig 2 3 []) := by
  simp [decode, decodeOperands, Command.rsv, Command.opc]
theorem test_decode_fmx_process :
    decode ⟨0b00000000000000000000000000000110#32, [.vec []]⟩ = .ok (.fmxProcess []) := by
  simp [decode, decodeOperands, Command.rsv, Command.opc]

/-- The rows of the opcode table, their operands zero. -/
theorem test_table_words :
    [decodeTableWord 32 1, decodeTableWord 32 2, decodeTableWord 32 3, decodeTableWord 32 4, decodeTableWord 32 5,
      decodeTableWord 32 6, decodeTableWord 32 7, decodeTableWord 32 18]
    = [some (.afbConfig 0 []), some (.afbProcess []), some .afbGetL, some .afbGetOverlap, some (.fmxConfig 0 0 []),
      some (.fmxProcess []), none, none] := by decide +kernel

/-- R89 and FT9, FT10: reserved opcodes, a reserved bit, operands missing, in excess, of the wrong type. -/
theorem test_reserved_encodings_refused :
    ([issuing 0x00000000#32 [], issuing 0x00000007#32 [], issuing 0x0000000F#32 [], issuing 0x00000012#32 [.vec []],
      issuing 0x80000003#32 [], issuing 0x00000002#32 [], issuing 0x00000003#32 [.nat 0],
      issuing 0x00000001#32 [.vec [], .nat 1], issuing 0x00000006#32 [.vec [], .vec []]].map
        fun s => refusalOf (step s))
    = List.replicate 9 (some .reservedEncoding) := by decide +kernel

/-! ## Instructions, one step each -/

/-- CF1: `afb.config 4, [1,...,8]` gives `K = 2`, `h[1] = [2, 6]` (R105). -/
theorem test_afb_config_partitions :
    (nextOf (exec (.afbConfig 4 [re 1, re 2, re 3, re 4, re 5, re 6, re 7, re 8]) start)).map
      (fun t => (t.afb.K, row t.afb.h 1, t.afb.r, t.afbLog)) = some (2, [re 2, re 6], 0, [some ⟨.ok, .none⟩]) := by
  decide +kernel

/-- R105: `afb.config 4, [1,2,3]` reports TAP_LENGTH_MISMATCH, and the configuration that was is lost. -/
theorem test_afb_config_mismatch :
    (nextOf (exec (.afbConfig 4 [re 1, re 2, re 3]) fresh)).map (fun t => (t.afb.cfg, t.afbLog))
      = some (.unconfigured, [some ⟨.tapLengthMismatch, .none⟩]) := by
  decide +kernel

/-- AP1 step 2: from `d = [[1,0],[0,0]]`, `r = 1`, `afb.process [0,0]` returns `[3,-3]`. -/
theorem test_afb_process_memory :
    (nextOf (exec (.afbProcess [re 0, re 0]) (twoBranch [[re 1, re 0], [re 0, re 0]] 1))).map
      (fun t => (t.afbLog, t.afb.d, t.afb.r))
      = some ([some ⟨.ok, .vec [re 3, re (-3)]⟩], [[re 0, re 1], [re 0, re 0]], 0) := by
  decide +kernel

/-- AP7 step 2: four branches, complex outputs. -/
theorem test_afb_process_four_branches :
    (nextOf (exec (.afbProcess (zeroVec 4))
      (fourBranch [[re 1, re 0], [re 2, re 0], [re 3, re 0], [re 4, re 0]] 1))).map (fun t => (t.afbLog, t.afb.r))
      = some ([some ⟨.ok, .vec [re 70, Cplx.cart (-20) (-16), re 18, Cplx.cart (-20) 16]⟩], 2) := by
  decide +kernel

/-- AC1, AC3. -/
theorem test_afb_get_l :
    (nextOf (exec .afbGetL fresh)).map (fun t => t.afbLog) = some [some ⟨.ok, .nat 2⟩] ∧
    (nextOf (exec .afbGetL start)).map (fun t => (t.afb.fault.code, t.afbLog)) = some (1, [none]) := by
  decide +kernel

/-- AC2: `afb.config 3, [1,2,3]` has overlap 1. -/
theorem test_afb_get_overlap :
    (nextOf (execAll [.afbConfig 3 [re 1, re 2, re 3], .afbGetOverlap] start)).map (fun t => t.afbLog)
      = some [some ⟨.ok, .none⟩, some ⟨.ok, .nat 1⟩] := by
  decide +kernel

/-- R143: `fmx.config 2, 4, [1, 1j]` gives `P = 1`. -/
theorem test_fmx_config_rows :
    (nextOf (exec (.fmxConfig 2 4 [re 1, im 1]) start)).map (fun t => t.fmx) = some (framed 0).fmx := by
  decide +kernel

/-- R143: `P = 2 > FL = 1` reports PREAMBLE_LENGTH_MISMATCH. -/
theorem test_fmx_config_mismatch :
    (nextOf (exec (.fmxConfig 2 1 [re 1, re 2, re 3, re 4]) start)).map (fun t => (t.fmx.cfg, t.fmxLog))
      = some (.unconfigured, [some ⟨.preambleLengthMismatch, .none⟩]) := by
  decide +kernel

/-- P1 lines 2 and 5: position 0 carries the preamble, position 3 the input, after which the counter wraps. -/
theorem test_fmx_process_selects :
    (nextOf (exec (.fmxProcess [re 10, re 11]) (framed 0))).map (fun t => (t.fmxLog, t.fmx.c))
      = some ([some ⟨.ok, .vec [re 1, im 1]⟩], 1) ∧
    (nextOf (exec (.fmxProcess [re 40, re 41]) (framed 3))).map (fun t => (t.fmxLog, t.fmx.c))
      = some ([some ⟨.ok, .vec [re 40, re 41]⟩], 0) := by
  decide +kernel

/-- FT6: a wrong length faults and does not advance the counter. -/
theorem test_fmx_process_length_fault :
    (nextOf (exec (.fmxProcess [re 7]) (framed 0))).map (fun t => (t.fmx.fault.code, t.fmx.c, t.fmxLog))
      = some (2, 0, [none]) := by
  decide +kernel

/-! ## Operations -/

/-- R105 (f), R133: taps and samples that are any numbers. With `L = K = 1`, the tap `π` (symbol 0) and the sample
`1 + √2·j` (its imaginary part symbol 1), the output is their product, `π + π·√2·j`. -/
theorem test_afb_process_any_numbers :
    (nextOf (execAll [.afbConfig 1 [Cplx.symbol 0], .afbProcess [Cplx.ofParts (.number 1) (.symbol 1)]] start)).map
      (fun t => t.afbLog)
      = some [some ⟨.ok, .none⟩, some ⟨.ok, .vec [(Cplx.symbol 0).add ⟨[⟨1 / 4, 1, [0, 1]⟩]⟩]⟩] := by
  decide +kernel

/-- AP3: the sign and the scale of the DFT of `[0,1,0,0]`. -/
theorem test_dft_parameters :
    dft .minus .one 4 [re 0, re 1, re 0, re 0] = [re 1, im (-1), re (-1), im 1] ∧
    dft .plus .one 4 [re 0, re 1, re 0, re 0] = [re 1, im 1, re (-1), im (-1)] ∧
    dft .minus .invL 4 [re 0, re 1, re 0, re 0] = [re (1 / 4), im (-1 / 4), re (-1 / 4), im (1 / 4)] ∧
    dft .minus .invSqrtL 4 [re 0, re 1, re 0, re 0] = [re (1 / 2), im (-1 / 2), re (-1 / 2), im (1 / 2)] := by
  decide +kernel

/-- AP2: with `COMM_DIR = +1` slot 0 meets branch `r`, with -1 branch `-r mod 4`. -/
theorem test_commutator_direction :
    (List.range 4).map (fun r => beta .plus 4 r 0) = [0, 1, 2, 3] ∧
    (List.range 4).map (fun r => beta .minus 4 r 0) = [0, 3, 2, 1] := by
  decide +kernel

/-- AP8 step 1, `L = 3`: bin 1 of `[1,2,3]` is `-1.5 + (√3/2)j`, whose imaginary part squares to 3/4. -/
theorem test_dft_three_points :
    let X := dft .minus .one 3 [re 1, re 2, re 3]
    elem X 0 = re 6 ∧ (elem X 1).add (elem X 2) = re (-3) ∧
    ((elem X 1).add (elem X 2).neg).mul ((elem X 1).add (elem X 2).neg) = re (-3) := by
  decide +kernel

/-! ## Meeting the hypotheses of the statements -/

theorem test_reset_inv : State.reset.Inv ∧ State.reset.Canonical := by decide +kernel

theorem test_hyp_issued_command : (issuing 0x00000003#32 []).inbox = [.command ⟨0x00000003#32, []⟩] := rfl

theorem test_hyp_StepRunsTheDecodedCommand :
    ∃ (s : State) (c : Command) (i : Instr) (rest : List HostEvent), s.inbox = .command c :: rest ∧ decode c = .ok i :=
  ⟨issuing 0x00000003#32 [], ⟨0x00000003#32, []⟩, .afbGetL, [], rfl, test_decode_afb_get_l⟩

theorem test_hyp_StepWithoutActionHoldsTheState : State.reset.inbox = [] := rfl

theorem test_hyp_ResetUnconfiguresBothUnits :
    ∃ (s : State) (rest : List HostEvent), s.inbox = .reset :: rest ∧ s.afb.fault ≠ .none :=
  ⟨{ faulted with inbox := [.reset] }, [], rfl, by decide⟩

/-- 8 bits carry 255 and not 256. -/
theorem test_hyp_SerialNaturalsAreZeroExtended : 255 < 2 ^ 8 ∧ 2 ^ 8 ≤ 256 := by decide

theorem test_hyp_SerialVectorsGoElementByElement :
    (partsOfSamples fmt8 [Cplx.cart 1 2, Cplx.cart (-3) 127]).map (List.map BitVec.toNat) = some [1, 2, 253, 127] := by
  decide +kernel

theorem fmt8_code_value (a : Part) (b : BitVec fmt8.width) (h : fmt8.code a = some b) : fmt8.value b = a := by
  simp only [fmt8] at h ⊢
  cases a with
  | symbol n =>
    simp only at h
    split_ifs at h with hn
    rw [← Option.some.inj h, hn]
    rfl
  | number q =>
    simp only at h
    split_ifs at h with hq
    rw [← Option.some.inj h, if_neg hq.1, hq.2]

theorem test_hyp_SerialTransportRoundTrip :
    ∃ (fmt : SampleFmt) (w : Nat) (i : Instr) (c : SerialCommand w fmt.width),
      (∀ a b, fmt.code a = some b → fmt.value b = a) ∧ encodeSerial fmt w i = some c :=
  ⟨fmt8, 8, .fmxConfig 2 4 [Cplx.cart 1 0, Cplx.ofParts (.symbol 5) (.number 1)],
    ⟨0x00000005#32, [.nat 2#8, .nat 4#8, .parts [1#8, 0#8, 0x80#8, 1#8]]⟩, fmt8_code_value, by decide +kernel⟩

theorem fmt8_codes_told_apart (b : BitVec fmt8.width) : fmt8.code (fmt8.value b) = some b := by
  have h : ∀ b : BitVec 8, (fmt8.code (fmt8.value b)).map BitVec.toNat = some b.toNat := by decide +kernel
  obtain ⟨c, hc, e⟩ := Option.map_eq_some_iff.mp (h b)
  rw [hc, BitVec.eq_of_toNat_eq e]

/-- The special code as an imaginary part, at a payload position and in the preamble. -/
theorem test_hyp_FmxPassesEveryCodeBitExactly :
    (∀ b : BitVec fmt8.width, fmt8.code (fmt8.value b) = some b) ∧
    samplesOfParts fmt8 [1#8, 0x80#8, 0x7F#8, 0xFF#8] = some [Cplx.ofParts (.number 1) (.symbol 5), Cplx.cart 127 (-1)] ∧
    (framed 1).FmxReady ∧ (framed 1).fmx.P ≤ (framed 1).fmx.c ∧ (framed 1).fmx.L = 2 ∧
    start.fmx.fault = .none ∧ fmxFits start.syn 2 4 2 = true ∧ fmxOk 2 4 2 = true ∧ 1 ≤ 2 / 2 :=
  ⟨fmt8_codes_told_apart, rfl, ⟨rfl, rfl, by decide +kernel⟩, by decide, rfl, rfl, rfl, rfl, by decide⟩

/-- Beyond the capacities by the branch count and by the taps; at the capacities; each way to be invalid. -/
theorem test_hyp_AfbConfigFollowsItsRule :
    start.afb.fault = .none ∧
    (¬ (5 ≤ small.maxL ∧ (5 = 0 ∨ 5 ≤ 5 * small.maxK)) ∧ ¬ (4 ≤ small.maxL ∧ (4 = 0 ∨ 9 ≤ 4 * small.maxK))) ∧
    ((0 ≤ small.maxL ∧ (0 = 0 ∨ 3 ≤ 0 * small.maxK)) ∧ ¬ (1 ≤ 0 ∧ 3 % 0 = 0 ∧ 1 ≤ 3 / 0)) ∧
    ((4 ≤ small.maxL ∧ (4 = 0 ∨ 7 ≤ 4 * small.maxK)) ∧ ¬ (1 ≤ 4 ∧ 7 % 4 = 0 ∧ 1 ≤ 7 / 4)) ∧
    ((4 ≤ small.maxL ∧ (4 = 0 ∨ 0 ≤ 4 * small.maxK)) ∧ ¬ (1 ≤ 4 ∧ 0 % 4 = 0 ∧ 1 ≤ 0 / 4)) ∧
    ((4 ≤ small.maxL ∧ (4 = 0 ∨ 8 ≤ 4 * small.maxK)) ∧ 1 ≤ 4 ∧ 8 % 4 = 0 ∧ 1 ≤ 8 / 4) := by
  decide

/-- Beyond each capacity; each way to be invalid; an all-preamble frame at the capacities; no preamble. -/
theorem test_hyp_FmxConfigFollowsItsRule :
    start.fmx.fault = .none ∧
    ¬ (5 ≤ small.maxL ∧ 4 ≤ small.maxFrame ∧ (5 = 0 ∨ 0 ≤ 5 * small.maxP)) ∧
    ¬ (4 ≤ small.maxL ∧ 5 ≤ small.maxFrame ∧ (4 = 0 ∨ 0 ≤ 4 * small.maxP)) ∧
    ¬ (4 ≤ small.maxL ∧ 4 ≤ small.maxFrame ∧ (4 = 0 ∨ 9 ≤ 4 * small.maxP)) ∧
    ((0 ≤ small.maxL ∧ 4 ≤ small.maxFrame ∧ (0 = 0 ∨ 3 ≤ 0 * small.maxP)) ∧ ¬ (1 ≤ 0 ∧ 3 % 0 = 0 ∧ 1 ≤ 4 ∧ 3 / 0 ≤ 4)) ∧
    ((2 ≤ small.maxL ∧ 4 ≤ small.maxFrame ∧ (2 = 0 ∨ 3 ≤ 2 * small.maxP)) ∧ ¬ (1 ≤ 2 ∧ 3 % 2 = 0 ∧ 1 ≤ 4 ∧ 3 / 2 ≤ 4)) ∧
    ((2 ≤ small.maxL ∧ 0 ≤ small.maxFrame ∧ (2 = 0 ∨ 0 ≤ 2 * small.maxP)) ∧ ¬ (1 ≤ 2 ∧ 0 % 2 = 0 ∧ 1 ≤ 0 ∧ 0 / 2 ≤ 0)) ∧
    ((2 ≤ small.maxL ∧ 1 ≤ small.maxFrame ∧ (2 = 0 ∨ 4 ≤ 2 * small.maxP)) ∧ ¬ (1 ≤ 2 ∧ 4 % 2 = 0 ∧ 1 ≤ 1 ∧ 4 / 2 ≤ 1)) ∧
    ((4 ≤ small.maxL ∧ 2 ≤ small.maxFrame ∧ (4 = 0 ∨ 8 ≤ 4 * small.maxP)) ∧ 1 ≤ 4 ∧ 8 % 4 = 0 ∧ 1 ≤ 2 ∧ 8 / 4 ≤ 2) ∧
    ((1 ≤ small.maxL ∧ 4 ≤ small.maxFrame ∧ (1 = 0 ∨ 0 ≤ 1 * small.maxP)) ∧ 1 ≤ 1 ∧ 0 % 1 = 0 ∧ 1 ≤ 4 ∧ 0 / 1 ≤ 4) := by
  decide

/-- Both configurations accepted by an unfaulted block, at the capacities: ConfigTwiceIsConfigOnce, the second clause of
AfbFlushEmptiesTheDelayLines, FmxFramesArePeriodic, FmxIsDeterministic. For FmxFramesArePeriodic both an all-preamble
frame (`P = FL = 2`) and one with payload positions (`P = 1`, `FL = 4`, vector 1). -/
theorem test_hyp_accepted_configurations :
    start.afb.fault = .none ∧ afbFits start.syn 4 8 = true ∧ afbOk 4 8 = true ∧
    start.fmx.fault = .none ∧ fmxFits start.syn 4 2 8 = true ∧ fmxOk 4 2 8 = true ∧
    (fmxFits start.syn 4 4 4 = true ∧ fmxOk 4 4 4 = true ∧ 4 / 4 ≤ 1 % 4) ∧
    (∀ v ∈ [zeroVec 4, [re 1, re 2, re 3, im 4]], v.length = 4) := by
  decide +kernel

theorem test_hyp_CommutatorMappingIsABijection : (1 : Nat) ≤ 1 := by decide

/-- A configured AFB with index 1: the hypotheses of AfbProcessShiftsDelaysAndAdvancesIndex, AfbProcessReturnsTheExactDft,
AfbReturnsOneVectorPerVector and, with `n = K`, of AfbFlushEmptiesTheDelayLines. -/
theorem test_hyp_afb_ready :
    (twoBranch [[re 1, re 0], [re 0, im 5]] 1).AfbReady ∧
    (∀ u ∈ [[re 1, im 1], zeroVec 2], u.length = (twoBranch [[re 1, re 0], [re 0, im 5]] 1).afb.L) ∧
    (twoBranch [[re 1, re 0], [re 0, im 5]] 1).afb.K ≤ 2 := by
  decide +kernel

theorem test_hyp_AfbIsLinear :
    (twoBranch [[re 2, re 0], [re 3, re 0]] 1).AfbReady ∧ HasShape [[re 2, re 0], [re 3, re 0]] 2 2 ∧
    HasShape [[re 0, im 1], [re 4, re 0]] 2 2 ∧ [re 1, re 0].length = 2 ∧ [re 0, re 1].length = 2 ∧
    fresh.AfbReady ∧ (∀ i < 2, ∀ k < 2, cell fresh.afb.d i k = Cplx.zero) := by
  decide +kernel

theorem test_hyp_AfbProcessFaultsOnItsPreconditions :
    (start.afb.fault = .none ∧ start.afb.cfg = .unconfigured) ∧
    (fresh.afb.fault = .none ∧ fresh.afb.cfg = .configured ∧ (zeroVec 1).length ≠ fresh.afb.L ∧
      (zeroVec 3).length ≠ fresh.afb.L) := by
  decide

theorem test_hyp_AfbWithOneBranchIsThePlainFir :
    start.afb.fault = .none ∧ afbFits start.syn 1 2 = true ∧ afbOk 1 2 = true := by decide

theorem test_hyp_AccessorsReturnLAndK :
    (fresh.afb.fault = .none ∧ fresh.afb.cfg = .configured) ∧ (start.afb.fault = .none ∧ start.afb.cfg = .unconfigured) := by
  decide

/-- At the last preamble position and at the first payload position. -/
theorem test_hyp_FmxProcessSelectsPreambleOrInput :
    (framed 0).FmxReady ∧ (framed 1).FmxReady ∧ (framed 3).FmxReady ∧ [re 7, re 8].length = (framed 0).fmx.L ∧
    (framed 0).fmx.c < (framed 0).fmx.P ∧ (framed 1).fmx.P ≤ (framed 1).fmx.c :=
  ⟨⟨rfl, rfl, by decide +kernel⟩, ⟨rfl, rfl, by decide +kernel⟩, ⟨rfl, rfl, by decide +kernel⟩, rfl, by decide, by decide⟩

theorem test_hyp_FmxProcessFaultsOnItsPreconditions :
    (start.fmx.fault = .none ∧ start.fmx.cfg = .unconfigured) ∧
    ((framed 0).fmx.fault = .none ∧ (framed 0).fmx.cfg = .configured ∧ (zeroVec 1).length ≠ (framed 0).fmx.L ∧
      (zeroVec 3).length ≠ (framed 0).fmx.L) := by
  decide

/-- A command that answers and one that faults, from states that meet the invariant. -/
theorem test_hyp_ResponsesHaveTheStatusesOfTheirCommands :
    (fresh.Inv ∧ fresh.faultOf .afb = .none ∧
      ∃ t, exec .afbGetL fresh = .next t ∧ t.faultOf .afb = .none) ∧
    (start.Inv ∧ start.faultOf .afb = .none ∧
      ∃ t, exec .afbGetL start = .next t ∧ t.faultOf .afb ≠ .none) :=
  ⟨⟨by decide +kernel, rfl, _, rfl, rfl⟩, ⟨by decide +kernel, rfl, _, rfl, by decide⟩⟩

/-- The same fault for FaultsArePrecise, both kinds for FaultsHaveExactlyTheirCauses. -/
theorem test_hyp_faults :
    (∃ t, exec .afbGetL start = .next t ∧ start.faultOf .afb = .none ∧ t.faultOf .afb = .notConfigured) ∧
    (∃ t, exec (.fmxProcess [re 7]) (framed 0) = .next t ∧ (framed 0).faultOf .fmx = .none ∧
      t.faultOf .fmx = .vectorLength) :=
  ⟨⟨_, rfl, rfl, rfl⟩, ⟨_, rfl, rfl, rfl⟩⟩

/-- FaultedUnitPerformsNothing, FaultStaysUntilReset and the clauses of ChecksComeInTheirOrder on a faulted unit: FT4. -/
theorem test_hyp_faulted_unit :
    faulted.faultOf .afb ≠ .none ∧
    ∃ t, execAll [.afbConfig 1 [re 1], .fmxConfig 1 1 [], .afbGetL] faulted = .next t :=
  ⟨by decide, _, rfl⟩

/-- The clauses of ChecksComeInTheirOrder: a word that decodes to nothing, faulted units, capacities, unconfigured units. -/
theorem test_hyp_ChecksComeInTheirOrder :
    decode ⟨0x00000012#32, [.vec []]⟩ = .error .reservedBits ∧ faulted.afb.fault ≠ .none ∧
    (start.raiseFault .fmx .vectorLength).fmx.fault ≠ .none ∧
    (start.afb.fault = .none ∧ afbFits start.syn 5 0 = false ∧ start.afb.cfg = .unconfigured) ∧
    (start.fmx.fault = .none ∧ fmxFits start.syn 1 5 0 = false ∧ start.fmx.cfg = .unconfigured) :=
  ⟨by simp [decode, Command.rsv], by decide, by decide, by decide, by decide⟩

/-- An interleaved run that answers: CommandsTouchOnlyTheirUnit, UnitsRunIndependently, and (two starts that differ in a
field that reset leaves unspecified) UnspecifiedFieldsAreUnobservable. -/
theorem test_hyp_interleaved_run :
    (∃ t, execAll [.afbConfig 1 [re 1], .fmxConfig 1 1 [], .afbGetL, .fmxProcess [re 2]] start = .next t) ∧
    start.afb.Agree { start.afb with L := 3, d := [[re 1]] } ∧ start.fmx.Agree { start.fmx with c := 9 } :=
  ⟨⟨_, rfl⟩, by decide +kernel, by decide +kernel⟩

theorem test_hyp_AfbIsDeterministic :
    start.syn = fresh.syn ∧ start.afb.fault = .none ∧ fresh.afb.fault = .none ∧ afbFits start.syn 2 4 = true ∧
    afbOk 2 4 = true ∧ (∀ i ∈ [Instr.afbGetL, .afbProcess []], i.unit = .afb) ∧
    ∃ t, execAll (.afbConfig 2 [re 1, re 2, re 3, re 4] :: [.afbGetL, .afbProcess []]) start = .next t :=
  ⟨rfl, rfl, rfl, rfl, rfl, by decide, _, rfl⟩

theorem test_hyp_FmxIsDeterministic :
    start.syn = (framed 3).syn ∧ start.fmx.fault = .none ∧ (framed 3).fmx.fault = .none ∧
    fmxFits start.syn 2 4 2 = true ∧ fmxOk 2 4 2 = true ∧ (∀ v ∈ [[re 7, re 8], [re 7, re 8]], v.length = 2) :=
  ⟨rfl, rfl, rfl, rfl, rfl, by simp⟩

theorem test_hyp_ChannelsShareNothing :
    ∃ (sys sys' : System) (s : State), sys[1]? = some s ∧ System.stepChannel 1 sys = .next sys' ∧ sys.length = 2 :=
  ⟨[start, { fresh with inbox := [.reset] }], _, { fresh with inbox := [.reset] }, rfl, rfl, rfl⟩

/-- A configured block that meets both invariants and steps: StepKeepsTheUnitInvariants, StepKeepsSamplesCanonical,
StepKeepsTheParametersAndTheOrder. -/
theorem test_hyp_step_invariants :
    ∃ s t : State, s.Inv ∧ s.Canonical ∧ step s = .next t := by
  have h : decode (encode .afbGetL) = .ok .afbGetL := by simp [decode, decodeOperands, Command.rsv, Command.opc, encode,
    Instr.header, Instr.operands]
  refine ⟨{ fresh with inbox := [.command (encode .afbGetL), .reset] },
    { fresh with inbox := [.reset], afbLog := [some ⟨.ok, .nat 2⟩] }, by decide +kernel, by decide +kernel, ?_⟩
  simp only [step, perform, h]
  rfl

/-- `-1` written two ways is one sample. -/
theorem test_hyp_CanonicalSamplesAreEqualAsNumbers :
    (re (-1)).wf = true ∧ (Cplx.root (1 / 2)).wf = true ∧ ∀ ρ : Valuation, (re (-1)).toComplex ρ = (Cplx.root (1 / 2)).toComplex ρ := by
  have h : re (-1) = Cplx.root (1 / 2) := by decide +kernel
  exact ⟨by decide +kernel, by decide +kernel, fun ρ => by rw [h]⟩

/-- A delay store whose numbers are 0 under one assignment and not under every one: the last clause of AfbIsLinear. -/
theorem test_hyp_AfbIsLinear_numbers :
    ∃ s : State, s.AfbReady ∧ cell s.afb.d 0 0 ≠ Cplx.zero ∧
      ∀ i < s.afb.L, ∀ k < s.afb.K, (cell s.afb.d i k).toComplex 0 = 0 := by
  refine ⟨twoBranch [[Cplx.symbol 0, Cplx.zero], [Cplx.zero, Cplx.zero]] 0, by decide +kernel, by decide +kernel, ?_⟩
  intro i hi k hk
  have h : ∀ i < 2, ∀ k < 2, cell [[Cplx.symbol 0, Cplx.zero], [Cplx.zero, Cplx.zero]] i k = Cplx.symbol 0 ∨
      cell [[Cplx.symbol 0, Cplx.zero], [Cplx.zero, Cplx.zero]] i k = Cplx.zero := by decide +kernel
  rcases h i hi k hk with e | e
  · exact (congrArg (Cplx.toComplex 0) e).trans (Cplx.toComplex_symbol 0 0)
  · exact (congrArg (Cplx.toComplex 0) e).trans (Cplx.toComplex_zero 0)

/-- The one-unit boots and the boot of both. -/
theorem test_hyp_BootSequenceRunsToASuccessfulEnd :
    afbFits small 2 4 = true ∧ afbOk 2 4 = true ∧ fmxFits small 4 2 8 = true ∧ fmxOk 4 2 8 = true ∧
    (∀ i ∈ [Instr.afbGetL, .afbProcess (zeroVec 2)],
      i = .afbGetL ∨ i = .afbGetOverlap ∨ ∃ u, i = .afbProcess u ∧ u.length = 2) ∧
    (∀ i ∈ [Instr.fmxProcess (zeroVec 4)], ∃ v, i = .fmxProcess v ∧ v.length = 4) ∧
    (∀ i ∈ [Instr.fmxProcess (zeroVec 4), .afbGetL, .afbProcess (zeroVec 2), .afbGetOverlap],
      i = .afbGetL ∨ i = .afbGetOverlap ∨ (∃ u, i = .afbProcess u ∧ u.length = 2) ∨
        ∃ v, i = .fmxProcess v ∧ v.length = 4) := by
  refine ⟨by decide, by decide, by decide, by decide, ?_, ?_, ?_⟩ <;> simp [zeroVec]

theorem test_hyp_ResetThenConfigRecoversAFaultedUnit :
    (∃ s : State, s.afb.fault ≠ .none ∧ afbFits s.syn 1 1 = true ∧ afbOk 1 1 = true ∧
      s.inbox = .command (encode (.afbConfig 1 [re 1])) :: .reset :: .command (encode (.afbConfig 1 [re 1])) :: []) ∧
    (∃ s : State, s.fmx.fault ≠ .none ∧ fmxFits s.syn 1 1 0 = true ∧ fmxOk 1 1 0 = true ∧
      s.inbox = .command (encode (.fmxConfig 1 1 [])) :: .reset :: .command (encode (.fmxConfig 1 1 [])) :: []) :=
  ⟨⟨{ faulted with
      inbox := [.command (encode (.afbConfig 1 [re 1])), .reset, .command (encode (.afbConfig 1 [re 1]))] },
    by decide, rfl, rfl, rfl⟩,
   ⟨{ start.raiseFault .fmx .vectorLength with
      inbox := [.command (encode (.fmxConfig 1 1 [])), .reset, .command (encode (.fmxConfig 1 1 []))] },
    by decide, rfl, rfl, rfl⟩⟩

end Sys2Proof.Tests
end

section
/-! PROOFS. Samples as data and as numbers: every complex number is a sample (R18, R105 (f)), and the canonical form of a
sample is unique. -/

namespace Sys2Proof

/-! ## Every complex number is a sample -/

/-- The assignment that reads the real parts of a sequence off the even symbols and the imaginary parts off the odd ones. -/
noncomputable def partsValuation (f : Nat → ℂ) : Valuation := fun m =>
  if m % 2 = 0 then ((f (m / 2)).re : ℂ) else ((f (m / 2)).im : ℂ)

theorem partsValuation_even (f : Nat → ℂ) (n : Nat) : partsValuation f (2 * n) = ((f n).re : ℂ) := by
  simp [partsValuation]

theorem partsValuation_odd (f : Nat → ℂ) (n : Nat) : partsValuation f (2 * n + 1) = ((f n).im : ℂ) := by
  have hhalf : (2 * n + 1) / 2 = n := by omega
  simp [partsValuation, hhalf]

/-- Settles O48: the `n`-th number has the symbols `2n` and `2n + 1` as its parts. -/
theorem everyComplexNumberIsASample : Obligations.EveryComplexNumberIsASample := by
  intro f
  refine ⟨partsValuation f, fun n => .symbol (2 * n), fun n => .symbol (2 * n + 1), fun n => ?_⟩
  have hre : Part.toComplex (partsValuation f) (.symbol (2 * n)) = ((f n).re : ℂ) := partsValuation_even f n
  have him : Part.toComplex (partsValuation f) (.symbol (2 * n + 1)) = ((f n).im : ℂ) := partsValuation_odd f n
  refine ⟨Cplx.wf_ofParts _ _, ?_, hre, him⟩
  rw [Cplx.toComplex_ofParts, hre, him, Complex.re_add_im]

/-! ## Canonical samples that are equal as numbers -/

/-- Sums of terms with the same number for every assignment are the same polynomial in the symbols. -/
theorem termsPolynomial_congr {ts us : List RootTerm} (h : ∀ ρ : Valuation, termsValue ρ ts = termsValue ρ us) :
    termsPolynomial ts = termsPolynomial us :=
  MvPolynomial.funext fun ρ => by rw [eval_termsPolynomial, eval_termsPolynomial, h ρ]

/-- Basic terms have a common denominator for their turns. -/
theorem exists_basisTurns {ts : List RootTerm} (h : ∀ t ∈ ts, t.Basic) :
    ∃ n, 0 < n ∧ ∀ t ∈ ts, t.turn ∈ basisTurns n := by
  have hpos : 0 < (ts.map fun t => t.turn.den).prod := by
    refine List.prod_pos fun d hd => ?_
    obtain ⟨t, _, rfl⟩ := List.mem_map.mp hd
    exact t.turn.den_pos
  exact ⟨_, hpos, fun t ht => mem_basisTurns hpos (h t ht).1 (List.dvd_prod (List.mem_map_of_mem ht))⟩

/-- Basic terms have no weight at a turn outside their common basis or at symbols out of order. -/
theorem weight_of_not_basic {n : Nat} {ts : List RootTerm} (hb : ∀ t ∈ ts, t.turn ∈ basisTurns n)
    (hs : ∀ t ∈ ts, t.symbols.Pairwise (· ≤ ·)) {y : List Nat} {q : Rat}
    (h : ¬ (y.Pairwise (· ≤ ·) ∧ q ∈ basisTurns n)) : weight ts y q = 0 :=
  weight_of_no_term fun t ht e => h ⟨e.1 ▸ hs t ht, e.2 ▸ hb t ht⟩

/-- Basic terms that are the same polynomial have the same weights, since the roots of the basis are independent. -/
theorem weight_congr_of_polynomial {ts us : List RootTerm} (ht : ∀ t ∈ ts, t.Basic) (hu : ∀ u ∈ us, u.Basic)
    (h : termsPolynomial ts = termsPolynomial us) (y : List Nat) (q : Rat) : weight ts y q = weight us y q := by
  obtain ⟨n, hn, hturns⟩ := exists_basisTurns (ts := ts ++ us) fun t hm =>
    (List.mem_append.mp hm).elim (ht t) (hu t)
  have htb : ∀ t ∈ ts, t.turn ∈ basisTurns n := fun t hm => hturns t (List.mem_append_left _ hm)
  have hub : ∀ u ∈ us, u.turn ∈ basisTurns n := fun u hm => hturns u (List.mem_append_right _ hm)
  by_cases hyq : y.Pairwise (· ≤ ·) ∧ q ∈ basisTurns n
  · obtain ⟨hy, hq⟩ := hyq
    have hcoeff : ∑ q : basisTurns n, weight ts y q.1 • rootValue q.1
        = ∑ q : basisTurns n, weight us y q.1 • rootValue q.1 := by
      rw [← coeff_termsPolynomial htb (fun t hm => (ht t hm).2) hy, h,
        coeff_termsPolynomial hub (fun u hm => (hu u hm).2) hy]
    exact Fintype.linearIndependent_iffₛ.mp (basisRoots_independent hn) _ _ hcoeff ⟨q, hq⟩
  · rw [weight_of_not_basic htb (fun t hm => (ht t hm).2) hyq, weight_of_not_basic hub (fun u hm => (hu u hm).2) hyq]

/-- Settles O44: equal numbers give one polynomial, one polynomial gives equal weights, and the weights determine a
collected list of terms. -/
theorem canonicalSamplesAreEqualAsNumbers : Obligations.CanonicalSamplesAreEqualAsNumbers := by
  intro a b ha hb h
  obtain ⟨hac, hab⟩ := a.wf_iff.mp ha
  obtain ⟨hbc, hbb⟩ := b.wf_iff.mp hb
  have hterms : a.terms = b.terms :=
    collected_ext hac hbc (weight_congr_of_polynomial hab hbb (termsPolynomial_congr h))
  cases a
  cases b
  exact congrArg Cplx.mk hterms

end Sys2Proof
end

section
/-! PROOFS. Every step keeps the samples canonical (R18, R134): one lemma per update of the state, per operation that
commands share and per command. -/

namespace Sys2Proof

/-! ## Decoding keeps the operands -/

theorem decodeOperands_operands {opc : Nat} {ops : List Operand} {i : Instr} (h : decodeOperands opc ops = .ok i) :
    ops = i.operands := by
  unfold decodeOperands at h
  split at h
  case h_7 => cases h
  all_goals
    split at h
    · cases h
      rfl
    · cases h

/-- A command that decodes has the operands of its instruction (R84). -/
theorem decode_operands {c : Command} {i : Instr} (h : decode c = .ok i) : c.operands = i.operands := by
  unfold decode at h
  split at h
  · exact decodeOperands_operands h
  · cases h

end Sys2Proof

namespace Sys2Proof.Machine

/-- The operands of an instruction are canonical exactly when it is well-formed. -/
theorem encode_canonical (i : Instr) : HostEvent.canonical (.command (encode i)) = i.wellFormed := by
  cases i <;> simp [HostEvent.canonical, encode, Instr.operands, Instr.wellFormed]

/-- A pending command with canonical operands decodes to a well-formed instruction. -/
theorem decode_wellFormed {c : Command} {i : Instr} (hc : HostEvent.canonical (.command c) = true)
    (h : decode c = .ok i) : i.wellFormed = true := by
  rw [← encode_canonical i]
  simpa only [HostEvent.canonical, encode, decode_operands h] using hc

/-! ## The units -/

/-- The stores of AFB are canonical while it is configured. -/
abbrev Afb.Canonical (a : Afb) : Prop := a.cfg = .configured → Bank.wf a.h = true ∧ Bank.wf a.d = true

/-- The preamble store of FMX is canonical while it is configured. -/
abbrev Fmx.Canonical (x : Fmx) : Prop := x.cfg = .configured → Bank.wf x.pre = true

theorem partition_wf (L K : Nat) {taps : Vec} (h : Vec.wf taps = true) : Bank.wf (partition L K taps) = true :=
  tabulate_wf fun _ _ => elem_wf h _

theorem preambleRows_wf (P L : Nat) {flat : Vec} (h : Vec.wf flat = true) : Bank.wf (preambleRows P L flat) = true :=
  tabulate_wf fun _ _ => elem_wf h _

theorem Afb.configure_canonical (a : Afb) (L : Nat) {taps : Vec} (h : Vec.wf taps = true) :
    (a.configure L taps).Canonical :=
  fun _ => ⟨partition_wf _ _ h, tabulate_wf fun _ _ => Cplx.wf_zero⟩

theorem Afb.Canonical.advance (p : Synth) {a : Afb} {u : Vec} (ha : a.Canonical) (hu : Vec.wf u = true) :
    (a.advance p u).Canonical := fun hc => by
  obtain ⟨hh, hd⟩ := ha hc
  exact ⟨hh, shiftDelays_wf _ _ _ _ hd hu⟩

theorem Fmx.configure_canonical (x : Fmx) (L FL : Nat) {pre : Vec} (h : Vec.wf pre = true) :
    (x.configure L FL pre).Canonical :=
  fun _ => preambleRows_wf _ _ h

theorem Fmx.Canonical.advance {x : Fmx} (h : x.Canonical) : x.advance.Canonical := h

/-- FMX sends a preamble row or its input (R147), both canonical. -/
theorem Fmx.output_wf {x : Fmx} {v : Vec} (hx : Bank.wf x.pre = true) (hv : Vec.wf v = true) :
    Vec.wf (x.output v) = true := by
  unfold Fmx.output
  split
  · exact row_wf hx _
  · exact hv

theorem configured_of_processCheck {cfg : CfgFlag} {L n : Nat} (h : processCheck cfg L n = .none) :
    cfg = .configured := by
  cases cfg with
  | unconfigured => rw [processCheck_unconfigured] at h; cases h
  | configured => rfl

/-! ## The updates of the state -/

theorem canonicalLog_append (l m : List (Option Response)) :
    canonicalLog (l ++ m) = (canonicalLog l && canonicalLog m) := List.all_append

namespace State.Canonical

variable {s : State} {u : UnitId}

theorem afb (h : s.Canonical) : s.afb.Canonical := h.1

theorem fmx (h : s.Canonical) : s.fmx.Canonical := h.2.1

theorem withAfb {a : Afb} (h : s.Canonical) (ha : a.Canonical) : State.Canonical { s with afb := a } := by
  obtain ⟨_, hfmx, hinbox, hlogs⟩ := h
  exact ⟨ha, hfmx, hinbox, hlogs⟩

theorem withFmx {x : Fmx} (h : s.Canonical) (hx : x.Canonical) : State.Canonical { s with fmx := x } := by
  obtain ⟨hafb, _, hinbox, hlogs⟩ := h
  exact ⟨hafb, hx, hinbox, hlogs⟩

theorem report {r : Option Response} (h : s.Canonical) (hr : canonicalLog [r] = true) : (s.report u r).Canonical := by
  obtain ⟨hafb, hfmx, hinbox, hal, hfl⟩ := h
  cases u with
  | afb => exact ⟨hafb, hfmx, hinbox, by rw [State.report_afb_afbLog, canonicalLog_append, hal, hr]; rfl, hfl⟩
  | fmx => exact ⟨hafb, hfmx, hinbox, hal, by rw [State.report_fmx_fmxLog, canonicalLog_append, hfl, hr]; rfl⟩

theorem respond {st : Status} {p : Payload} (h : s.Canonical) (hp : Response.canonical ⟨st, p⟩ = true) :
    (s.respond u st p).Canonical :=
  h.report (by simpa [canonicalLog] using hp)

theorem respondVec {st : Status} {v : Vec} (h : s.Canonical) (hv : Vec.wf v = true) :
    (s.respond u st (.vec v)).Canonical := h.respond hv

theorem setFault {k : FaultKind} (h : s.Canonical) : (s.setFault u k).Canonical := by
  cases u with
  | afb => exact h
  | fmx => exact h

theorem notPerformed (h : s.Canonical) : (s.notPerformed u).Canonical := h.report rfl

theorem raiseFault {k : FaultKind} (h : s.Canonical) : (s.raiseFault u k).Canonical := h.setFault.report rfl

theorem unconfigureAfb (h : s.Canonical) : s.unconfigureAfb.Canonical :=
  h.withAfb (a := s.unconfigureAfb.afb) fun hc => by cases hc

theorem unconfigureFmx (h : s.Canonical) : s.unconfigureFmx.Canonical :=
  h.withFmx (x := s.unconfigureFmx.fmx) fun hc => by cases hc

theorem resetBlock (h : s.Canonical) : s.resetBlock.Canonical := by
  obtain ⟨hafb, hfmx, hinbox, _⟩ := h.unconfigureAfb.unconfigureFmx
  exact ⟨hafb, hfmx, hinbox, rfl, rfl⟩

end State.Canonical

/-! ## The commands -/

/-- A PROCESS or an accessor keeps the samples canonical when its effect does. -/
theorem checked_keeps_canonical {u : UnitId} {k : FaultKind} {s t done : State} (h : s.Canonical)
    (hdone : k = .none → done.Canonical)
    (he : whenUnfaulted u s (whenChecked u k s (.next done)) = .next t) : t.Canonical := by
  rcases checked_cases he with ⟨_, rfl⟩ | ⟨_, _, rfl⟩ | ⟨_, hk, rfl⟩
  · exact h.notPerformed
  · exact h.raiseFault
  · exact hdone hk

theorem execAfbConfig_keeps_canonical {L : Nat} {taps : Vec} {s t : State} (h : s.Canonical)
    (htaps : Vec.wf taps = true) (he : execAfbConfig L taps s = .next t) : t.Canonical := by
  rcases execAfbConfig_cases he with ⟨_, rfl⟩ | ⟨_, _, _, rfl⟩ | ⟨_, _, _, rfl⟩
  · exact h.notPerformed
  · exact h.unconfigureAfb.respond rfl
  · exact (h.withAfb (s.afb.configure_canonical L htaps)).respond rfl

theorem execFmxConfig_keeps_canonical {L FL : Nat} {pre : Vec} {s t : State} (h : s.Canonical)
    (hpre : Vec.wf pre = true) (he : execFmxConfig L FL pre s = .next t) : t.Canonical := by
  rcases execFmxConfig_cases he with ⟨_, rfl⟩ | ⟨_, _, _, rfl⟩ | ⟨_, _, _, rfl⟩
  · exact h.notPerformed
  · exact h.unconfigureFmx.respond rfl
  · exact (h.withFmx (s.fmx.configure_canonical L FL hpre)).respond rfl

/-- The output vector is canonical whatever the input is: every element ends in a product (R113). -/
theorem execAfbProcess_keeps_canonical {u : Vec} {s t : State} (h : s.Canonical) (hu : Vec.wf u = true)
    (he : execAfbProcess u s = .next t) : t.Canonical :=
  checked_keeps_canonical h (fun _ => (h.withAfb (h.afb.advance s.syn hu)).respondVec (s.afb.output_wf s.syn u)) he

theorem execFmxProcess_keeps_canonical {v : Vec} {s t : State} (h : s.Canonical) (hv : Vec.wf v = true)
    (he : execFmxProcess v s = .next t) : t.Canonical := by
  refine checked_keeps_canonical h (fun hk => ?_) he
  have hpre : Bank.wf s.fmx.pre = true := h.fmx (configured_of_processCheck hk)
  exact (h.withFmx h.fmx.advance).respondVec (Fmx.output_wf hpre hv)

theorem exec_keeps_canonical {i : Instr} {s t : State} (h : s.Canonical) (hi : i.wellFormed = true)
    (he : exec i s = .next t) : t.Canonical := by
  cases i with
  | afbConfig L taps => exact execAfbConfig_keeps_canonical h hi he
  | afbProcess u => exact execAfbProcess_keeps_canonical h hi he
  | afbGetL => exact checked_keeps_canonical h (fun _ => h.respond rfl) he
  | afbGetOverlap => exact checked_keeps_canonical h (fun _ => h.respond rfl) he
  | fmxConfig L FL pre => exact execFmxConfig_keeps_canonical h hi he
  | fmxProcess v => exact execFmxProcess_keeps_canonical h hi he

/-! ## The step -/

/-- Everything a step can do when it answers a next state: it waits, it resets the block, or it performs a command. -/
theorem step_cases {s t : State} (h : step s = .next t) :
    (s.inbox = [] ∧ t = s) ∨
    (∃ rest, s.inbox = .reset :: rest ∧ t = State.resetBlock { s with inbox := rest }) ∨
    (∃ c i rest, s.inbox = .command c :: rest ∧ decode c = .ok i ∧ exec i { s with inbox := rest } = .next t) := by
  unfold step at h
  split at h
  next he => exact .inl ⟨he, (Host.Outcome.next.inj h).symm⟩
  next rest he => exact .inr (.inl ⟨rest, he, (Host.Outcome.next.inj h).symm⟩)
  next c rest he =>
    unfold perform at h
    split at h
    next i hd => exact .inr (.inr ⟨c, i, rest, he, hd, h⟩)
    next => cases h

/-- Taking an action off the inbox leaves the block canonical, and the action's operands are. -/
theorem State.Canonical.takeAction {s : State} {e : HostEvent} {rest : List HostEvent} (h : s.Canonical)
    (he : s.inbox = e :: rest) : State.Canonical { s with inbox := rest } ∧ HostEvent.canonical e = true := by
  obtain ⟨hafb, hfmx, hinbox, hlogs⟩ := h
  rw [he, List.forall_mem_cons] at hinbox
  exact ⟨⟨hafb, hfmx, hinbox.2, hlogs⟩, hinbox.1⟩

/-- Settles O42, by the cases of a step. -/
theorem stepKeepsSamplesCanonical : Obligations.StepKeepsSamplesCanonical := by
  intro s t h hstep
  rcases step_cases hstep with ⟨_, rfl⟩ | ⟨rest, hin, rfl⟩ | ⟨c, i, rest, hin, hd, he⟩
  · exact h
  · exact (h.takeAction hin).1.resetBlock
  · obtain ⟨hrest, hc⟩ := h.takeAction hin
    exact exec_keeps_canonical hrest (decode_wellFormed hc hd) he

end Sys2Proof.Machine
end

section
/-! PROOFS. What a command leaves unchanged (R32, R53, R173), the invariants of the units (R39, R47), and the commutator's
mapping (R40). -/

namespace Sys2Proof.Machine

/-! ## What a command leaves unchanged -/

/-- Nothing but one unit and what the host got from it is different (R32). -/
abbrev OnlyUnitChanged (u : UnitId) (s t : State) : Prop :=
  match u with
  | .afb => OnlyAfbChanged s t
  | .fmx => OnlyFmxChanged s t

theorem State.notPerformed_onlyUnitChanged (u : UnitId) (s : State) : OnlyUnitChanged u s (s.notPerformed u) := by
  cases u with
  | afb => exact ⟨rfl, rfl, rfl, rfl⟩
  | fmx => exact ⟨rfl, rfl, rfl, rfl⟩

theorem State.raiseFault_onlyUnitChanged (u : UnitId) (k : FaultKind) (s : State) :
    OnlyUnitChanged u s (s.raiseFault u k) := by
  cases u with
  | afb => exact ⟨rfl, rfl, rfl, rfl⟩
  | fmx => exact ⟨rfl, rfl, rfl, rfl⟩

/-- A PROCESS or an accessor changes only its unit when its effect does. -/
theorem checked_onlyUnitChanged {u : UnitId} {k : FaultKind} {s t done : State}
    (he : whenUnfaulted u s (whenChecked u k s (.next done)) = .next t) (hdone : OnlyUnitChanged u s done) :
    OnlyUnitChanged u s t := by
  rcases checked_cases he with ⟨_, rfl⟩ | ⟨_, _, rfl⟩ | ⟨_, _, rfl⟩
  · exact s.notPerformed_onlyUnitChanged u
  · exact s.raiseFault_onlyUnitChanged u k
  · exact hdone

theorem execAfbConfig_onlyAfbChanged {L : Nat} {taps : Vec} {s t : State} (he : execAfbConfig L taps s = .next t) :
    OnlyAfbChanged s t := by
  rcases execAfbConfig_cases he with ⟨_, rfl⟩ | ⟨_, _, _, rfl⟩ | ⟨_, _, _, rfl⟩
  · exact s.notPerformed_onlyUnitChanged .afb
  · exact ⟨rfl, rfl, rfl, rfl⟩
  · exact ⟨rfl, rfl, rfl, rfl⟩

theorem execFmxConfig_onlyFmxChanged {L FL : Nat} {pre : Vec} {s t : State}
    (he : execFmxConfig L FL pre s = .next t) : OnlyFmxChanged s t := by
  rcases execFmxConfig_cases he with ⟨_, rfl⟩ | ⟨_, _, _, rfl⟩ | ⟨_, _, _, rfl⟩
  · exact s.notPerformed_onlyUnitChanged .fmx
  · exact ⟨rfl, rfl, rfl, rfl⟩
  · exact ⟨rfl, rfl, rfl, rfl⟩

theorem exec_onlyUnitChanged {i : Instr} {s t : State} (he : exec i s = .next t) : OnlyUnitChanged i.unit s t := by
  cases i with
  | afbConfig L taps => exact execAfbConfig_onlyAfbChanged he
  | afbProcess u => exact checked_onlyUnitChanged (u := .afb) he ⟨rfl, rfl, rfl, rfl⟩
  | afbGetL => exact checked_onlyUnitChanged (u := .afb) he ⟨rfl, rfl, rfl, rfl⟩
  | afbGetOverlap => exact checked_onlyUnitChanged (u := .afb) he ⟨rfl, rfl, rfl, rfl⟩
  | fmxConfig L FL pre => exact execFmxConfig_onlyFmxChanged he
  | fmxProcess v => exact checked_onlyUnitChanged (u := .fmx) he ⟨rfl, rfl, rfl, rfl⟩

/-- Settles O34, by the cases of each command's meaning. -/
theorem commandsTouchOnlyTheirUnit : Obligations.CommandsTouchOnlyTheirUnit := by
  intro i s t he
  have honly := exec_onlyUnitChanged he
  exact ⟨fun hu => by rwa [hu] at honly, fun hu => by rwa [hu] at honly⟩

/-- Whichever unit is addressed, the parameters (R53) and the pending actions stay. -/
theorem OnlyUnitChanged.syn_inbox {u : UnitId} {s t : State} (h : OnlyUnitChanged u s t) :
    t.syn = s.syn ∧ t.inbox = s.inbox := by
  cases u with
  | afb =>
    obtain ⟨_, _, hsyn, hinbox⟩ := h
    exact ⟨hsyn, hinbox⟩
  | fmx =>
    obtain ⟨_, _, hsyn, hinbox⟩ := h
    exact ⟨hsyn, hinbox⟩

/-- Settles O43: a step takes the first pending action, and what it then does keeps the parameters and the rest. -/
theorem stepKeepsTheParametersAndTheOrder : Obligations.StepKeepsTheParametersAndTheOrder := by
  intro s t hstep
  rcases step_cases hstep with ⟨hin, rfl⟩ | ⟨rest, hin, rfl⟩ | ⟨c, i, rest, hin, _, he⟩
  · simp [hin]
  · simp [hin]
  · simpa [hin] using (exec_onlyUnitChanged he).syn_inbox

/-! ## The invariants of the units -/

namespace State.Inv

variable {s : State} {u : UnitId}

theorem withAfb {a : Afb} (h : s.Inv) (ha : a.Inv s.syn) : State.Inv { s with afb := a } := ⟨ha, h.2⟩

theorem withFmx {x : Fmx} (h : s.Inv) (hx : x.Inv s.syn) : State.Inv { s with fmx := x } := ⟨h.1, hx⟩

theorem report {r : Option Response} (h : s.Inv) : (s.report u r).Inv := by
  cases u with
  | afb => exact h
  | fmx => exact h

theorem setFault {k : FaultKind} (h : s.Inv) : (s.setFault u k).Inv := by
  cases u with
  | afb => exact h
  | fmx => exact h

theorem notPerformed (h : s.Inv) : (s.notPerformed u).Inv := h.report

theorem raiseFault {k : FaultKind} (h : s.Inv) : (s.raiseFault u k).Inv := h.setFault.report

theorem respond {st : Status} {p : Payload} (h : s.Inv) : (s.respond u st p).Inv := h.report

/-- An unconfigured unit meets its invariant whatever its fields are. -/
theorem unconfigureAfb (h : s.Inv) : s.unconfigureAfb.Inv := ⟨nofun, h.2⟩

theorem unconfigureFmx (h : s.Inv) : s.unconfigureFmx.Inv := ⟨h.1, nofun⟩

end State.Inv

theorem State.resetBlock_inv (s : State) : s.resetBlock.Inv := ⟨nofun, nofun⟩

/-- A PROCESS or an accessor keeps the invariants when its effect does. -/
theorem checked_keeps_inv {u : UnitId} {k : FaultKind} {s t done : State} (h : s.Inv) (hdone : done.Inv)
    (he : whenUnfaulted u s (whenChecked u k s (.next done)) = .next t) : t.Inv := by
  rcases checked_cases he with ⟨_, rfl⟩ | ⟨_, _, rfl⟩ | ⟨_, _, rfl⟩
  · exact h.notPerformed
  · exact h.raiseFault
  · exact hdone

theorem execAfbConfig_keeps_inv {L : Nat} {taps : Vec} {s t : State} (h : s.Inv)
    (he : execAfbConfig L taps s = .next t) : t.Inv := by
  rcases execAfbConfig_cases he with ⟨_, rfl⟩ | ⟨_, _, _, rfl⟩ | ⟨_, hfit, hok, rfl⟩
  · exact h.notPerformed
  · exact h.unconfigureAfb.respond
  · exact (h.withAfb (s.afb.configure_inv s.syn hfit hok)).respond

theorem execFmxConfig_keeps_inv {L FL : Nat} {pre : Vec} {s t : State} (h : s.Inv)
    (he : execFmxConfig L FL pre s = .next t) : t.Inv := by
  rcases execFmxConfig_cases he with ⟨_, rfl⟩ | ⟨_, _, _, rfl⟩ | ⟨_, hfit, hok, rfl⟩
  · exact h.notPerformed
  · exact h.unconfigureFmx.respond
  · exact (h.withFmx (s.fmx.configure_inv s.syn hfit hok)).respond

theorem exec_keeps_inv {i : Instr} {s t : State} (h : s.Inv) (he : exec i s = .next t) : t.Inv := by
  cases i with
  | afbConfig L taps => exact execAfbConfig_keeps_inv h he
  | afbProcess u => exact checked_keeps_inv h (h.withAfb (Afb.advance_inv u h.1)).respond he
  | afbGetL => exact checked_keeps_inv h h.respond he
  | afbGetOverlap => exact checked_keeps_inv h h.respond he
  | fmxConfig L FL pre => exact execFmxConfig_keeps_inv h he
  | fmxProcess v => exact checked_keeps_inv h (h.withFmx (Fmx.advance_inv h.2)).respond he

/-- Settles O41, by the cases of a step. -/
theorem stepKeepsTheUnitInvariants : Obligations.StepKeepsTheUnitInvariants := by
  intro s t h hstep
  rcases step_cases hstep with ⟨_, rfl⟩ | ⟨rest, _, rfl⟩ | ⟨c, i, rest, _, _, he⟩
  · exact h
  · exact State.resetBlock_inv _
  · exact exec_keeps_inv (s := { s with inbox := rest }) h he

theorem State.resetOf_inv (p : Synth) : (State.resetOf p).Inv := ⟨nofun, nofun⟩

theorem State.resetOf_canonical (p : Synth) : (State.resetOf p).Canonical := ⟨nofun, nofun, nofun, rfl, rfl⟩

/-- Settles O40: after power-on no unit is configured, nothing is pending and the logs are empty. -/
theorem powerOnMeetsTheInvariants : Obligations.PowerOnMeetsTheInvariants :=
  fun p => ⟨State.resetOf_inv p, State.resetOf_canonical p⟩

/-! ## The commutator -/

theorem beta_cast (dir : CommDir) {L : Nat} (hL : 1 ≤ L) (r s : Nat) :
    (beta dir L r s : Int) = ((s : Int) + CommDir.sign dir * r) % L :=
  Int.toNat_of_nonneg (Int.emod_nonneg _ (by omega))

theorem betaInv_cast (dir : CommDir) {L : Nat} (hL : 1 ≤ L) (r b : Nat) :
    (betaInv dir L r b : Int) = ((b : Int) - CommDir.sign dir * r) % L :=
  Int.toNat_of_nonneg (Int.emod_nonneg _ (by omega))

/-- The mapping has period `L` in its index (R111). -/
theorem beta_add_period (dir : CommDir) (L r s : Nat) : beta dir L (r + L) s = beta dir L r s := by
  unfold beta
  rw [Nat.cast_add, mul_add, ← add_assoc, Int.add_mul_emod_self_right]

/-- Settles O14, from the mapping's range, formula, inverse, value at 0 and period. -/
theorem commutatorMappingIsABijection : Obligations.CommutatorMappingIsABijection := by
  intro dir L r hL
  refine ⟨fun i hi => ?_, fun b hb => ?_⟩
  · exact ⟨beta_lt dir hL r i, beta_cast dir hL r i, betaInv_beta dir r hi, beta_zero dir hi, beta_add_period dir L r i⟩
  · exact ⟨betaInv_lt dir hL r b, betaInv_cast dir hL r b, beta_betaInv dir r hb⟩

end Sys2Proof.Machine
end

section
/-! PROOFS. What is unspecified in an unconfigured unit is unobservable (R35 to R38, R44 to R46, R190): a relation between
two states, kept by every operation that commands share, by every command and so by every run. -/

namespace Sys2Proof.Machine

/-! ## The units -/

/-- Agreeing AFB states that are configured are equal. -/
theorem Afb.Agree.eq_of_configured {a b : Afb} (h : a.Agree b) (hc : a.cfg = .configured) : a = b := h.2.2 hc

/-- Agreeing FMX states that are configured are equal. -/
theorem Fmx.Agree.eq_of_configured {x y : Fmx} (h : x.Agree y) (hc : x.cfg = .configured) : x = y := h.2.2 hc

theorem Afb.Agree.withFault {a b : Afb} (h : a.Agree b) (k : FaultKind) :
    Afb.Agree { a with fault := k } { b with fault := k } :=
  ⟨h.1, rfl, fun hc => by rw [h.eq_of_configured hc]⟩

theorem Fmx.Agree.withFault {x y : Fmx} (h : x.Agree y) (k : FaultKind) :
    Fmx.Agree { x with fault := k } { y with fault := k } :=
  ⟨h.1, rfl, fun hc => by rw [h.eq_of_configured hc]⟩

/-- AFB_CONFIG initialises the unit completely (R104): of the old one only `fault` is left. -/
theorem Afb.Agree.configure {a b : Afb} (h : a.Agree b) (L : Nat) (taps : Vec) :
    (a.configure L taps).Agree (b.configure L taps) :=
  ⟨rfl, h.2.1, fun _ => by rw [Afb.configure, Afb.configure, h.2.1]⟩

/-- FMX_CONFIG initialises the unit completely (R142): of the old one only `fault` is left. -/
theorem Fmx.Agree.configure {x y : Fmx} (h : x.Agree y) (L FL : Nat) (pre : Vec) :
    (x.configure L FL pre).Agree (y.configure L FL pre) :=
  ⟨rfl, h.2.1, fun _ => by rw [Fmx.configure, Fmx.configure, h.2.1]⟩

theorem Afb.Agree.advance {a b : Afb} (h : a.Agree b) (p : Synth) (u : Vec) : (a.advance p u).Agree (b.advance p u) :=
  ⟨h.1, h.2.1, fun hc => by rw [h.eq_of_configured hc]⟩

theorem Fmx.Agree.advance {x y : Fmx} (h : x.Agree y) : x.advance.Agree y.advance :=
  ⟨h.1, h.2.1, fun hc => by rw [h.eq_of_configured hc]⟩

/-- A PROCESS reads the unit's `L` only while it is configured, so units that agree then fail the same check. -/
theorem processCheck_congr {cfg cfg' : CfgFlag} {L L' : Nat} (hcfg : cfg = cfg') (hL : cfg = .configured → L = L')
    (n : Nat) : processCheck cfg L n = processCheck cfg' L' n := by
  subst hcfg
  cases cfg with
  | unconfigured => rfl
  | configured => rw [hL rfl]

theorem configured_of_configuredCheck {cfg : CfgFlag} (h : configuredCheck cfg = .none) : cfg = .configured := by
  cases cfg with
  | unconfigured => cases h
  | configured => rfl

/-! ## The state -/

/-- Two states of one built block that have answered alike and whose units differ only in the unspecified fields of an
unconfigured one. The pending actions and the count of free values may differ. -/
structure State.Alike (s s' : State) : Prop where
  syn : s.syn = s'.syn
  afb : s.afb.Agree s'.afb
  fmx : s.fmx.Agree s'.fmx
  afbLog : s.afbLog = s'.afbLog
  fmxLog : s.fmxLog = s'.fmxLog

namespace State.Alike

variable {s s' : State} {u : UnitId}

theorem faultOf_eq (h : s.Alike s') : s.faultOf u = s'.faultOf u := by
  cases u with
  | afb => exact h.afb.2.1
  | fmx => exact h.fmx.2.1

theorem withAfb {a a' : Afb} (h : s.Alike s') (ha : a.Agree a') :
    State.Alike { s with afb := a } { s' with afb := a' } :=
  ⟨h.syn, ha, h.fmx, h.afbLog, h.fmxLog⟩

theorem withFmx {x x' : Fmx} (h : s.Alike s') (hx : x.Agree x') :
    State.Alike { s with fmx := x } { s' with fmx := x' } :=
  ⟨h.syn, h.afb, hx, h.afbLog, h.fmxLog⟩

theorem report (h : s.Alike s') (r : Option Response) : (s.report u r).Alike (s'.report u r) := by
  cases u with
  | afb => exact ⟨h.syn, h.afb, h.fmx, congrArg (· ++ [r]) h.afbLog, h.fmxLog⟩
  | fmx => exact ⟨h.syn, h.afb, h.fmx, h.afbLog, congrArg (· ++ [r]) h.fmxLog⟩

theorem respond {st : Status} {p p' : Payload} (h : s.Alike s') (hp : p = p') :
    (s.respond u st p).Alike (s'.respond u st p') := hp ▸ h.report _

theorem notPerformed (h : s.Alike s') : (s.notPerformed u).Alike (s'.notPerformed u) := h.report none

theorem setFault (h : s.Alike s') (k : FaultKind) : (s.setFault u k).Alike (s'.setFault u k) := by
  cases u with
  | afb => exact h.withAfb (h.afb.withFault k)
  | fmx => exact h.withFmx (h.fmx.withFault k)

theorem raiseFault (h : s.Alike s') (k : FaultKind) : (s.raiseFault u k).Alike (s'.raiseFault u k) :=
  (h.setFault k).report none

/-- The free values of the two states are of no account: the unit is unconfigured in both. -/
theorem unconfigureAfb (h : s.Alike s') : s.unconfigureAfb.Alike s'.unconfigureAfb :=
  ⟨h.syn, ⟨rfl, h.afb.2.1, nofun⟩, h.fmx, h.afbLog, h.fmxLog⟩

/-- As `unconfigureAfb`, for FMX. -/
theorem unconfigureFmx (h : s.Alike s') : s.unconfigureFmx.Alike s'.unconfigureFmx :=
  ⟨h.syn, h.afb, ⟨rfl, h.fmx.2.1, nofun⟩, h.afbLog, h.fmxLog⟩

end State.Alike

/-! ## The answers -/

/-- Where the first result is a next state, the second is one that is alike. -/
def AnswersAlike (r r' : Result) : Prop := ∀ t, r = .next t → ∃ t', r' = .next t' ∧ t.Alike t'

namespace AnswersAlike

variable {s s' : State} {u : UnitId} {r r' q q' : Result}

theorem next (h : s.Alike s') : AnswersAlike (.next s) (.next s') := fun _ ht => by
  cases ht
  exact ⟨s', rfl, h⟩

theorem refused (why : Refusal) : AnswersAlike (.refused why) r := nofun

theorem ite {b b' : Bool} (hb : b = b') (hr : AnswersAlike r r') (hq : AnswersAlike q q') :
    AnswersAlike (if b then r else q) (if b' then r' else q') := by
  subst hb
  cases b with
  | false => exact hq
  | true => exact hr

/-- Check (2) of R172 has the same outcome. -/
theorem whenUnfaulted (h : s.Alike s') (hr : AnswersAlike r r') :
    AnswersAlike (whenUnfaulted u s r) (whenUnfaulted u s' r') := by
  rcases FaultKind.cases_none (s.faultOf u) with hf | hf
  · rw [whenUnfaulted_of_none r hf, whenUnfaulted_of_none r' (h.faultOf_eq ▸ hf)]
    exact hr
  · rw [whenUnfaulted_of_faulted r hf, whenUnfaulted_of_faulted r' (h.faultOf_eq ▸ hf)]
    exact next h.notPerformed

/-- Checks (5) and (6) of R172 have the same outcome. -/
theorem whenChecked {k k' : FaultKind} (h : s.Alike s') (hk : k = k') (hr : k = .none → AnswersAlike r r') :
    AnswersAlike (whenChecked u k s r) (whenChecked u k' s' r') := by
  subst hk
  rcases FaultKind.cases_none k with rfl | hk
  · exact hr rfl
  · rw [whenChecked_of_fault s r hk, whenChecked_of_fault s' r' hk]
    exact next (h.raiseFault k)

end AnswersAlike

/-! ## The commands -/

section

variable {s s' : State}

theorem execAfbConfig_alike (h : s.Alike s') (L : Nat) (taps : Vec) :
    AnswersAlike (execAfbConfig L taps s) (execAfbConfig L taps s') := by
  have hfits : (!afbFits s.syn L taps.length) = !afbFits s'.syn L taps.length := by rw [h.syn]
  exact .whenUnfaulted h <| .ite hfits (.refused _) <| .ite rfl (.next (h.unconfigureAfb.respond rfl))
    (.next ((h.withAfb (h.afb.configure L taps)).respond rfl))

theorem execFmxConfig_alike (h : s.Alike s') (L FL : Nat) (pre : Vec) :
    AnswersAlike (execFmxConfig L FL pre s) (execFmxConfig L FL pre s') := by
  have hfits : (!fmxFits s.syn L FL pre.length) = !fmxFits s'.syn L FL pre.length := by rw [h.syn]
  exact .whenUnfaulted h <| .ite hfits (.refused _) <| .ite rfl (.next (h.unconfigureFmx.respond rfl))
    (.next ((h.withFmx (h.fmx.configure L FL pre)).respond rfl))

theorem execAfbProcess_alike (h : s.Alike s') (u : Vec) :
    AnswersAlike (execAfbProcess u s) (execAfbProcess u s') := by
  have hcheck := processCheck_congr h.afb.1 (fun hc => congrArg Afb.L (h.afb.eq_of_configured hc)) u.length
  refine .whenUnfaulted h <| .whenChecked h hcheck fun hk => .next ?_
  have hafb : s.afb = s'.afb := h.afb.eq_of_configured (configured_of_processCheck hk)
  have hadvance : (s.afb.advance s.syn u).Agree (s'.afb.advance s'.syn u) := h.syn ▸ h.afb.advance s.syn u
  exact (h.withAfb hadvance).respond (by rw [hafb, h.syn])

theorem execFmxProcess_alike (h : s.Alike s') (v : Vec) :
    AnswersAlike (execFmxProcess v s) (execFmxProcess v s') := by
  have hcheck := processCheck_congr h.fmx.1 (fun hc => congrArg Fmx.L (h.fmx.eq_of_configured hc)) v.length
  refine .whenUnfaulted h <| .whenChecked h hcheck fun hk => .next ?_
  have hfmx : s.fmx = s'.fmx := h.fmx.eq_of_configured (configured_of_processCheck hk)
  exact (h.withFmx h.fmx.advance).respond (by rw [hfmx])

/-- An accessor answers alike whichever field it reads: it reads one only while AFB is configured. -/
theorem accessor_alike (h : s.Alike s') (field : Afb → Nat) :
    AnswersAlike
      (whenUnfaulted .afb s <| whenChecked .afb (configuredCheck s.afb.cfg) s <|
        .next (s.respond .afb .ok (.nat (field s.afb))))
      (whenUnfaulted .afb s' <| whenChecked .afb (configuredCheck s'.afb.cfg) s' <|
        .next (s'.respond .afb .ok (.nat (field s'.afb)))) := by
  refine .whenUnfaulted h <| .whenChecked h (congrArg configuredCheck h.afb.1) fun hk => .next ?_
  have hafb : s.afb = s'.afb := h.afb.eq_of_configured (configured_of_configuredCheck hk)
  exact h.respond (by rw [hafb])

theorem exec_alike (h : s.Alike s') (i : Instr) : AnswersAlike (exec i s) (exec i s') := by
  cases i with
  | afbConfig L taps => exact execAfbConfig_alike h L taps
  | afbProcess u => exact execAfbProcess_alike h u
  | afbGetL => exact accessor_alike h Afb.L
  | afbGetOverlap => exact accessor_alike h Afb.K
  | fmxConfig L FL pre => exact execFmxConfig_alike h L FL pre
  | fmxProcess v => exact execFmxProcess_alike h v

/-! ## The runs -/

theorem execAll_alike (h : s.Alike s') (is : List Instr) : AnswersAlike (execAll is s) (execAll is s') := by
  induction is generalizing s s' with
  | nil => exact .next h
  | cons i is ih =>
    intro t ht
    obtain ⟨m, hm, hrest⟩ := execAll_cons_cases ht
    obtain ⟨m', hm', halike⟩ := exec_alike h i m hm
    rw [execAll_cons_next hm']
    exact ih halike t hrest

end

/-- Settles O36, by induction over the run. -/
theorem unspecifiedFieldsAreUnobservable : Obligations.UnspecifiedFieldsAreUnobservable := by
  intro is s s' t hsyn hafb hfmx hafbLog hfmxLog hrun
  have halike : s.Alike s' := ⟨hsyn, hafb, hfmx, hafbLog, hfmxLog⟩
  obtain ⟨t', hrun', ht⟩ := execAll_alike halike is t hrun
  exact ⟨t', hrun', ht.afb, ht.fmx, ht.afbLog, ht.fmxLog⟩

end Sys2Proof.Machine
end

section
/-! PROOFS. Order and independence (20_memory.md): the serial order of a vector's parts (R65), the step as the meaning of
the next command (R66, R70), a configuration performed twice (R69) and the interleavings of the two units (R71). -/

namespace Sys2Proof.Machine

/-! ## The serial order of a vector's parts -/

/-- `ps` holds two parts for each element of `v`, in the order of the elements, and those of an element are related to it
by `R`. -/
def PartsInOrder {α : Type} (R : Cplx → α → α → Prop) (v : Vec) (ps : List α) : Prop :=
  ps.length = 2 * v.length ∧
  ∀ i < v.length, ∃ re im, ps[2 * i]? = some re ∧ ps[2 * i + 1]? = some im ∧ R (elem v i) re im

namespace PartsInOrder

variable {α : Type} {R : Cplx → α → α → Prop}

theorem nil : PartsInOrder R [] [] := ⟨rfl, nofun⟩

/-- Two parts more for one element more: element `i + 1` has the parts that element `i` had, two places later. -/
theorem cons {z : Cplx} {v : Vec} {re im : α} {ps : List α} (hz : R z re im) (h : PartsInOrder R v ps) :
    PartsInOrder R (z :: v) (re :: im :: ps) := by
  obtain ⟨hlen, helem⟩ := h
  refine ⟨by simp only [List.length_cons]; omega, fun i hi => ?_⟩
  cases i with
  | zero => exact ⟨re, im, rfl, rfl, hz⟩
  | succ i => exact helem i (Nat.lt_of_succ_lt_succ hi)

end PartsInOrder

/-- A sample is sent as these parts: they are the codes of its real and its imaginary part (R65). -/
def SentAs (fmt : SampleFmt) (z : Cplx) (re im : BitVec fmt.width) : Prop :=
  ∃ a b, z = Cplx.ofParts a b ∧ fmt.code a = some re ∧ fmt.code b = some im

/-- These parts are read as a sample: they stand for its real and its imaginary part (R65). -/
def ReadAs (fmt : SampleFmt) (z : Cplx) (re im : BitVec fmt.width) : Prop :=
  z = Cplx.ofParts (fmt.value re) (fmt.value im)

theorem sentAs_of_partsOfSample {fmt : SampleFmt} {z : Cplx} {ps : List (BitVec fmt.width)}
    (h : partsOfSample fmt z = some ps) : ∃ re im, ps = [re, im] ∧ SentAs fmt z re im := by
  unfold partsOfSample at h
  split at h
  next => cases h
  next a b hz =>
    split at h
    next re im ha hb => exact ⟨re, im, (Option.some.inj h).symm, a, b, Cplx.ofParts_of_parts? hz, ha, hb⟩
    next => cases h

/-- The parts of a vector are those of its element 0, then those of the other elements. -/
theorem partsOfSamples_cons_cases {fmt : SampleFmt} {z : Cplx} {v : Vec} {ps : List (BitVec fmt.width)}
    (h : partsOfSamples fmt (z :: v) = some ps) :
    ∃ re im qs, ps = re :: im :: qs ∧ SentAs fmt z re im ∧ partsOfSamples fmt v = some qs := by
  unfold partsOfSamples at h
  split at h
  next rs qs hz hv =>
    obtain ⟨re, im, rfl, hsent⟩ := sentAs_of_partsOfSample hz
    exact ⟨re, im, qs, (Option.some.inj h).symm, hsent, hv⟩
  next => cases h

/-- What a sequence of parts can carry: no sample, or a sample in its first two parts and the others in the rest. -/
theorem samplesOfParts_cases {fmt : SampleFmt} {v : Vec} {ps : List (BitVec fmt.width)}
    (h : samplesOfParts fmt ps = some v) :
    (ps = [] ∧ v = []) ∨
    ∃ re im qs z w, ps = re :: im :: qs ∧ v = z :: w ∧ ReadAs fmt z re im ∧ samplesOfParts fmt qs = some w := by
  unfold samplesOfParts at h
  split at h
  next => exact .inl ⟨rfl, (Option.some.inj h).symm⟩
  next => cases h
  next re im qs =>
    obtain ⟨w, hw, hv⟩ := Option.map_eq_some_iff.mp h
    exact .inr ⟨re, im, qs, _, w, rfl, hv.symm, rfl, hw⟩

theorem partsOfSamples_inOrder {fmt : SampleFmt} {v : Vec} {ps : List (BitVec fmt.width)}
    (h : partsOfSamples fmt v = some ps) : PartsInOrder (SentAs fmt) v ps := by
  induction v generalizing ps with
  | nil => cases h; exact .nil
  | cons z v ih =>
    obtain ⟨re, im, qs, rfl, hz, hv⟩ := partsOfSamples_cons_cases h
    exact (ih hv).cons hz

theorem samplesOfParts_inOrder {fmt : SampleFmt} {v : Vec} {ps : List (BitVec fmt.width)}
    (h : samplesOfParts fmt ps = some v) : PartsInOrder (ReadAs fmt) v ps := by
  induction v generalizing ps with
  | nil =>
    rcases samplesOfParts_cases h with ⟨rfl, _⟩ | ⟨_, _, _, _, _, _, hv, _⟩
    · exact .nil
    · cases hv
  | cons z v ih =>
    rcases samplesOfParts_cases h with ⟨_, hv⟩ | ⟨re, im, qs, _, _, rfl, hv, hz, hrest⟩
    · cases hv
    · cases hv
      exact (ih hrest).cons hz

/-- Settles O5: both directions carry the parts in order, by induction over the vector. -/
theorem serialVectorsGoElementByElement : Obligations.SerialVectorsGoElementByElement := by
  intro fmt w v
  refine ⟨fun ps hps => ?_, fun ps hps => samplesOfParts_inOrder hps, fun item => ?_, fun items => ?_, rfl⟩
  · obtain ⟨hlen, helem⟩ := partsOfSamples_inOrder hps
    refine ⟨hlen, fun i hi => ?_⟩
    obtain ⟨re, im, hre, him, a, b, hz, ha, hb⟩ := helem i hi
    exact ⟨a, b, hz, ha.trans hre.symm, hb.trans him.symm⟩
  · rw [itemOfOperand, Option.map_eq_some_iff]
    exact exists_congr fun ps => and_congr_right' eq_comm
  · rw [itemsOfPayload, Option.map_eq_some_iff]
    exact exists_congr fun ps => and_congr_right' eq_comm

/-! ## The step -/

theorem step_command {s : State} {c : Command} {rest : List HostEvent} (h : s.inbox = .command c :: rest) :
    step s = perform c { s with inbox := rest } := by
  rw [step, h]

theorem perform_decoded {c : Command} {i : Instr} (h : decode c = .ok i) (s : State) : perform c s = exec i s := by
  rw [perform, h]

/-- Settles O8: the step takes the command off the inbox, and the command is performed as what it decodes to. -/
theorem stepRunsTheDecodedCommand : Obligations.StepRunsTheDecodedCommand := by
  intro s c i rest hin hdec
  rw [step_command hin, perform_decoded hdec]

/-! ## A configuration performed twice -/

/-- A configuration keeps only `fault` of the unit, which it does not change (R104). -/
theorem Afb.configure_configure (a : Afb) (L L' : Nat) (taps taps' : Vec) :
    (a.configure L' taps').configure L taps = a.configure L taps := rfl

/-- A configuration keeps only `fault` of the unit, which it does not change (R142). -/
theorem Fmx.configure_configure (x : Fmx) (L L' FL FL' : Nat) (pre pre' : Vec) :
    (x.configure L' FL' pre').configure L FL pre = x.configure L FL pre := rfl

/-- Settles O13: the state after the first CONFIG meets the conditions of the second. -/
theorem configTwiceIsConfigOnce : Obligations.ConfigTwiceIsConfigOnce := by
  refine ⟨fun s L taps hf hfit hok => ?_, fun s L FL pre hf hfit hok => ?_⟩
  · exact ⟨_, _, execAfbConfig_ok hf hfit hok, execAfbConfig_ok hf hfit hok, s.afb.configure_configure L L taps taps, rfl⟩
  · exact ⟨_, _, execFmxConfig_ok hf hfit hok, execFmxConfig_ok hf hfit hok,
      s.fmx.configure_configure L L FL FL pre pre, rfl⟩

/-! ## The interleavings of the two units -/

theorem Afb.Agree.refl (a : Afb) : a.Agree a := ⟨rfl, rfl, fun _ => rfl⟩

theorem Fmx.Agree.refl (x : Fmx) : x.Agree x := ⟨rfl, rfl, fun _ => rfl⟩

theorem Afb.Agree.symm {a b : Afb} (h : a.Agree b) : b.Agree a :=
  ⟨h.1.symm, h.2.1.symm, fun hc => (h.eq_of_configured (h.1.trans hc)).symm⟩

theorem Fmx.Agree.symm {x y : Fmx} (h : x.Agree y) : y.Agree x :=
  ⟨h.1.symm, h.2.1.symm, fun hc => (h.eq_of_configured (h.1.trans hc)).symm⟩

/-- The state with the unit other than `u`, and what the host got from it, as they are in `o`. -/
def State.withOtherOf (u : UnitId) (s o : State) : State :=
  match u with
  | .afb => { s with fmx := o.fmx, fmxLog := o.fmxLog }
  | .fmx => { s with afb := o.afb, afbLog := o.afbLog }

section

variable {u : UnitId} {s t o : State}

theorem State.faultOf_withOtherOf : (s.withOtherOf u o).faultOf u = s.faultOf u := by
  cases u with
  | afb => rfl
  | fmx => rfl

theorem State.notPerformed_withOtherOf : (s.withOtherOf u o).notPerformed u = (s.notPerformed u).withOtherOf u o := by
  cases u with
  | afb => rfl
  | fmx => rfl

theorem State.raiseFault_withOtherOf (k : FaultKind) :
    (s.withOtherOf u o).raiseFault u k = (s.raiseFault u k).withOtherOf u o := by
  cases u with
  | afb => rfl
  | fmx => rfl

/-- What a PROCESS or an accessor to `u` comes to does not depend on the other unit. -/
theorem checked_withOtherOf {k : FaultKind} {done : State} (o : State)
    (he : whenUnfaulted u s (whenChecked u k s (.next done)) = .next t) :
    whenUnfaulted u (s.withOtherOf u o) (whenChecked u k (s.withOtherOf u o) (.next (done.withOtherOf u o)))
      = .next (t.withOtherOf u o) := by
  rcases checked_cases he with ⟨hf, rfl⟩ | ⟨hf, hk, rfl⟩ | ⟨hf, rfl, rfl⟩
  all_goals rw [← State.faultOf_withOtherOf (o := o)] at hf
  · rw [whenUnfaulted_of_faulted _ hf, State.notPerformed_withOtherOf]
  · rw [whenUnfaulted_of_none _ hf, whenChecked_of_fault _ _ hk, State.raiseFault_withOtherOf]
  · rw [whenUnfaulted_of_none _ hf, whenChecked_of_none]

theorem execAfbConfig_withOtherOf {L : Nat} {taps : Vec} (o : State) (he : execAfbConfig L taps s = .next t) :
    execAfbConfig L taps (s.withOtherOf .afb o) = .next (t.withOtherOf .afb o) := by
  rcases execAfbConfig_cases he with ⟨hf, rfl⟩ | ⟨hf, hfit, hok, rfl⟩ | ⟨hf, hfit, hok, rfl⟩
  · exact exec_of_faulted (i := .afbConfig L taps) (s := s.withOtherOf .afb o) hf
  · exact execAfbConfig_mismatch (s := s.withOtherOf .afb o) hf hfit hok
  · exact execAfbConfig_ok (s := s.withOtherOf .afb o) hf hfit hok

theorem execFmxConfig_withOtherOf {L FL : Nat} {pre : Vec} (o : State) (he : execFmxConfig L FL pre s = .next t) :
    execFmxConfig L FL pre (s.withOtherOf .fmx o) = .next (t.withOtherOf .fmx o) := by
  rcases execFmxConfig_cases he with ⟨hf, rfl⟩ | ⟨hf, hfit, hok, rfl⟩ | ⟨hf, hfit, hok, rfl⟩
  · exact exec_of_faulted (i := .fmxConfig L FL pre) (s := s.withOtherOf .fmx o) hf
  · exact execFmxConfig_mismatch (s := s.withOtherOf .fmx o) hf hfit hok
  · exact execFmxConfig_ok (s := s.withOtherOf .fmx o) hf hfit hok

/-- No command reads the unit that it does not address (R32). -/
theorem exec_withOtherOf {i : Instr} (o : State) (he : exec i s = .next t) :
    exec i (s.withOtherOf i.unit o) = .next (t.withOtherOf i.unit o) := by
  cases i with
  | afbConfig L taps => exact execAfbConfig_withOtherOf o he
  | afbProcess v => exact checked_withOtherOf (u := .afb) o he
  | afbGetL => exact checked_withOtherOf (u := .afb) o he
  | afbGetOverlap => exact checked_withOtherOf (u := .afb) o he
  | fmxConfig L FL pre => exact execFmxConfig_withOtherOf o he
  | fmxProcess v => exact checked_withOtherOf (u := .fmx) o he

/-- The two states are alike (`State.Alike`) as far as the commands to `u` go. -/
def State.AlikeOn (u : UnitId) (s s' : State) : Prop :=
  match u with
  | .afb => s.syn = s'.syn ∧ s.afb.Agree s'.afb ∧ s.afbLog = s'.afbLog
  | .fmx => s.syn = s'.syn ∧ s.fmx.Agree s'.fmx ∧ s.fmxLog = s'.fmxLog

namespace State.AlikeOn

variable {s' : State}

theorem refl (u : UnitId) (s : State) : AlikeOn u s s := by
  cases u with
  | afb => exact ⟨rfl, .refl _, rfl⟩
  | fmx => exact ⟨rfl, .refl _, rfl⟩

/-- States that are alike on a unit are alike when the other unit is the same. -/
theorem alike (h : AlikeOn u s s') : (s.withOtherOf u s').Alike s' := by
  cases u with
  | afb =>
    obtain ⟨hsyn, hafb, hlog⟩ := h
    exact ⟨hsyn, hafb, .refl _, hlog, rfl⟩
  | fmx =>
    obtain ⟨hsyn, hfmx, hlog⟩ := h
    exact ⟨hsyn, .refl _, hfmx, rfl, hlog⟩

theorem of_alike (h : (s.withOtherOf u o).Alike s') : AlikeOn u s s' := by
  cases u with
  | afb => exact ⟨h.syn, h.afb, h.afbLog⟩
  | fmx => exact ⟨h.syn, h.fmx, h.fmxLog⟩

/-- A command to the unit itself, performed in both states. -/
theorem exec_addressed {i : Instr} (h : AlikeOn i.unit s s') (he : exec i s = .next t) :
    ∃ t', exec i s' = .next t' ∧ AlikeOn i.unit t t' := by
  obtain ⟨t', ht', halike⟩ := exec_alike h.alike i _ (exec_withOtherOf s' he)
  exact ⟨t', ht', of_alike halike⟩

/-- A change of the other unit is of no account. -/
theorem of_onlyUnitChanged {v : UnitId} (hv : v ≠ u) (h : AlikeOn u s s') (hchanged : OnlyUnitChanged v s t) :
    AlikeOn u t s' := by
  cases v with
  | afb =>
    obtain ⟨hfmx, hlog, hsyn, _⟩ := hchanged
    cases u with
    | afb => exact absurd rfl hv
    | fmx => rwa [AlikeOn, hfmx, hlog, hsyn]
  | fmx =>
    obtain ⟨hafb, hlog, hsyn, _⟩ := hchanged
    cases u with
    | afb => rwa [AlikeOn, hafb, hlog, hsyn]
    | fmx => exact absurd rfl hv

/-- The run of all the commands against the run of those to one unit: a command to it is performed in both, one to the
other unit in the first run only. -/
theorem execAll_filter {is : List Instr} (h : AlikeOn u s s') (hrun : execAll is s = .next t) :
    ∃ t', execAll (is.filter fun i => i.unit = u) s' = .next t' ∧ AlikeOn u t t' := by
  induction is generalizing s s' with
  | nil =>
    cases hrun
    exact ⟨s', rfl, h⟩
  | cons i is ih =>
    obtain ⟨m, hm, hrest⟩ := execAll_cons_cases hrun
    by_cases hi : i.unit = u
    · subst hi
      obtain ⟨m', hm', halike⟩ := h.exec_addressed hm
      rw [List.filter_cons_of_pos (by simp), execAll_cons_next hm']
      exact ih halike hrest
    · rw [List.filter_cons_of_neg (by simpa using hi)]
      exact ih (h.of_onlyUnitChanged hi (exec_onlyUnitChanged hm)) hrest

end State.AlikeOn

end

/-- Settles O35, by induction over the run: each unit's part of the state goes with its own commands only. -/
theorem unitsRunIndependently : Obligations.UnitsRunIndependently := by
  intro is s t hrun
  obtain ⟨ta, hta, _, hafb, hafbLog⟩ := (State.AlikeOn.refl .afb s).execAll_filter hrun
  obtain ⟨tf, htf, _, hfmx, hfmxLog⟩ := (State.AlikeOn.refl .fmx s).execAll_filter hrun
  exact ⟨⟨ta, hta, hafb.symm, hafbLog.symm⟩, tf, htf, hfmx.symm, hfmxLog.symm⟩

end Sys2Proof.Machine
end

section
/-! PROOFS. The encoding (30_encoding.md): the header as a number, the two directions of the decoder (R82, R84), the
commands that are refused (R89), the serial transport (R85, R86) and the assembler (R91 to R94). -/

namespace Sys2Proof

/-! ## The decoder -/

theorem Command.opc_toNat (c : Command) : c.opc.toNat = c.header.toNat % 16 := by
  simp [Command.opc, BitVec.extractLsb'_toNat]

/-- The reserved bits of a header are 0 exactly when the header is below 16 (R81). -/
theorem Command.rsv_eq_zero_iff (c : Command) : c.rsv = 0#28 ↔ c.header.toNat / 16 = 0 := by
  have hrsv : c.rsv.toNat = c.header.toNat / 16 := by
    have hlt := c.header.isLt
    simp only [Command.rsv, BitVec.extractLsb'_toNat, Nat.shiftRight_eq_div_pow]
    omega
  rw [← hrsv, BitVec.toNat_eq, BitVec.toNat_ofNat, Nat.zero_mod]

/-- The opcode map with its operand shapes, read in both directions (R82, R84). -/
theorem decodeOperands_eq_ok_iff {opc : Nat} {ops : List Operand} {i : Instr} :
    decodeOperands opc ops = .ok i ↔ opc = i.header.toNat ∧ ops = i.operands := by
  constructor
  · intro h
    refine ⟨?_, decodeOperands_operands h⟩
    unfold decodeOperands at h
    split at h
    case h_7 => cases h
    all_goals
      split at h
      · cases h
        rfl
      · cases h
  · rintro ⟨rfl, rfl⟩
    cases i <;> rfl

/-- The decoder speaks of the header as a number: nothing above the opcode, and the opcode's operands (R81, R89). -/
theorem decode_eq_ok_iff {c : Command} {i : Instr} :
    decode c = .ok i ↔
      c.header.toNat / 16 = 0 ∧ c.header.toNat % 16 = i.header.toNat ∧ c.operands = i.operands := by
  rw [← c.rsv_eq_zero_iff, ← c.opc_toNat, ← decodeOperands_eq_ok_iff, decode]
  split
  next hrsv => exact (and_iff_right hrsv).symm
  next hrsv => simp [hrsv]

theorem Instr.header_toNat_lt (i : Instr) : i.header.toNat < 16 := by
  cases i <;> simp [Instr.header]

/-- Settles O2: decoding fixes the header, as a number, and the operands. -/
theorem decodeExactlyInvertsEncode : Obligations.DecodeExactlyInvertsEncode := by
  intro c i
  have hlt := i.header_toNat_lt
  rw [decode_eq_ok_iff]
  constructor
  · rintro ⟨hrsv, hopc, hops⟩
    have hheader : c.header = i.header := BitVec.eq_of_toNat_eq (by omega)
    cases c
    exact congrArg₂ Command.mk hheader hops
  · rintro rfl
    exact ⟨Nat.div_eq_of_lt hlt, Nat.mod_eq_of_lt hlt, rfl⟩

@[simp] theorem decode_encode (i : Instr) : decode (encode i) = .ok i := (decodeExactlyInvertsEncode _ i).mpr rfl

/-- Settles O1: the six words with their operands are the encodings of the six instructions. -/
theorem headerWordsSpellTheCommands : Obligations.HeaderWordsSpellTheCommands := fun L FL v =>
  ⟨decode_encode (.afbConfig L v), decode_encode (.afbProcess v), decode_encode .afbGetL,
    decode_encode .afbGetOverlap, decode_encode (.fmxConfig L FL v), decode_encode (.fmxProcess v)⟩

end Sys2Proof

namespace Sys2Proof.Machine

/-! ## The refused encodings -/

/-- The shapes of R84 are those of the six instructions. -/
theorem operandShape_iff {opc : Nat} {ops : List Operand} :
    OperandShape opc ops ↔ ∃ i : Instr, opc = i.header.toNat ∧ ops = i.operands := by
  constructor
  · rintro (⟨rfl, L, taps, rfl⟩ | ⟨rfl, u, rfl⟩ | ⟨rfl, rfl⟩ | ⟨rfl, rfl⟩ | ⟨rfl, L, FL, pre, rfl⟩ | ⟨rfl, v, rfl⟩)
    · exact ⟨.afbConfig L taps, rfl, rfl⟩
    · exact ⟨.afbProcess u, rfl, rfl⟩
    · exact ⟨.afbGetL, rfl, rfl⟩
    · exact ⟨.afbGetOverlap, rfl, rfl⟩
    · exact ⟨.fmxConfig L FL pre, rfl, rfl⟩
    · exact ⟨.fmxProcess v, rfl, rfl⟩
  · rintro ⟨i, rfl, rfl⟩
    cases i with
    | afbConfig L taps => exact .inl ⟨rfl, L, taps, rfl⟩
    | afbProcess u => exact .inr (.inl ⟨rfl, u, rfl⟩)
    | afbGetL => exact .inr (.inr (.inl ⟨rfl, rfl⟩))
    | afbGetOverlap => exact .inr (.inr (.inr (.inl ⟨rfl, rfl⟩)))
    | fmxConfig L FL pre => exact .inr (.inr (.inr (.inr (.inl ⟨rfl, L, FL, pre, rfl⟩))))
    | fmxProcess v => exact .inr (.inr (.inr (.inr (.inr ⟨rfl, v, rfl⟩))))

theorem OperandShape.opc_bounds {opc : Nat} {ops : List Operand} (h : OperandShape opc ops) : 1 ≤ opc ∧ opc ≤ 6 := by
  unfold OperandShape at h
  omega

/-- A command spells an instruction exactly when its reserved bits are 0 and its operands have their opcode's shape. -/
theorem exists_decode_iff {c : Command} :
    (∃ i, decode c = .ok i) ↔ c.header.toNat / 16 = 0 ∧ OperandShape (c.header.toNat % 16) c.operands := by
  simp only [decode_eq_ok_iff, operandShape_iff, exists_and_left]

theorem whenUnfaulted_refused {u : UnitId} {s : State} {r : Result} {why : Refusal}
    (h : whenUnfaulted u s r = .refused why) : r = .refused why := by
  rcases FaultKind.cases_none (s.faultOf u) with hf | hf
  · rwa [whenUnfaulted_of_none r hf] at h
  · rw [whenUnfaulted_of_faulted r hf] at h
    cases h

theorem whenChecked_refused {u : UnitId} {k : FaultKind} {s : State} {r : Result} {why : Refusal}
    (h : whenChecked u k s r = .refused why) : r = .refused why := by
  rcases FaultKind.cases_none k with rfl | hk
  · exact h
  · rw [whenChecked_of_fault s r hk] at h
    cases h

/-- A PROCESS or an accessor is never refused (R169). -/
theorem checked_ne_refused {u : UnitId} {k : FaultKind} {s done : State} {why : Refusal} :
    whenUnfaulted u s (whenChecked u k s (.next done)) ≠ .refused why := fun h => by
  cases whenChecked_refused (whenUnfaulted_refused h)

/-- A command that spells an instruction is refused for its operands' size only (R103, R140, R169). -/
theorem exec_refused {i : Instr} {s : State} {why : Refusal} (h : exec i s = .refused why) : why = .capacity := by
  cases i with
  | afbConfig L taps =>
    have h' := whenUnfaulted_refused h
    split_ifs at h'
    exact (Host.Outcome.refused.inj h').symm
  | afbProcess u => exact absurd h checked_ne_refused
  | afbGetL => exact absurd h checked_ne_refused
  | afbGetOverlap => exact absurd h checked_ne_refused
  | fmxConfig L FL pre =>
    have h' := whenUnfaulted_refused h
    split_ifs at h'
    exact (Host.Outcome.refused.inj h').symm
  | fmxProcess v => exact absurd h checked_ne_refused

/-- RESERVED_ENCODING is the refusal of a command that spells no instruction, and of no other (R89). -/
theorem perform_reserved_iff {c : Command} {s : State} :
    perform c s = .refused .reservedEncoding ↔ ¬ ∃ i, decode c = .ok i := by
  unfold perform
  split
  next i hdec =>
    refine iff_of_false (fun h => ?_) (not_not_intro ⟨i, hdec⟩)
    cases exec_refused h
  next e hdec => simp [hdec]

/-- Settles O3: the refused commands are those that spell no instruction; an opcode out of range has no operand shape. -/
theorem reservedEncodingsAreRefused : Obligations.ReservedEncodingsAreRefused := by
  intro s c rest hin
  rw [step_command hin, perform_reserved_iff, exists_decode_iff, not_and_or]
  constructor
  · exact fun h => .inr (.inr h)
  · rintro (h | h | h)
    · exact .inr fun hshape => by have := hshape.opc_bounds; omega
    · exact .inr fun hshape => by have := hshape.opc_bounds; omega
    · exact h

/-! ## The serial transport -/

theorem serialNat_of_lt {w n : Nat} (h : n < 2 ^ w) : serialNat w n = some (BitVec.ofNat w n) := if_pos h

theorem serialNat_of_le {w n : Nat} (h : 2 ^ w ≤ n) : serialNat w n = none := if_neg (Nat.not_lt.mpr h)

/-- The bits that carry a natural number spell it (R85). -/
theorem toNat_of_serialNat {w n : Nat} {b : BitVec w} (h : serialNat w n = some b) : b.toNat = n := by
  unfold serialNat at h
  split at h
  next hn =>
    cases h
    rw [BitVec.toNat_ofNat, Nat.mod_eq_of_lt hn]
  next => cases h

/-- Settles O4: an operand and a result are carried by the same `W_NAT` bits. -/
theorem serialNaturalsAreZeroExtended : Obligations.SerialNaturalsAreZeroExtended := by
  intro fmt w n
  refine ⟨fun b => rfl, fun h => ?_, fun h => ?_, fun h => ?_, fun h => ?_⟩
  · exact ⟨_, by rw [itemOfOperand, serialNat_of_lt h]; rfl, toNat_of_serialNat (serialNat_of_lt h)⟩
  · rw [itemOfOperand, serialNat_of_le h]; rfl
  · exact ⟨_, by rw [itemsOfPayload, serialNat_of_lt h]; rfl, toNat_of_serialNat (serialNat_of_lt h)⟩
  · rw [itemsOfPayload, serialNat_of_le h]; rfl

/-- What `g` undoes one by one it undoes in a list. -/
theorem allOf_inverse {α β : Type} {f : α → Option β} {g : β → Option α} (hg : ∀ x y, f x = some y → g y = some x)
    {xs : List α} {ys : List β} (h : allOf f xs = some ys) : allOf g ys = some xs := by
  induction xs generalizing ys with
  | nil =>
    cases h
    rfl
  | cons x xs ih =>
    unfold allOf at h
    split at h
    next y ys' hy hys =>
      cases h
      rw [allOf, hg x y hy, ih hys]
    next => cases h

section

variable {fmt : SampleFmt} (hfmt : ∀ a b, fmt.code a = some b → fmt.value b = a)

include hfmt

/-- A sample is read from the parts that it was sent as. -/
theorem readAs_of_sentAs {z : Cplx} {re im : BitVec fmt.width} (h : SentAs fmt z re im) : ReadAs fmt z re im := by
  obtain ⟨a, b, rfl, ha, hb⟩ := h
  rw [ReadAs, hfmt a re ha, hfmt b im hb]

theorem samplesOfParts_partsOfSamples {v : Vec} {ps : List (BitVec fmt.width)} (h : partsOfSamples fmt v = some ps) :
    samplesOfParts fmt ps = some v := by
  induction v generalizing ps with
  | nil =>
    cases h
    rfl
  | cons z v ih =>
    obtain ⟨re, im, qs, rfl, hz, hv⟩ := partsOfSamples_cons_cases h
    rw [samplesOfParts, ih hv, Option.map_some, ← readAs_of_sentAs hfmt hz]

theorem operandOfItem_itemOfOperand {w : Nat} {o : Operand} {item : SerialItem w fmt.width}
    (h : itemOfOperand fmt w o = some item) : operandOfItem fmt w item = some o := by
  cases o with
  | nat n =>
    obtain ⟨b, hb, rfl⟩ := Option.map_eq_some_iff.mp h
    rw [operandOfItem, toNat_of_serialNat hb]
  | vec v =>
    obtain ⟨ps, hps, rfl⟩ := Option.map_eq_some_iff.mp h
    rw [operandOfItem, samplesOfParts_partsOfSamples hfmt hps, Option.map_some]

end

/-- Settles O6: each item is read as the operand that it carries, and the header with these operands is the encoding. -/
theorem serialTransportRoundTrip : Obligations.SerialTransportRoundTrip := by
  intro fmt w i c hfmt hsent
  obtain ⟨items, hitems, rfl⟩ := Option.map_eq_some_iff.mp hsent
  have hops : allOf (operandOfItem fmt w) items = some i.operands :=
    allOf_inverse (fun _ _ => operandOfItem_itemOfOperand hfmt) hitems
  rw [decodeSerial, hops]
  exact decode_encode i

/-! ## The assembler -/

/-- Settles O7: each text is closed, so the assembler is run on it. -/
theorem assemblerLinesStandForTheirCommands : Obligations.AssemblerLinesStandForTheirCommands := by
  refine ⟨?_, ?_, ?_, ?_, ?_, ?_, ?_⟩ <;> decide +kernel

end Sys2Proof.Machine
end

section
/-! PROOFS. The responses (R88): what a command that completes without a fault returns, and that a fault returns
nothing. -/

namespace Sys2Proof.Machine

/-- What the host got for a command to `u`: no response where the unit is then faulted, otherwise one that meets `P`. -/
abbrev AnsweredBy (u : UnitId) (P : Response → Prop) (s t : State) : Prop :=
  (t.faultOf u ≠ .none → t.logOf u = s.logOf u ++ [none]) ∧
  (t.faultOf u = .none → ∃ r : Response, t.logOf u = s.logOf u ++ [some r] ∧ P r)

section

variable {u : UnitId} {P : Response → Prop} {s t : State}

theorem State.raiseFault_answeredBy {k : FaultKind} (hk : k ≠ .none) : AnsweredBy u P s (s.raiseFault u k) := by
  cases u with
  | afb => exact ⟨fun _ => rfl, fun h => absurd h hk⟩
  | fmx => exact ⟨fun _ => rfl, fun h => absurd h hk⟩

/-- A response from a state `m` where the unit has no fault and its log is still that of `s`. -/
theorem State.respond_answeredBy {m : State} {st : Status} {p : Payload} (hfault : m.faultOf u = .none)
    (hlog : m.logOf u = s.logOf u) (hP : P ⟨st, p⟩) : AnsweredBy u P s (m.respond u st p) := by
  cases u with
  | afb => exact ⟨fun h => absurd hfault h, fun _ => ⟨_, congrArg (· ++ [_]) hlog, hP⟩⟩
  | fmx => exact ⟨fun h => absurd hfault h, fun _ => ⟨_, congrArg (· ++ [_]) hlog, hP⟩⟩

/-- A PROCESS or an accessor answers as its effect does, or faults. -/
theorem checked_answeredBy {k : FaultKind} {done : State} (hf : s.faultOf u = .none)
    (hdone : k = .none → AnsweredBy u P s done)
    (he : whenUnfaulted u s (whenChecked u k s (.next done)) = .next t) : AnsweredBy u P s t := by
  rcases checked_cases he with ⟨hf', _⟩ | ⟨_, hk, rfl⟩ | ⟨_, hk, rfl⟩
  · exact absurd hf hf'
  · exact State.raiseFault_answeredBy hk
  · exact hdone hk

end

theorem length_of_processCheck {cfg : CfgFlag} {L n : Nat} (h : processCheck cfg L n = .none) : n = L := by
  by_contra hne
  rw [configured_of_processCheck h, processCheck_wrong_length hne] at h
  cases h

/-- FMX sends a vector of its own length: a preamble row (R45) or the input (R147). -/
theorem Fmx.output_length {p : Synth} {x : Fmx} {v : Vec} (hinv : x.Inv p) (hc : x.cfg = .configured)
    (hv : v.length = x.L) : (x.output v).length = x.L := by
  obtain ⟨_, _, _, _, _, _, _, hshape⟩ := hinv hc
  unfold Fmx.output
  split
  next hpre => exact hshape.row_length hpre
  next => exact hv

section

variable {s t : State}

theorem execAfbConfig_answeredBy {L : Nat} {taps : Vec} (hf : s.afb.fault = .none)
    (he : execAfbConfig L taps s = .next t) :
    AnsweredBy .afb (fun r => (r.status = .ok ∨ r.status = .tapLengthMismatch) ∧ r.payload = .none) s t := by
  rcases execAfbConfig_cases he with ⟨hf', _⟩ | ⟨_, _, _, rfl⟩ | ⟨_, _, _, rfl⟩
  · exact absurd hf hf'
  · exact State.respond_answeredBy hf rfl ⟨.inr rfl, rfl⟩
  · exact State.respond_answeredBy hf rfl ⟨.inl rfl, rfl⟩

theorem execFmxConfig_answeredBy {L FL : Nat} {pre : Vec} (hf : s.fmx.fault = .none)
    (he : execFmxConfig L FL pre s = .next t) :
    AnsweredBy .fmx (fun r => (r.status = .ok ∨ r.status = .preambleLengthMismatch) ∧ r.payload = .none) s t := by
  rcases execFmxConfig_cases he with ⟨hf', _⟩ | ⟨_, _, _, rfl⟩ | ⟨_, _, _, rfl⟩
  · exact absurd hf hf'
  · exact State.respond_answeredBy hf rfl ⟨.inr rfl, rfl⟩
  · exact State.respond_answeredBy hf rfl ⟨.inl rfl, rfl⟩

theorem execAfbProcess_answeredBy {u : Vec} (hf : s.afb.fault = .none) (he : execAfbProcess u s = .next t) :
    AnsweredBy .afb (fun r => r.status = .ok ∧ ∃ X : Vec, r.payload = .vec X ∧ X.length = s.afb.L) s t := by
  refine checked_answeredBy hf (fun _ => ?_) he
  exact State.respond_answeredBy hf rfl ⟨rfl, _, rfl, s.afb.output_length s.syn u⟩

theorem execFmxProcess_answeredBy {v : Vec} (hinv : s.fmx.Inv s.syn) (hf : s.fmx.fault = .none)
    (he : execFmxProcess v s = .next t) :
    AnsweredBy .fmx (fun r => r.status = .ok ∧ ∃ w : Vec, r.payload = .vec w ∧ w.length = s.fmx.L) s t := by
  refine checked_answeredBy hf (fun hk => ?_) he
  have hlength := Fmx.output_length hinv (configured_of_processCheck hk) (length_of_processCheck hk)
  exact State.respond_answeredBy hf rfl ⟨rfl, _, rfl, hlength⟩

end

/-- Settles O28, by the cases of each command's meaning. -/
theorem responsesHaveTheStatusesOfTheirCommands : Obligations.ResponsesHaveTheStatusesOfTheirCommands := by
  refine ⟨⟨rfl, rfl, rfl⟩, fun i s t hinv hf he => ?_⟩
  cases i with
  | afbConfig L taps => exact execAfbConfig_answeredBy hf he
  | afbProcess u => exact execAfbProcess_answeredBy hf he
  | afbGetL => exact checked_answeredBy hf (fun _ => State.respond_answeredBy hf rfl rfl) he
  | afbGetOverlap => exact checked_answeredBy hf (fun _ => State.respond_answeredBy hf rfl rfl) he
  | fmxConfig L FL pre => exact execFmxConfig_answeredBy hf he
  | fmxProcess v => exact execFmxProcess_answeredBy hinv.2 hf he

end Sys2Proof.Machine
end

section
/-! PROOFS. One command to AFB (40_afb.md): AFB_CONFIG (R102 to R104), what AFB_PROCESS checks and does (R107, R108, R112)
and the accessors (R120, R122). -/

namespace Sys2Proof.Machine

/-! ## Commands with preconditions -/

section

variable {u : UnitId} {k : FaultKind} {s : State} (hf : s.faultOf u = .none)

include hf

/-- An unfaulted unit performs a PROCESS or an accessor whose preconditions hold (R172). -/
theorem checked_performed (r : Result) (hk : k = .none) : whenUnfaulted u s (whenChecked u k s r) = r := by
  rw [whenUnfaulted_of_none _ hf, hk, whenChecked_of_none]

/-- An unfaulted unit raises the fault of the first precondition that fails (R172). -/
theorem checked_raises (r : Result) (hk : k ≠ .none) :
    whenUnfaulted u s (whenChecked u k s r) = .next (s.raiseFault u k) := by
  rw [whenUnfaulted_of_none _ hf, whenChecked_of_fault s r hk]

end

/-! ## AFB_CONFIG -/

/-- The store that the taps are cut into holds them all (R101, R104). -/
theorem getElem?_taps {L b k : Nat} {taps : Vec} (hb : b < L) (hk : k < taps.length / L) :
    taps[b + k * L]? = some (cell (partition L (taps.length / L) taps) b k) := by
  have hlt : b + k * L < taps.length := by
    calc b + k * L < (k + 1) * L := by rw [Nat.succ_mul]; omega
      _ ≤ taps.length / L * L := Nat.mul_le_mul_right L hk
      _ ≤ taps.length := Nat.div_mul_le_self _ _
  rw [cell_partition taps hb hk, elem, List.getD_eq_getElem?_getD, List.getElem?_eq_getElem hlt, Option.getD_some]

/-- The state in which a successful AFB_CONFIG completes (R104). -/
def State.configured (L : Nat) (taps : Vec) (s : State) : State :=
  State.respond .afb .ok .none { s with afb := s.afb.configure L taps }

section

variable {s : State} {L : Nat} {taps : Vec}

@[simp] theorem State.configured_syn : (s.configured L taps).syn = s.syn := rfl
@[simp] theorem State.configured_afb : (s.configured L taps).afb = s.afb.configure L taps := rfl
@[simp] theorem State.configured_afbLog : (s.configured L taps).afbLog = s.afbLog ++ [some ⟨.ok, .none⟩] := rfl

theorem State.configured_onlyAfbChanged : OnlyAfbChanged s (s.configured L taps) := ⟨rfl, rfl, rfl, rfl⟩

variable (hf : s.afb.fault = .none) (hfit : afbFits s.syn L taps.length = true) (hok : afbOk L taps.length = true)

include hf hfit hok

theorem exec_afbConfig_ok : exec (.afbConfig L taps) s = .next (s.configured L taps) := execAfbConfig_ok hf hfit hok

/-- A successful AFB_CONFIG leaves the unit ready for AFB_PROCESS (R104). -/
theorem State.configured_ready : (s.configured L taps).AfbReady := ⟨rfl, hf, s.afb.configure_inv s.syn hfit hok⟩

end

/-- Settles O12, from the value of the command under each outcome of its two checks. -/
theorem afbConfigFollowsItsRule : Obligations.AfbConfigFollowsItsRule := by
  intro s L taps hf
  simp only [← afbFits_iff, ← afbOk_iff, Bool.not_eq_true]
  refine ⟨rfl, execAfbConfig_capacity hf, fun hfit hok => ?_, fun hfit hok => ?_⟩
  · exact ⟨_, execAfbConfig_mismatch hf hfit hok, rfl, hf, rfl, rfl, rfl, rfl, rfl⟩
  · exact ⟨_, exec_afbConfig_ok hf hfit hok, rfl, hf, rfl, rfl, rfl, partition_shape _ _ _, tabulate_shape _ _ _,
      fun b hb k hk => ⟨getElem?_taps hb hk, cell_tabulate _ hb hk⟩, rfl, State.configured_onlyAfbChanged, rfl⟩

/-! ## AFB_PROCESS -/

/-- Settles O17: the first precondition that fails is the fault that is raised. -/
theorem afbProcessFaultsOnItsPreconditions : Obligations.AfbProcessFaultsOnItsPreconditions := by
  intro s u hf
  refine ⟨fun hc => ?_, fun hc hl => ?_⟩
  · have hcheck : processCheck s.afb.cfg s.afb.L u.length = .notConfigured := by rw [hc, processCheck_unconfigured]
    exact ⟨_, checked_raises (u := .afb) hf _ (by rw [hcheck]; nofun), by rw [hcheck]; rfl, rfl, rfl, rfl, rfl, rfl⟩
  · have hcheck : processCheck s.afb.cfg s.afb.L u.length = .vectorLength := by rw [hc, processCheck_wrong_length hl]
    exact ⟨_, checked_raises (u := .afb) hf _ (by rw [hcheck]; nofun), by rw [hcheck]; rfl, rfl, rfl, rfl, rfl, rfl⟩

/-- The state in which an AFB_PROCESS of `u` completes (R114). -/
def State.processed (u : Vec) (s : State) : State :=
  State.respond .afb .ok (.vec (s.afb.output s.syn u)) { s with afb := s.afb.advance s.syn u }

section

variable (s : State) (u : Vec)

@[simp] theorem State.processed_syn : (s.processed u).syn = s.syn := rfl
@[simp] theorem State.processed_afb : (s.processed u).afb = s.afb.advance s.syn u := rfl
@[simp] theorem State.processed_afbLog :
    (s.processed u).afbLog = s.afbLog ++ [some ⟨.ok, .vec (s.afb.output s.syn u)⟩] := rfl

theorem State.processed_onlyAfbChanged : OnlyAfbChanged s (s.processed u) := ⟨rfl, rfl, rfl, rfl⟩

end

namespace State.AfbReady

variable {s : State} (hs : s.AfbReady)

include hs

theorem L_pos : 1 ≤ s.afb.L := by
  obtain ⟨hc, _, hinv⟩ := hs
  exact (hinv hc).1

theorem K_pos : 1 ≤ s.afb.K := by
  obtain ⟨hc, _, hinv⟩ := hs
  obtain ⟨_, _, hK, _⟩ := hinv hc
  exact hK

theorem r_lt : s.afb.r < s.afb.L := by
  obtain ⟨hc, _, hinv⟩ := hs
  obtain ⟨_, _, _, _, hr, _⟩ := hinv hc
  exact hr

theorem delays_shape : HasShape s.afb.d s.afb.L s.afb.K := by
  obtain ⟨hc, _, hinv⟩ := hs
  obtain ⟨_, _, _, _, _, _, hd⟩ := hinv hc
  exact hd

/-- AFB_PROCESS of a vector of the configured length completes with the output vector (R107, R114). -/
theorem answers {u : Vec} (hu : u.length = s.afb.L) : AfbAnswers s u (s.afb.output s.syn u) (s.processed u) := by
  obtain ⟨hc, hf, _⟩ := hs
  exact ⟨execAfbProcess_ok hf hc hu, rfl⟩

end State.AfbReady

/-- A slot's branch is `b` exactly when the slot is the one that `beta_r` takes to `b` (R40). -/
theorem eq_betaInv_of_cast {dir : CommDir} {L r b i : Nat} (hi : i < L)
    (h : (b : Int) = ((i : Int) + CommDir.sign dir * r) % L) : i = betaInv dir L r b := by
  have hb : b = beta dir L r i := Int.ofNat_inj.mp (h.trans (beta_cast dir (by omega) r i).symm)
  rw [hb, betaInv_beta dir r hi]

/-- Every branch takes exactly one slot (R108). -/
theorem existsUnique_slot (dir : CommDir) {L b : Nat} (r : Nat) (hb : b < L) :
    ∃! i, i < L ∧ (b : Int) = ((i : Int) + CommDir.sign dir * r) % L := by
  have hL : 1 ≤ L := by omega
  refine ⟨betaInv dir L r b, ⟨betaInv_lt dir hL r b, ?_⟩, fun i ⟨hi, h⟩ => eq_betaInv_of_cast hi h⟩
  rw [← beta_cast dir hL, beta_betaInv dir r hb]

/-- Settles O15: the delay store is the shifted one, and the commutator is a bijection. -/
theorem afbProcessShiftsDelaysAndAdvancesIndex : Obligations.AfbProcessShiftsDelaysAndAdvancesIndex := by
  intro s u hs hu
  refine ⟨s.processed u, _, (hs.answers hu).1, s.afb.output_length s.syn u, rfl, shiftDelays_shape _ _ _ _ _ _,
    fun i hi => ?_, fun b hb => existsUnique_slot _ _ hb, fun b hb k hk hkK => ?_, rfl, rfl, rfl, rfl, rfl, rfl,
    s.processed_onlyAfbChanged u, rfl⟩
  · exact ⟨_, beta_lt _ hs.L_pos _ i, beta_cast _ hs.L_pos _ i, cell_shiftDelays_new _ _ _ u hi hs.K_pos⟩
  · obtain ⟨j, rfl⟩ := Nat.exists_eq_add_of_le' hk
    exact cell_shiftDelays_old _ _ _ u hb hkK

/-! ## The accessors -/

/-- Settles O22: an accessor answers the field of a configured unit and faults on an unconfigured one. -/
theorem accessorsReturnLAndK : Obligations.AccessorsReturnLAndK := by
  refine ⟨rfl, rfl, fun s hf => ⟨fun hc => ?_, fun hc i hi => ?_⟩⟩
  · have hcheck : configuredCheck s.afb.cfg = .none := by rw [hc, configuredCheck_configured]
    exact ⟨checked_performed (u := .afb) hf _ hcheck, checked_performed (u := .afb) hf _ hcheck⟩
  · have hcheck : configuredCheck s.afb.cfg = .notConfigured := by rw [hc, configuredCheck_unconfigured]
    have hraises (r : Result) : whenUnfaulted .afb s (whenChecked .afb (configuredCheck s.afb.cfg) s r)
        = .next (s.raiseFault .afb .notConfigured) := by
      rw [checked_raises (u := .afb) hf r (by rw [hcheck]; nofun), hcheck]
    rcases List.mem_pair.mp hi with rfl | rfl
    · exact hraises _
    · exact hraises _

end Sys2Proof.Machine
end

section
/-! PROOFS. The output of AFB_PROCESS (R110 to R113): its elements as data and as complex numbers, and its linearity in the
delay store and the input (R131). -/

namespace Sys2Proof.Machine

/-! ## The output as complex numbers -/

/-- `sigma` (R113) is the number that its name says. -/
theorem toComplex_sigma (ρ : Valuation) (scale : FftScale) {L : Nat} (hL : 1 ≤ L) :
    (sigma scale L).toComplex ρ = (sigmaValue scale L : ℂ) := by
  cases scale with
  | one => simp [sigma, sigmaValue]
  | invL => simp [sigma, sigmaValue]
  | invSqrtL => exact Cplx.toComplex_invSqrtNat ρ L hL

/-- The powers of `omega` (R113). -/
theorem toComplex_omegaPow (ρ : Valuation) (sign : FftSign) (L f i : Nat) :
    (omegaPow sign L f i).toComplex ρ = omegaValue sign L ^ (f * i) := by
  rw [omegaPow, Cplx.toComplex_root, omegaValue, ← Complex.exp_nat_mul]
  congr 1
  push_cast
  ring

theorem toComplex_elem_dft (ρ : Valuation) (sign : FftSign) (scale : FftScale) {L f : Nat} (z : Vec) (hf : f < L) :
    (elem (dft sign scale L z) f).toComplex ρ
      = (sigmaValue scale L : ℂ) * ∑ i ∈ Finset.range L, (elem z i).toComplex ρ * omegaValue sign L ^ (f * i) := by
  rw [elem_dft sign scale z hf, Cplx.toComplex_mul, toComplex_sigma ρ scale (by omega), Cplx.toComplex_sum_range]
  simp only [Cplx.toComplex_mul, toComplex_omegaPow]

/-- An element of the output, from the delay store after the command (R110 to R113). -/
theorem Afb.toComplex_elem_output (ρ : Valuation) (p : Synth) (a : Afb) (u : Vec) {f : Nat} (hf : f < a.L) :
    (elem (a.output p u) f).toComplex ρ
      = (sigmaValue p.fftScale a.L : ℂ) *
          ∑ i ∈ Finset.range a.L,
            (∑ k ∈ Finset.range a.K,
              (cell a.h (beta p.commDir a.L a.r i) k).toComplex ρ *
              (cell (a.advance p u).d (beta p.commDir a.L a.r i) k).toComplex ρ) *
            omegaValue p.fftSign a.L ^ (f * i) := by
  rw [Afb.output, toComplex_elem_dft ρ _ _ _ hf]
  congr 1
  refine Finset.sum_congr rfl fun i hi => ?_
  rw [elem_slots p a u (Finset.mem_range.mp hi), Cplx.toComplex_sum_range]
  simp only [Cplx.toComplex_mul, Afb.advance_d]

/-- Settles O16, from the value of one element of the output. -/
theorem afbProcessReturnsTheExactDft : Obligations.AfbProcessReturnsTheExactDft := by
  intro s u hs hu
  exact ⟨s.processed u, _, hs.answers hu, s.afb.output_length s.syn u,
    fun ρ f hf => s.afb.toComplex_elem_output ρ s.syn u hf⟩

/-! ## Sums of vectors and stores -/

theorem Vec.length_add {a b : Vec} (h : a.length = b.length) : (Vec.add a b).length = a.length := by
  rw [Vec.add, List.length_zipWith, h, min_self]

theorem elem_add {a b : Vec} {i : Nat} (ha : i < a.length) (hb : i < b.length) :
    elem (Vec.add a b) i = (elem a i).add (elem b i) := by
  simp [elem, Vec.add, ha, hb]

theorem row_add {m n : Bank} {b : Nat} (hm : b < m.length) (hn : b < n.length) :
    row (Bank.add m n) b = Vec.add (row m b) (row n b) := by
  simp [row, Bank.add, hm, hn]

section

variable {m n : Bank} {rows cols : Nat} (hm : HasShape m rows cols) (hn : HasShape n rows cols)

include hm hn

theorem HasShape.add : HasShape (Bank.add m n) rows cols := by
  have hlength : (Bank.add m n).length = rows := by rw [Bank.add, List.length_zipWith, hm.1, hn.1, min_self]
  refine ⟨hlength, fun v hv => ?_⟩
  obtain ⟨b, hb, rfl⟩ := List.mem_iff_getElem.mp hv
  have hm' : (m[b]'(by have := hm.1; omega)).length = cols := hm.2 _ (List.getElem_mem _)
  have hn' : (n[b]'(by have := hn.1; omega)).length = cols := hn.2 _ (List.getElem_mem _)
  simp only [Bank.add, List.getElem_zipWith]
  rw [Vec.length_add (hm'.trans hn'.symm), hm']

theorem cell_add {b k : Nat} (hb : b < rows) (hk : k < cols) :
    cell (Bank.add m n) b k = (cell m b k).add (cell n b k) := by
  have hmk : k < (row m b).length := by rwa [hm.row_length hb]
  have hnk : k < (row n b).length := by rwa [hn.row_length hb]
  rw [cell, row_add (hm.1 ▸ hb) (hn.1 ▸ hb), elem_add hmk hnk]
  rfl

end

theorem length_zeroVec (L : Nat) : (zeroVec L).length = L := List.length_replicate

theorem Cplx.collected_zero : Collected Cplx.zero.terms := ⟨.nil, nofun⟩

/-- Adding `w` changes nothing exactly when `w` is zero, the elements of both being collected. -/
theorem Vec.add_eq_left_iff {v w : Vec} (hlength : w.length = v.length) (hv : ∀ i < v.length, Collected (elem v i).terms)
    (hw : ∀ i < v.length, Collected (elem w i).terms) : Vec.add v w = v ↔ w = zeroVec v.length := by
  have helem : ∀ i < v.length, elem (Vec.add v w) i = (elem v i).add (elem w i) := fun i hi => elem_add hi (by omega)
  constructor
  · intro h
    refine vec_ext (by rw [hlength, length_zeroVec]) fun i hi => ?_
    rw [hlength] at hi
    rw [elem_zeroVec]
    refine Cplx.add_left_cancel (hw i hi) Cplx.collected_zero (a := elem v i) ?_
    rw [← helem i hi, h, Cplx.add_zero (hv i hi)]
  · intro h
    have hsum : (Vec.add v w).length = v.length := Vec.length_add hlength.symm
    refine vec_ext hsum fun i hi => ?_
    rw [hsum] at hi
    rw [helem i hi, h, elem_zeroVec, Cplx.add_zero (hv i hi)]

/-- A sum of two vectors is collected, whatever they are. -/
theorem Vec.add_add_zeroVec {u v : Vec} {L : Nat} (hu : u.length = L) (hv : v.length = L) :
    Vec.add (Vec.add u v) (zeroVec L) = Vec.add u v := by
  have huv : (Vec.add u v).length = L := (Vec.length_add (hu.trans hv.symm)).trans hu
  refine (Vec.add_eq_left_iff ((length_zeroVec L).trans huv.symm) (fun i hi => ?_) fun i hi => ?_).mpr (by rw [huv])
  · rw [elem_add (by omega) (by omega)]
    exact add_collected _ _
  · rw [elem_zeroVec]
    exact Cplx.collected_zero

/-! ## Linearity -/

/-- The shift is linear in the delay store and the input (R109). -/
theorem shiftDelays_add (dir : CommDir) {L K : Nat} (r : Nat) {d1 d2 : Bank} {u v : Vec} (h1 : HasShape d1 L K)
    (h2 : HasShape d2 L K) (hu : u.length = L) (hv : v.length = L) :
    shiftDelays dir L K r (Bank.add d1 d2) (Vec.add u v)
      = Bank.add (shiftDelays dir L K r d1 u) (shiftDelays dir L K r d2 v) := by
  have hs1 := shiftDelays_shape dir L K r d1 u
  have hs2 := shiftDelays_shape dir L K r d2 v
  refine bank_ext (shiftDelays_shape _ _ _ _ _ _) (hs1.add hs2) fun b hb k hk => ?_
  rw [cell_add hs1 hs2 hb hk, shiftDelays, shiftDelays, shiftDelays, cell_tabulate _ hb hk, cell_tabulate _ hb hk,
    cell_tabulate _ hb hk]
  have hslot := betaInv_lt dir (by omega : 1 ≤ L) r b
  cases k with
  | zero => exact elem_add (by omega) (by omega)
  | succ j => exact cell_add h1 h2 hb (by omega)

/-- The DFT is linear (R113). -/
theorem dft_add (sign : FftSign) (scale : FftScale) {L : Nat} {z x y : Vec}
    (h : ∀ i < L, elem z i = (elem x i).add (elem y i)) :
    dft sign scale L z = Vec.add (dft sign scale L x) (dft sign scale L y) := by
  have hlength : (dft sign scale L x).length = (dft sign scale L y).length := by simp
  refine vec_ext (by simp [Vec.length_add hlength]) fun f hf => ?_
  rw [dft_length] at hf
  have hterm : ∀ i ∈ List.range L, (elem z i).mul (omegaPow sign L f i)
      = ((elem x i).mul (omegaPow sign L f i)).add ((elem y i).mul (omegaPow sign L f i)) := fun i hi => by
    rw [h i (List.mem_range.mp hi), Cplx.add_mul]
  rw [elem_add (by simpa) (by simpa), elem_dft _ _ _ hf, elem_dft _ _ _ hf, elem_dft _ _ _ hf,
    List.map_congr_left hterm, Cplx.sum_add, Cplx.mul_add]

/-- The unit with another delay store. -/
def Afb.withDelays (d : Bank) (a : Afb) : Afb := { a with d := d }

@[simp] theorem State.withDelays_afb (d : Bank) (s : State) : (s.withDelays d).afb = s.afb.withDelays d := rfl
@[simp] theorem Afb.withDelays_L (d : Bank) (a : Afb) : (a.withDelays d).L = a.L := rfl

section

variable (p : Synth) (a : Afb) {d1 d2 : Bank} {u v : Vec}

/-- A slot from a given delay store. -/
theorem elem_slots_withDelays (d : Bank) (u : Vec) {i : Nat} (hi : i < a.L) :
    elem ((a.withDelays d).slots p u) i = Cplx.sum ((List.range a.K).map fun k =>
      (cell a.h (beta p.commDir a.L a.r i) k).mul
        (cell (shiftDelays p.commDir a.L a.K a.r d u) (beta p.commDir a.L a.r i) k)) :=
  elem_slots p (a.withDelays d) u hi

/-- The slots that enter the DFT are linear in the delay store and the input (R110, R111). -/
theorem elem_slots_add (h1 : HasShape d1 a.L a.K) (h2 : HasShape d2 a.L a.K) (hu : u.length = a.L)
    (hv : v.length = a.L) {i : Nat} (hi : i < a.L) :
    elem ((a.withDelays (Bank.add d1 d2)).slots p (Vec.add u v)) i
      = (elem ((a.withDelays d1).slots p u) i).add (elem ((a.withDelays d2).slots p v) i) := by
  have hb := beta_lt p.commDir (by omega : 1 ≤ a.L) a.r i
  have hs1 := shiftDelays_shape p.commDir a.L a.K a.r d1 u
  have hs2 := shiftDelays_shape p.commDir a.L a.K a.r d2 v
  rw [elem_slots_withDelays p a _ _ hi, elem_slots_withDelays p a _ _ hi, elem_slots_withDelays p a _ _ hi,
    ← Cplx.sum_add]
  refine congrArg Cplx.sum (List.map_congr_left fun k hk => ?_)
  rw [shiftDelays_add p.commDir a.r h1 h2 hu hv, cell_add hs1 hs2 hb (List.mem_range.mp hk), Cplx.mul_add]

/-- The output is linear in the delay store and the input (R131). -/
theorem Afb.output_add (h1 : HasShape d1 a.L a.K) (h2 : HasShape d2 a.L a.K) (hu : u.length = a.L)
    (hv : v.length = a.L) :
    (a.withDelays (Bank.add d1 d2)).output p (Vec.add u v)
      = Vec.add ((a.withDelays d1).output p u) ((a.withDelays d2).output p v) :=
  dft_add _ _ fun _ hi => elem_slots_add p a h1 h2 hu hv hi

/-- For one fixed state the output is affine in the input (R131): both sides are the output of `u + v` from the doubled
delay store. -/
theorem Afb.output_affine (hd : HasShape a.d a.L a.K) (hu : u.length = a.L) (hv : v.length = a.L) :
    Vec.add (a.output p u) (a.output p v) = Vec.add (a.output p (Vec.add u v)) (a.output p (zeroVec a.L)) := by
  have huv : (Vec.add u v).length = a.L := (Vec.length_add (hu.trans hv.symm)).trans hu
  calc Vec.add (a.output p u) (a.output p v)
      = (a.withDelays (Bank.add a.d a.d)).output p (Vec.add u v) := (a.output_add p hd hd hu hv).symm
    _ = (a.withDelays (Bank.add a.d a.d)).output p (Vec.add (Vec.add u v) (zeroVec a.L)) := by
        rw [Vec.add_add_zeroVec hu hv]
    _ = Vec.add (a.output p (Vec.add u v)) (a.output p (zeroVec a.L)) := a.output_add p hd hd huv (length_zeroVec a.L)

theorem Afb.elem_output_collected (u : Vec) (f : Nat) : Collected (elem (a.output p u) f).terms :=
  ((Cplx.wf_iff _).mp (elem_wf (a.output_wf p u) f)).1

/-- Adding one output to another changes nothing exactly when it is zero. -/
theorem Afb.output_add_eq_left_iff (u v : Vec) :
    Vec.add (a.output p u) (a.output p v) = a.output p u ↔ a.output p v = zeroVec a.L := by
  have h := Vec.add_eq_left_iff (v := a.output p u) (w := a.output p v) (by simp)
    (fun f _ => a.elem_output_collected p u f) fun f _ => a.elem_output_collected p v f
  rwa [Afb.output_length] at h

/-! ## Empty delay lines -/

/-- The output is zero when the delay store after the command is. -/
theorem Afb.output_of_zeros {u : Vec} (h : ∀ b < a.L, ∀ k < a.K, cell (a.advance p u).d b k = Cplx.zero) :
    a.output p u = zeroVec a.L := by
  refine dft_of_zeros _ _ _ fun i hi => ?_
  rw [elem_slots p a u hi, Cplx.sum_zero]
  intro z hz
  obtain ⟨k, hk, rfl⟩ := List.mem_map.mp hz
  have hb := beta_lt p.commDir (by omega : 1 ≤ a.L) a.r i
  rw [← Afb.advance_d, h _ hb k (List.mem_range.mp hk), Cplx.mul_zero]

/-- The numbers of the output are zero when those of the delay store after the command are. -/
theorem Afb.toComplex_output_of_zeros {ρ : Valuation} {u : Vec}
    (h : ∀ b < a.L, ∀ k < a.K, (cell (a.advance p u).d b k).toComplex ρ = 0) {f : Nat} (hf : f < a.L) :
    (elem (a.output p u) f).toComplex ρ = 0 := by
  have hb (i : Nat) := beta_lt p.commDir (by omega : 1 ≤ a.L) a.r i
  rw [a.toComplex_elem_output ρ p u hf, Finset.sum_eq_zero fun i _ => ?_, mul_zero]
  rw [Finset.sum_eq_zero fun k hk => ?_, zero_mul]
  rw [h _ (hb i) k (Finset.mem_range.mp hk), mul_zero]

/-- The delay store after an all-zero vector: zeros in place 0, the older samples after them (R109). -/
theorem Afb.cell_advance_zeroVec {b k : Nat} (hb : b < a.L) (hk : k < a.K) :
    cell (a.advance p (zeroVec a.L)).d b k = if k = 0 then Cplx.zero else cell a.d b (k - 1) := by
  rw [Afb.advance_d, shiftDelays, cell_tabulate _ hb hk]
  cases k with
  | zero => exact elem_zeroVec _ _
  | succ j => rfl

/-- A delay store of zeros, as numbers, stays so on an all-zero vector. -/
theorem Afb.toComplex_cell_advance_zeroVec {ρ : Valuation}
    (h : ∀ b < a.L, ∀ k < a.K, (cell a.d b k).toComplex ρ = 0) {b k : Nat} (hb : b < a.L) (hk : k < a.K) :
    (cell (a.advance p (zeroVec a.L)).d b k).toComplex ρ = 0 := by
  rw [a.cell_advance_zeroVec p hb hk]
  split
  · rfl
  · exact h b hb (k - 1) (by omega)

/-- The first `j` places of every delay line hold 0. -/
def Afb.EmptyBelow (j : Nat) (a : Afb) : Prop := ∀ b < a.L, ∀ k < a.K, k < j → cell a.d b k = Cplx.zero

variable {a} in
/-- An all-zero vector empties one place more of every delay line. -/
theorem Afb.EmptyBelow.advance {j : Nat} (h : a.EmptyBelow j) : (a.advance p (zeroVec a.L)).EmptyBelow (j + 1) := by
  intro b hb k hk hkj
  rw [a.cell_advance_zeroVec p hb hk]
  split
  · rfl
  · exact h b hb (k - 1) (by have : k < a.K := hk; omega) (by omega)

variable {a} in
/-- An all-zero vector gives the zero vector when it leaves no other sample in the delay lines. -/
theorem Afb.EmptyBelow.output {j : Nat} (h : a.EmptyBelow j) (hj : a.K ≤ j + 1) :
    a.output p (zeroVec a.L) = zeroVec a.L :=
  a.output_of_zeros p fun b hb k hk => h.advance p b hb k hk (by omega)

/-- The affine law (R131) number by number. -/
theorem Afb.toComplex_output_affine (ρ : Valuation) (hd : HasShape a.d a.L a.K) (hu : u.length = a.L)
    (hv : v.length = a.L) {f : Nat} (hf : f < a.L) :
    (elem (a.output p u) f).toComplex ρ + (elem (a.output p v) f).toComplex ρ
      = (elem (a.output p (Vec.add u v)) f).toComplex ρ + (elem (a.output p (zeroVec a.L)) f).toComplex ρ := by
  have h := congrArg (fun w => (elem w f).toComplex ρ) (a.output_affine p hd hu hv)
  simpa [elem_add, hf] using h

end

theorem State.AfbReady.withDelays {s : State} {d : Bank} (hs : s.AfbReady) (hd : HasShape d s.afb.L s.afb.K) :
    (s.withDelays d).AfbReady := by
  obtain ⟨hc, hf, hinv⟩ := hs
  obtain ⟨h1, h2, h3, h4, h5, h6, _⟩ := hinv hc
  exact ⟨hc, hf, fun _ => ⟨h1, h2, h3, h4, h5, h6, hd⟩⟩

/-- AFB_PROCESS from the sum of two delay stores and of two inputs (R131). -/
theorem State.AfbReady.answers_add {s : State} {d1 d2 : Bank} {u v : Vec} (hs : s.AfbReady)
    (h1 : HasShape d1 s.afb.L s.afb.K) (h2 : HasShape d2 s.afb.L s.afb.K) (hu : u.length = s.afb.L)
    (hv : v.length = s.afb.L) :
    AfbAnswers (s.withDelays (Bank.add d1 d2)) (Vec.add u v)
      (Vec.add ((s.afb.withDelays d1).output s.syn u) ((s.afb.withDelays d2).output s.syn v))
      ((s.withDelays (Bank.add d1 d2)).processed (Vec.add u v)) := by
  rw [← s.afb.output_add s.syn h1 h2 hu hv]
  exact (hs.withDelays (h1.add h2)).answers ((Vec.length_add (hu.trans hv.symm)).trans hu)

/-- Settles O19: the output is linear in the pair, so affine in the input, and the output of `0_L` is the constant. -/
theorem afbIsLinear : Obligations.AfbIsLinear := by
  refine ⟨fun s d1 d2 u v hs h1 h2 hu hv => ?_, fun s u v hs hu hv => ?_⟩
  · exact ⟨_, _, _, _, _, (hs.withDelays h1).answers hu, (hs.withDelays h2).answers hv, hs.answers_add h1 h2 hu hv,
      shiftDelays_add _ _ h1 h2 hu hv⟩
  · have huv : (Vec.add u v).length = s.afb.L := (Vec.length_add (hu.trans hv.symm)).trans hu
    have hd := hs.delays_shape
    have haffine := s.afb.output_affine s.syn hd hu hv
    refine ⟨_, _, _, _, _, _, _, _, hs.answers hu, hs.answers hv, hs.answers huv, hs.answers (length_zeroVec _), haffine,
      ?_, fun hzero => ?_, fun ρ => ⟨forall₂_congr fun f hf => ?_, fun hzero f hf => ?_⟩⟩
    · rw [haffine, Afb.output_add_eq_left_iff]
    · have hempty : s.afb.EmptyBelow s.afb.K := fun b hb k hk _ => hzero b hb k hk
      exact hempty.output s.syn (Nat.le_succ _)
    · rw [s.afb.toComplex_output_affine s.syn ρ hd hu hv hf, add_eq_left]
    · exact s.afb.toComplex_output_of_zeros s.syn
        (fun b hb k hk => s.afb.toComplex_cell_advance_zeroVec s.syn hzero hb hk) hf

end Sys2Proof.Machine
end

section
/-! PROOFS. Runs of AFB_PROCESS: one vector for each vector (R118), the flush (R130) and the plain FIR filter (R116). -/

namespace Sys2Proof.Machine

/-! ## The unit over a run of AFB_PROCESS -/

/-- The unit after AFB_PROCESS of each of the vectors. -/
def Afb.advanceAll (p : Synth) (a : Afb) (us : List Vec) : Afb := us.foldl (fun a u => a.advance p u) a

/-- The output vectors of these commands. -/
def Afb.outputs (p : Synth) : Afb → List Vec → List Vec
  | _, [] => []
  | a, u :: us => a.output p u :: Afb.outputs p (a.advance p u) us

section

variable (p : Synth) (a : Afb) (u : Vec) (us : List Vec)

@[simp] theorem Afb.advanceAll_nil : a.advanceAll p [] = a := rfl
@[simp] theorem Afb.advanceAll_cons : a.advanceAll p (u :: us) = (a.advance p u).advanceAll p us := rfl
@[simp] theorem Afb.outputs_nil : a.outputs p [] = [] := rfl
@[simp] theorem Afb.outputs_cons : a.outputs p (u :: us) = a.output p u :: (a.advance p u).outputs p us := rfl

/-- What every AFB_PROCESS keeps, a run of them keeps. -/
theorem Afb.advanceAll_keeps {α : Type} (field : Afb → α) (h : ∀ a u, field (Afb.advance p a u) = field a) :
    field (a.advanceAll p us) = field a := by
  induction us generalizing a with
  | nil => rfl
  | cons u us ih => rw [Afb.advanceAll_cons, ih, h]

@[simp] theorem Afb.advanceAll_L : (a.advanceAll p us).L = a.L := a.advanceAll_keeps p us Afb.L fun _ _ => rfl
@[simp] theorem Afb.advanceAll_K : (a.advanceAll p us).K = a.K := a.advanceAll_keeps p us Afb.K fun _ _ => rfl
@[simp] theorem Afb.advanceAll_h : (a.advanceAll p us).h = a.h := a.advanceAll_keeps p us Afb.h fun _ _ => rfl

/-- The commutator index advances by one for each vector, modulo `L` (R37, R112). -/
theorem Afb.advanceAll_r (hr : a.r < a.L) : (a.advanceAll p us).r = (a.r + us.length) % a.L := by
  induction us generalizing a with
  | nil => exact (Nat.mod_eq_of_lt hr).symm
  | cons u us ih =>
    rw [Afb.advanceAll_cons, ih _ (Nat.mod_lt _ (by omega)), Afb.advance_r, Afb.advance_L, Nat.mod_add_mod,
      List.length_cons, Nat.add_assoc, Nat.add_comm 1]

@[simp] theorem Afb.outputs_length : (a.outputs p us).length = us.length := by
  induction us generalizing a with
  | nil => rfl
  | cons u us ih => simp [ih]

/-- The output at place `i` of a run is that of the unit after the vectors before it. -/
theorem Afb.outputs_getElem? (i : Nat) :
    (a.outputs p us)[i]? = us[i]?.map fun u => (a.advanceAll p (us.take i)).output p u := by
  induction us generalizing a i with
  | nil => rfl
  | cons u us ih =>
    cases i with
    | zero => rfl
    | succ i => exact ih (a.advance p u) i

theorem Afb.length_of_mem_outputs {X : Vec} (h : X ∈ a.outputs p us) : X.length = a.L := by
  obtain ⟨i, hi⟩ := List.mem_iff_getElem?.mp h
  rw [Afb.outputs_getElem?] at hi
  obtain ⟨u, _, rfl⟩ := Option.map_eq_some_iff.mp hi
  simp

end

/-- What the host gets for an AFB_PROCESS that completes (R88, R114). -/
def afbResponse (X : Vec) : Option Response := some ⟨.ok, .vec X⟩

theorem State.AfbReady.processed {s : State} (hs : s.AfbReady) (u : Vec) : (s.processed u).AfbReady := by
  obtain ⟨hc, hf, hinv⟩ := hs
  exact ⟨hc, hf, Afb.advance_inv u hinv⟩

/-- A run of AFB_PROCESS with vectors of the configured length completes. -/
theorem execAll_afbProcess {s : State} {us : List Vec} (hs : s.AfbReady) (hus : ∀ u ∈ us, u.length = s.afb.L) :
    ∃ t, execAll (us.map Instr.afbProcess) s = .next t ∧ t.AfbReady ∧ t.afb = s.afb.advanceAll s.syn us ∧
      t.afbLog = s.afbLog ++ (s.afb.outputs s.syn us).map afbResponse := by
  induction us generalizing s with
  | nil => exact ⟨s, rfl, hs, rfl, (List.append_nil _).symm⟩
  | cons u us ih =>
    obtain ⟨hu, hus⟩ := List.forall_mem_cons.mp hus
    obtain ⟨t, hrun, ht, hafb, hlog⟩ := ih (hs.processed u) hus
    refine ⟨t, ?_, ht, hafb, ?_⟩
    · rw [List.map_cons, execAll_cons_next (hs.answers hu).1, hrun]
    · rw [hlog, State.processed_afbLog, List.append_assoc]
      rfl

/-- Settles O20, from the run of these commands. -/
theorem afbReturnsOneVectorPerVector : Obligations.AfbReturnsOneVectorPerVector := by
  intro s us hs hus
  obtain ⟨t, hrun, _, hafb, hlog⟩ := execAll_afbProcess hs hus
  exact ⟨t, s.afb.outputs s.syn us, hrun, s.afb.outputs_length s.syn us,
    fun X hX => s.afb.length_of_mem_outputs s.syn us hX, hlog, by rw [hafb, s.afb.advanceAll_r s.syn us hs.r_lt]⟩

/-! ## The flush -/

theorem afbFlush_eq_map (L n : Nat) : afbFlush L n = (List.replicate n (zeroVec L)).map Instr.afbProcess :=
  List.map_replicate.symm

/-- `n` all-zero vectors empty `n` places more of every delay line. -/
theorem Afb.EmptyBelow.advanceAll (p : Synth) {a : Afb} {j : Nat} (h : a.EmptyBelow j) (n : Nat) :
    (a.advanceAll p (List.replicate n (zeroVec a.L))).EmptyBelow (j + n) := by
  induction n generalizing a j with
  | zero => exact h
  | succ n ih =>
    rw [List.replicate_succ, Afb.advanceAll_cons, ← Nat.add_assoc, Nat.add_right_comm]
    exact ih (h.advance p)

/-- In a flush the outputs are zero from the vector on that empties the delay lines. -/
theorem Afb.EmptyBelow.outputs_getElem? (p : Synth) {a : Afb} {i j n : Nat} (h : a.EmptyBelow j) (hi : i < n)
    (hj : a.K ≤ j + i + 1) : (a.outputs p (List.replicate n (zeroVec a.L)))[i]? = some (zeroVec a.L) := by
  have hbefore : (a.advanceAll p (List.replicate i (zeroVec a.L))).EmptyBelow (j + i) := h.advanceAll p i
  have hzero := hbefore.output p (by simpa)
  rw [Afb.advanceAll_L] at hzero
  rw [Afb.outputs_getElem?, List.getElem?_replicate_of_lt hi, Option.map_some, List.take_replicate, Nat.min_eq_left hi.le,
    hzero]

theorem State.AfbReady.flush {s : State} (hs : s.AfbReady) (n : Nat) :
    ∃ t, execAll (afbFlush s.afb.L n) s = .next t ∧ t.AfbReady ∧
      t.afb = s.afb.advanceAll s.syn (List.replicate n (zeroVec s.afb.L)) ∧
      t.afbLog = s.afbLog ++ (s.afb.outputs s.syn (List.replicate n (zeroVec s.afb.L))).map afbResponse := by
  rw [afbFlush_eq_map]
  exact execAll_afbProcess hs fun u hu => by rw [List.eq_of_mem_replicate hu, length_zeroVec]

/-- A configuration empties the delay lines (R104). -/
theorem Afb.configure_emptyBelow (a : Afb) (L : Nat) (taps : Vec) (j : Nat) : (a.configure L taps).EmptyBelow j :=
  fun _ hb _ hk _ => cell_tabulate _ hb hk

/-- A flush after the delay lines are empty gives zero vectors only. -/
theorem Afb.outputs_eq_zeros (p : Synth) {a : Afb} (h : a.EmptyBelow a.K) (n : Nat) :
    a.outputs p (List.replicate n (zeroVec a.L)) = List.replicate n (zeroVec a.L) := by
  refine List.ext_getElem? fun i => ?_
  by_cases hi : i < n
  · rw [h.outputs_getElem? p hi (by omega), List.getElem?_replicate_of_lt hi]
  · rw [List.getElem?_eq_none (by simpa using hi), List.getElem?_eq_none (by simpa using hi)]

/-- The answers to a flush from any delay lines: vectors of length `L`, zero from the `K`-th on. -/
theorem Afb.flush_outputs (p : Synth) (a : Afb) {i n : Nat} (hi : i < n) :
    ∃ X, (a.outputs p (List.replicate n (zeroVec a.L)))[i]? = some X ∧ X.length = a.L ∧
      (a.K ≤ i + 1 → X = zeroVec a.L) := by
  have hempty : a.EmptyBelow 0 := nofun
  obtain ⟨X, hX⟩ : ∃ X, (a.outputs p (List.replicate n (zeroVec a.L)))[i]? = some X :=
    ⟨_, List.getElem?_eq_getElem (by simpa)⟩
  refine ⟨X, hX, a.length_of_mem_outputs p _ (List.mem_of_getElem? hX), fun hK => ?_⟩
  rw [hempty.outputs_getElem? p hi (by omega)] at hX
  exact (Option.some.inj hX).symm

/-- `n ≥ K` all-zero vectors empty the delay lines, whatever they held (R130). -/
theorem Afb.flush_empties (p : Synth) (a : Afb) {n b k : Nat} (hn : a.K ≤ n) (hb : b < a.L) (hk : k < a.K) :
    cell (a.advanceAll p (List.replicate n (zeroVec a.L))).d b k = Cplx.zero := by
  have hempty : a.EmptyBelow 0 := nofun
  exact hempty.advanceAll p n b (by simpa) k (by simpa) (by omega)

/-- Settles O18: each all-zero vector empties one place more, and a configuration empties them all. -/
theorem afbFlushEmptiesTheDelayLines : Obligations.AfbFlushEmptiesTheDelayLines := by
  refine ⟨fun s n hs hn => ?_, fun s L n taps hf hfit hok => ?_⟩
  · obtain ⟨t, hrun, ht, hafb, hlog⟩ := hs.flush n
    have hshape := ht.delays_shape
    rw [hafb, Afb.advanceAll_L, Afb.advanceAll_K] at hshape
    refine ⟨t, _, hrun, hafb ▸ hshape, fun b hb k hk => hafb ▸ s.afb.flush_empties s.syn hn hb hk, hlog, by simp,
      fun i hi => ?_⟩
    obtain ⟨X, hX, hlength, hzero⟩ := s.afb.flush_outputs s.syn hi
    exact ⟨X, by rw [List.getElem?_map, hX]; rfl, hlength, hzero⟩
  · obtain ⟨t, hrun, _, _, hlog⟩ := (State.configured_ready hf hfit hok).flush n
    refine ⟨t, (execAll_cons_next (exec_afbConfig_ok hf hfit hok)).trans hrun, ?_⟩
    have hzeros := Afb.outputs_eq_zeros s.syn (s.afb.configure_emptyBelow L taps (taps.length / L)) n
    simp only [State.configured_syn, State.configured_afb, Afb.configure_L] at hlog hzeros
    rw [hlog, hzeros, State.configured_afbLog, List.map_replicate, List.append_assoc]
    rfl

/-! ## One branch: the plain FIR filter -/

/-- The unit has one branch, and its delay line holds the samples of `past`, the newest first, then zeros. -/
def Afb.HoldsSerial (past : Vec) (a : Afb) : Prop := a.L = 1 ∧ ∀ k < a.K, cell a.d 0 k = elem past k

/-- One sample more (R109). -/
theorem Afb.HoldsSerial.advance (p : Synth) {a : Afb} {past : Vec} (h : a.HoldsSerial past) (u : Cplx) :
    (a.advance p [u]).HoldsSerial (u :: past) := by
  obtain ⟨hL, hd⟩ := h
  refine ⟨hL, fun k (hk : k < a.K) => ?_⟩
  rw [Afb.advance_d, shiftDelays, cell_tabulate _ (by omega) hk]
  cases k with
  | zero =>
    have hslot : betaInv p.commDir a.L a.r 0 = 0 := by have := betaInv_lt p.commDir (by omega : 1 ≤ a.L) a.r 0; omega
    simp only [hslot]
    rfl
  | succ j => exact hd j (by omega)

theorem Afb.HoldsSerial.advanceAll (p : Synth) {a : Afb} {past : Vec} (h : a.HoldsSerial past) (us : Vec) :
    (a.advanceAll p (us.map fun u => [u])).HoldsSerial (us.reverse ++ past) := by
  induction us generalizing a past with
  | nil => exact h
  | cons u us ih =>
    rw [List.map_cons, Afb.advanceAll_cons, List.reverse_cons, List.append_assoc]
    exact ih (h.advance p u)

theorem sigmaValue_one_branch (scale : FftScale) : sigmaValue scale 1 = 1 := by
  cases scale with
  | one => rfl
  | invL => simp [sigmaValue]
  | invSqrtL => simp [sigmaValue]

/-- With one branch there is no DFT: the output is the product sum of the taps and the delay line (R116). -/
theorem Afb.HoldsSerial.toComplex_output (ρ : Valuation) (p : Synth) {a : Afb} {past : Vec} (h : a.HoldsSerial past)
    (u : Cplx) :
    (elem (a.output p [u]) 0).toComplex ρ
      = ∑ k ∈ Finset.range a.K, (cell a.h 0 k).toComplex ρ * (elem (u :: past) k).toComplex ρ := by
  have hL : a.L = 1 := h.1
  have hbranch : beta p.commDir a.L a.r 0 = 0 := by have := beta_lt p.commDir (by omega : 1 ≤ a.L) a.r 0; omega
  calc (elem (a.output p [u]) 0).toComplex ρ
      = ∑ k ∈ Finset.range a.K, (cell a.h 0 k).toComplex ρ * (cell (a.advance p [u]).d 0 k).toComplex ρ := by
        rw [hL] at hbranch
        rw [a.toComplex_elem_output ρ p [u] (by omega)]
        simp [hbranch, hL, sigmaValue_one_branch]
    _ = _ := Finset.sum_congr rfl fun k hk => by rw [(h.advance p u).2 k (Finset.mem_range.mp hk)]

/-- The samples up to the `m`-th, the newest first, then zeros. -/
theorem elem_reverse_take_succ {us : Vec} {m : Nat} (hm : m < us.length) (k : Nat) :
    elem (us.take (m + 1)).reverse k = if k ≤ m then elem us (m - k) else Cplx.zero := by
  have hlength : (us.take (m + 1)).length = m + 1 := by rw [List.length_take]; omega
  rw [elem, List.getD_eq_getElem?_getD]
  split
  next hk =>
    rw [List.getElem?_reverse (by omega), hlength, List.getElem?_take_of_lt (by omega), elem,
      List.getD_eq_getElem?_getD, Nat.add_sub_cancel]
  next hk => rw [List.getElem?_eq_none (by rw [List.length_reverse]; omega), Option.getD_none]

/-- The output samples of a unit with one branch for the samples of a serial stream. -/
def Afb.serialOutputs (p : Synth) (a : Afb) (us : Vec) : Vec := (a.outputs p (us.map fun u => [u])).map fun X => elem X 0

theorem Afb.serialOutputs_length (p : Synth) (a : Afb) (us : Vec) : (a.serialOutputs p us).length = us.length := by
  simp [Afb.serialOutputs]

/-- With one branch each response holds one output sample. -/
theorem Afb.map_afbResponse_outputs (p : Synth) {a : Afb} (hL : a.L = 1) (us : Vec) :
    (a.outputs p (us.map fun u => [u])).map afbResponse = (a.serialOutputs p us).map fun X => some ⟨.ok, .vec [X]⟩ := by
  rw [Afb.serialOutputs, List.map_map]
  refine List.map_congr_left fun X hX => ?_
  obtain ⟨z, rfl⟩ := List.length_eq_one_iff.mp ((a.length_of_mem_outputs p _ hX).trans hL)
  rfl

/-- The `m`-th output sample is that of the unit after the samples before it. -/
theorem Afb.elem_serialOutputs (p : Synth) (a : Afb) {us : Vec} {m : Nat} (hm : m < us.length) :
    elem (a.serialOutputs p us) m = elem ((a.advanceAll p ((us.take m).map fun u => [u])).output p [us[m]]) 0 := by
  rw [elem, List.getD_eq_getElem?_getD, Afb.serialOutputs, List.getElem?_map, Afb.outputs_getElem?, List.getElem?_map,
    List.getElem?_eq_getElem hm, ← List.map_take]
  rfl

/-- The outputs of the plain FIR filter, from a delay line without samples (R116 (d)). -/
theorem Afb.HoldsSerial.toComplex_serialOutputs (ρ : Valuation) (p : Synth) {a : Afb} (h : a.HoldsSerial []) {us : Vec}
    {m : Nat} (hm : m < us.length) :
    (elem (a.serialOutputs p us) m).toComplex ρ
      = ∑ k ∈ Finset.range (min a.K (m + 1)), (cell a.h 0 k).toComplex ρ * (elem us (m - k)).toComplex ρ := by
  have hpast := h.advanceAll p (us.take m)
  have hnewest : us[m] :: ((us.take m).reverse ++ []) = (us.take (m + 1)).reverse := by
    rw [List.take_succ_eq_append_getElem hm, List.reverse_append, List.append_nil]
    rfl
  rw [a.elem_serialOutputs p hm, hpast.toComplex_output ρ p, hnewest, Afb.advanceAll_K, Afb.advanceAll_h]
  refine (Finset.sum_subset_zero_on_sdiff (Finset.range_mono (min_le_left _ _)) (fun k hk => ?_) fun k hk => ?_).symm
  · have hkm : ¬ k ≤ m := by
      rw [Finset.mem_sdiff, Finset.mem_range, Finset.mem_range] at hk
      omega
    rw [elem_reverse_take_succ hm, if_neg hkm, Cplx.toComplex_zero, mul_zero]
  · have hkm : k ≤ m := by
      rw [Finset.mem_range] at hk
      omega
    rw [elem_reverse_take_succ hm, if_pos hkm]

/-- After a configuration with one branch there are no samples in the delay line. -/
theorem Afb.configure_holdsSerial (a : Afb) (taps : Vec) : (a.configure 1 taps).HoldsSerial [] :=
  ⟨rfl, fun _ hk => cell_tabulate _ Nat.one_pos hk⟩

/-- With one branch the tap store holds the taps in their order (R101, R116). -/
theorem cell_partition_one_branch {taps : Vec} {k : Nat} (hk : k < taps.length) :
    cell (partition 1 (taps.length / 1) taps) 0 k = elem taps k := by
  rw [cell_partition taps Nat.one_pos (by omega), Nat.zero_add, Nat.mul_one]

/-- Settles O21: after the configuration the delay line is the serial stream, the newest sample first. -/
theorem afbWithOneBranchIsThePlainFir : Obligations.AfbWithOneBranchIsThePlainFir := by
  intro s taps us hf hfit hok
  obtain ⟨t, hrun, _, _, hlog⟩ := execAll_afbProcess (us := us.map fun u => [u]) (State.configured_ready hf hfit hok)
    (by simp)
  have hcommands : (us.map fun u => [u]).map Instr.afbProcess = us.map fun u => .afbProcess [u] := List.map_map
  rw [State.configured_afbLog, State.configured_syn, State.configured_afb,
    Afb.map_afbResponse_outputs s.syn (Afb.configure_L _ _ _), List.append_assoc] at hlog
  rw [hcommands] at hrun
  refine ⟨t, _, (execAll_cons_next (exec_afbConfig_ok hf hfit hok)).trans hrun, Afb.serialOutputs_length _ _ _, hlog,
    fun ρ m hm => ?_⟩
  rw [(s.afb.configure_holdsSerial taps).toComplex_serialOutputs ρ s.syn hm, Afb.configure_K, Nat.div_one]
  refine Finset.sum_congr rfl fun k hk => ?_
  have hkK : k < taps.length := (Finset.mem_range.mp hk).trans_le (min_le_left _ _)
  rw [Afb.configure_h, cell_partition_one_branch hkK]

end Sys2Proof.Machine
end

section
/-! PROOFS. No command reads the log, so two AFB units configured alike answer alike (R132). -/

namespace Sys2Proof.Machine

/-- The state with another log of what the host got from a unit. -/
def State.withLogOf (u : UnitId) (l : List (Option Response)) (s : State) : State :=
  match u with
  | .afb => { s with afbLog := l }
  | .fmx => { s with fmxLog := l }

section

variable {u : UnitId} {s t : State}

theorem State.faultOf_withLogOf (l : List (Option Response)) : (s.withLogOf u l).faultOf u = s.faultOf u := by
  cases u with
  | afb => rfl
  | fmx => rfl

theorem State.notPerformed_adds (l : List (Option Response)) :
    (s.notPerformed u).logOf u = s.logOf u ++ [none] ∧
    (s.withLogOf u l).notPerformed u = (s.notPerformed u).withLogOf u (l ++ [none]) := by
  cases u with
  | afb => exact ⟨rfl, rfl⟩
  | fmx => exact ⟨rfl, rfl⟩

theorem State.raiseFault_adds (k : FaultKind) (l : List (Option Response)) :
    (s.raiseFault u k).logOf u = s.logOf u ++ [none] ∧
    (s.withLogOf u l).raiseFault u k = (s.raiseFault u k).withLogOf u (l ++ [none]) := by
  cases u with
  | afb => exact ⟨rfl, rfl⟩
  | fmx => exact ⟨rfl, rfl⟩

/-- What a PROCESS or an accessor to `u` comes to does not depend on the log. -/
theorem checked_withLogOf {k : FaultKind} {done : State} {r : Option Response}
    (he : whenUnfaulted u s (whenChecked u k s (.next done)) = .next t) (hdone : done.logOf u = s.logOf u ++ [r])
    (l : List (Option Response)) :
    ∃ r', t.logOf u = s.logOf u ++ [r'] ∧
      whenUnfaulted u (s.withLogOf u l) (whenChecked u k (s.withLogOf u l) (.next (done.withLogOf u (l ++ [r]))))
        = .next (t.withLogOf u (l ++ [r'])) := by
  rcases checked_cases he with ⟨hf, rfl⟩ | ⟨hf, hk, rfl⟩ | ⟨hf, hk, rfl⟩
  all_goals rw [← State.faultOf_withLogOf l] at hf
  · obtain ⟨hlog, hstate⟩ := s.notPerformed_adds (u := u) l
    exact ⟨none, hlog, by rw [whenUnfaulted_of_faulted _ hf, hstate]⟩
  · obtain ⟨hlog, hstate⟩ := s.raiseFault_adds (u := u) k l
    exact ⟨none, hlog, by rw [checked_raises hf _ hk, hstate]⟩
  · exact ⟨r, hdone, checked_performed hf _ hk⟩

theorem execAfbConfig_withLogOf {L : Nat} {taps : Vec} (l : List (Option Response))
    (he : execAfbConfig L taps s = .next t) :
    ∃ r, t.afbLog = s.afbLog ++ [r] ∧
      execAfbConfig L taps (s.withLogOf .afb l) = .next (t.withLogOf .afb (l ++ [r])) := by
  rcases execAfbConfig_cases he with ⟨hf, rfl⟩ | ⟨hf, hfit, hok, rfl⟩ | ⟨hf, hfit, hok, rfl⟩
  · exact ⟨none, rfl, exec_of_faulted (i := .afbConfig L taps) (s := s.withLogOf .afb l) hf⟩
  · exact ⟨_, rfl, execAfbConfig_mismatch (s := s.withLogOf .afb l) hf hfit hok⟩
  · exact ⟨_, rfl, execAfbConfig_ok (s := s.withLogOf .afb l) hf hfit hok⟩

theorem execFmxConfig_withLogOf {L FL : Nat} {pre : Vec} (l : List (Option Response))
    (he : execFmxConfig L FL pre s = .next t) :
    ∃ r, t.fmxLog = s.fmxLog ++ [r] ∧
      execFmxConfig L FL pre (s.withLogOf .fmx l) = .next (t.withLogOf .fmx (l ++ [r])) := by
  rcases execFmxConfig_cases he with ⟨hf, rfl⟩ | ⟨hf, hfit, hok, rfl⟩ | ⟨hf, hfit, hok, rfl⟩
  · exact ⟨none, rfl, exec_of_faulted (i := .fmxConfig L FL pre) (s := s.withLogOf .fmx l) hf⟩
  · exact ⟨_, rfl, execFmxConfig_mismatch (s := s.withLogOf .fmx l) hf hfit hok⟩
  · exact ⟨_, rfl, execFmxConfig_ok (s := s.withLogOf .fmx l) hf hfit hok⟩

/-- A command adds one entry to its unit's log, the same whatever the log holds (R80, log 7). -/
theorem exec_withLogOf {i : Instr} (l : List (Option Response)) (he : exec i s = .next t) :
    ∃ r, t.logOf i.unit = s.logOf i.unit ++ [r] ∧
      exec i (s.withLogOf i.unit l) = .next (t.withLogOf i.unit (l ++ [r])) := by
  cases i with
  | afbConfig L taps => exact execAfbConfig_withLogOf l he
  | afbProcess v => exact (checked_withLogOf (u := .afb) he rfl l :)
  | afbGetL => exact (checked_withLogOf (u := .afb) he rfl l :)
  | afbGetOverlap => exact (checked_withLogOf (u := .afb) he rfl l :)
  | fmxConfig L FL pre => exact execFmxConfig_withLogOf l he
  | fmxProcess v => exact (checked_withLogOf (u := .fmx) he rfl l :)

/-- A run of commands to one unit adds the same entries to its log whatever the log holds. -/
theorem execAll_withLogOf {is : List Instr} (l : List (Option Response)) (hu : ∀ i ∈ is, i.unit = u)
    (hrun : execAll is s = .next t) :
    ∃ outs, t.logOf u = s.logOf u ++ outs ∧ execAll is (s.withLogOf u l) = .next (t.withLogOf u (l ++ outs)) := by
  induction is generalizing s l with
  | nil =>
    cases hrun
    exact ⟨[], by simp, by rw [List.append_nil, execAll_nil]⟩
  | cons i is ih =>
    obtain ⟨rfl, his⟩ := List.forall_mem_cons.mp hu
    obtain ⟨m, hm, hrest⟩ := execAll_cons_cases hrun
    obtain ⟨r, hr, hm'⟩ := exec_withLogOf l hm
    obtain ⟨outs, houts, hrest'⟩ := ih (l ++ [r]) his hrest
    refine ⟨r :: outs, by rw [houts, hr, List.append_assoc]; rfl, ?_⟩
    rw [execAll_cons_next hm', hrest', List.append_assoc]
    rfl

/-- Runs of commands to one unit, from states that are alike on it but for the log, add the same entries and end alike. -/
theorem State.AlikeOn.execAll_addressed {s' : State} {is : List Instr}
    (h : State.AlikeOn u (s.withLogOf u (s'.logOf u)) s') (hu : ∀ i ∈ is, i.unit = u)
    (hrun : execAll is s = .next t) :
    ∃ t' outs, execAll is s' = .next t' ∧ t.logOf u = s.logOf u ++ outs ∧
      State.AlikeOn u (t.withLogOf u (s'.logOf u ++ outs)) t' := by
  obtain ⟨outs, houts, hrun'⟩ := execAll_withLogOf (s'.logOf u) hu hrun
  obtain ⟨t', ht', halike⟩ := h.execAll_filter hrun'
  rw [List.filter_eq_self.mpr (by simpa using hu)] at ht'
  exact ⟨t', outs, ht', houts, halike⟩

end

/-- A configuration leaves nothing of the unit as it was but `fault` (R104). -/
theorem Afb.configure_agree {a b : Afb} (h : a.fault = b.fault) (L : Nat) (taps : Vec) :
    (a.configure L taps).Agree (b.configure L taps) :=
  ⟨rfl, h, fun _ => by rw [Afb.configure, Afb.configure, h]⟩

/-- Settles O38: the configuration makes the two units equal, and what follows reads neither the other unit nor the log. -/
theorem afbIsDeterministic : Obligations.AfbIsDeterministic := by
  intro s s' t L taps is hsyn hf hf' hfit hok hi hrun
  have hfit' : afbFits s'.syn L taps.length = true := hsyn ▸ hfit
  rw [execAll_cons_next (exec_afbConfig_ok hf hfit hok)] at hrun
  have hagree : (s.afb.configure L taps).Agree (s'.afb.configure L taps) := Afb.configure_agree (hf.trans hf'.symm) L taps
  have halike : State.AlikeOn .afb ((s.configured L taps).withLogOf .afb (s'.configured L taps).afbLog)
      (s'.configured L taps) := ⟨hsyn, hagree, rfl⟩
  obtain ⟨t', outs, hrun', hlog, _, htagree, hlog'⟩ := halike.execAll_addressed hi hrun
  have ht : t.afbLog = s.afbLog ++ [some ⟨.ok, .none⟩] ++ outs := hlog
  have ht' : s'.afbLog ++ [some ⟨.ok, .none⟩] ++ outs = t'.afbLog := hlog'
  rw [List.append_assoc] at ht ht'
  exact ⟨t', _, (execAll_cons_next (exec_afbConfig_ok hf' hfit' hok)).trans hrun', ht, ht'.symm, htagree⟩

end Sys2Proof.Machine
end

section
/-! PROOFS. The frame multiplexer (41_fmx.md): FMX_CONFIG (R140 to R142), one FMX_PROCESS (R146 to R148), the frames of a
run (R150, R151) and the codes that pass bit-exactly (R149). -/

namespace Sys2Proof.Machine

/-! ## The preamble store -/

theorem getElem?_eq_some_elem {v : Vec} {i : Nat} (hi : i < v.length) : v[i]? = some (elem v i) := by
  rw [elem, List.getD_eq_getElem?_getD, List.getElem?_eq_getElem hi, Option.getD_some]

theorem HasShape.getElem?_eq_some_row {m : Bank} {rows cols b : Nat} (h : HasShape m rows cols) (hb : b < rows) :
    m[b]? = some (row m b) := by
  rw [row, List.getD_eq_getElem?_getD, List.getElem?_eq_getElem (h.1 ▸ hb), Option.getD_some]

/-- The elements of a whole preamble vector are within the flat preamble. -/
theorem preamble_index_lt {NP L p i : Nat} (hp : p < NP / L) (hi : i < L) : p * L + i < NP := by
  calc p * L + i < (p + 1) * L := by rw [Nat.succ_mul]; omega
    _ ≤ NP := Nat.mul_le_of_le_div _ _ _ hp

/-- The store that the preamble is cut into holds its elements (R45, R142). -/
theorem getElem?_preamble {L p i : Nat} {pre : Vec} (hp : p < pre.length / L) (hi : i < L) :
    pre[p * L + i]? = some (cell (preambleRows (pre.length / L) L pre) p i) := by
  rw [cell_preambleRows pre hp hi, getElem?_eq_some_elem (preamble_index_lt hp hi)]

/-- A row of the store is that piece of the preamble (R45). -/
theorem row_preambleRows {L p : Nat} {pre : Vec} (hp : p < pre.length / L) :
    row (preambleRows (pre.length / L) L pre) p = (pre.drop (p * L)).take L := by
  refine List.ext_getElem? fun i => ?_
  rw [preambleRows, row_tabulate _ hp, List.getElem?_map, List.getElem?_take, List.getElem?_drop]
  split
  next hi => rw [List.getElem?_range hi, Option.map_some, getElem?_eq_some_elem (preamble_index_lt hp hi)]
  next hi => rw [List.getElem?_eq_none (by simpa using hi), Option.map_none]

/-! ## FMX_CONFIG -/

/-- The state in which a successful FMX_CONFIG completes (R142). -/
def State.fmxConfigured (L FL : Nat) (pre : Vec) (s : State) : State :=
  State.respond .fmx .ok .none { s with fmx := s.fmx.configure L FL pre }

/-- A configuration leaves nothing of the unit as it was but `fault` (R142). -/
theorem Fmx.configure_congr {x y : Fmx} (h : x.fault = y.fault) (L FL : Nat) (pre : Vec) :
    x.configure L FL pre = y.configure L FL pre := by
  rw [Fmx.configure, Fmx.configure, h]

section

variable {s : State} {L FL : Nat} {pre : Vec}

@[simp] theorem State.fmxConfigured_fmx : (s.fmxConfigured L FL pre).fmx = s.fmx.configure L FL pre := rfl
@[simp] theorem State.fmxConfigured_fmxLog :
    (s.fmxConfigured L FL pre).fmxLog = s.fmxLog ++ [some ⟨.ok, .none⟩] := rfl

theorem State.fmxConfigured_onlyFmxChanged : OnlyFmxChanged s (s.fmxConfigured L FL pre) := ⟨rfl, rfl, rfl, rfl⟩

variable (hf : s.fmx.fault = .none) (hfit : fmxFits s.syn L FL pre.length = true)
  (hok : fmxOk L FL pre.length = true)

include hf hfit hok

theorem exec_fmxConfig_ok : exec (.fmxConfig L FL pre) s = .next (s.fmxConfigured L FL pre) :=
  execFmxConfig_ok hf hfit hok

/-- A successful FMX_CONFIG leaves the unit ready for FMX_PROCESS (R142). -/
theorem State.fmxConfigured_ready : (s.fmxConfigured L FL pre).FmxReady :=
  ⟨rfl, hf, s.fmx.configure_inv s.syn hfit hok⟩

end

/-- Settles O23, from the value of the command under each outcome of its two checks. -/
theorem fmxConfigFollowsItsRule : Obligations.FmxConfigFollowsItsRule := by
  intro s L FL pre hf
  simp only [← fmxFits_iff, ← fmxOk_iff, Bool.not_eq_true]
  refine ⟨rfl, execFmxConfig_capacity hf, fun hfit hok => ?_, fun hfit hok => ?_⟩
  · exact ⟨_, execFmxConfig_mismatch hf hfit hok, rfl, hf, rfl, rfl, rfl, rfl, rfl⟩
  · exact ⟨_, exec_fmxConfig_ok hf hfit hok, rfl, hf, rfl, rfl, rfl, rfl, preambleRows_shape _ _ _,
      fun p hp i hi => getElem?_preamble hp hi, rfl, State.fmxConfigured_onlyFmxChanged, rfl⟩

/-! ## FMX_PROCESS -/

/-- The fault of the first precondition that fails is raised (R146). -/
theorem exec_fmxProcess_raises {s : State} {v : Vec} {k : FaultKind} (hf : s.fmx.fault = .none)
    (hcheck : processCheck s.fmx.cfg s.fmx.L v.length = k) (hk : k ≠ .none) :
    exec (.fmxProcess v) s = .next (s.raiseFault .fmx k) := by
  subst hcheck
  exact checked_raises (u := .fmx) hf _ hk

/-- Settles O25: the first precondition that fails is the fault that is raised. -/
theorem fmxProcessFaultsOnItsPreconditions : Obligations.FmxProcessFaultsOnItsPreconditions := by
  intro s v hf
  refine ⟨fun hc => ?_, fun hc hl => ?_⟩
  · exact ⟨_, exec_fmxProcess_raises (k := .notConfigured) hf (by rw [hc, processCheck_unconfigured]) nofun,
      rfl, rfl, s.raiseFault_onlyUnitChanged .fmx _⟩
  · exact ⟨_, exec_fmxProcess_raises (k := .vectorLength) hf (by rw [hc, processCheck_wrong_length hl]) nofun,
      rfl, rfl, s.raiseFault_onlyUnitChanged .fmx _⟩

/-- In the preamble the output is the vector at the counter's index, whatever the input is (R147). -/
theorem Fmx.output_preamble {x : Fmx} (h : x.c < x.P) (v : Vec) : x.output v = row x.pre x.c := if_pos h

/-- After the preamble the output is the input (R147). -/
theorem Fmx.output_payload {x : Fmx} (h : x.P ≤ x.c) (v : Vec) : x.output v = v := if_neg (Nat.not_lt.mpr h)

/-- The state in which an FMX_PROCESS of `v` completes (R148). -/
def State.fmxProcessed (v : Vec) (s : State) : State :=
  State.respond .fmx .ok (.vec (s.fmx.output v)) { s with fmx := s.fmx.advance }

section

variable (s : State) (v : Vec)

@[simp] theorem State.fmxProcessed_fmx : (s.fmxProcessed v).fmx = s.fmx.advance := rfl
@[simp] theorem State.fmxProcessed_fmxLog :
    (s.fmxProcessed v).fmxLog = s.fmxLog ++ [some ⟨.ok, .vec (s.fmx.output v)⟩] := rfl

theorem State.fmxProcessed_onlyFmxChanged : OnlyFmxChanged s (s.fmxProcessed v) := ⟨rfl, rfl, rfl, rfl⟩

end

namespace State.FmxReady

variable {s : State} (hs : s.FmxReady)

include hs

theorem preamble_shape : HasShape s.fmx.pre s.fmx.P s.fmx.L := by
  obtain ⟨hc, _, hinv⟩ := hs
  obtain ⟨_, _, _, _, _, _, _, hpre⟩ := hinv hc
  exact hpre

theorem output_length {v : Vec} (hv : v.length = s.fmx.L) : (s.fmx.output v).length = s.fmx.L := by
  obtain ⟨hc, _, hinv⟩ := hs
  exact Fmx.output_length hinv hc hv

/-- FMX_PROCESS of a vector of the configured length completes (R146, R148). -/
theorem exec_fmxProcess {v : Vec} (hv : v.length = s.fmx.L) :
    exec (.fmxProcess v) s = .next (s.fmxProcessed v) := by
  obtain ⟨hc, hf, _⟩ := hs
  exact execFmxProcess_ok hf hc hv

/-- It leaves the unit ready for the next vector. -/
theorem fmxProcessed (v : Vec) : (s.fmxProcessed v).FmxReady := by
  obtain ⟨hc, hf, hinv⟩ := hs
  exact ⟨hc, hf, Fmx.advance_inv hinv⟩

end State.FmxReady

/-- Settles O24, from the two cases of the selection. -/
theorem fmxProcessSelectsPreambleOrInput : Obligations.FmxProcessSelectsPreambleOrInput := by
  intro s v hs hv
  refine ⟨_, s.fmx.output v, hs.exec_fmxProcess hv, rfl, hs.output_length hv, fun hpre => ?_,
    fun hpay => Fmx.output_payload hpay v, rfl, s.fmxProcessed_onlyFmxChanged v, rfl⟩
  rw [Fmx.output_preamble hpre, hs.preamble_shape.getElem?_eq_some_row hpre]

/-! ## The frames of a run -/

/-- The output vectors of FMX_PROCESS of each of the vectors. -/
def Fmx.outputs : Fmx → List Vec → List Vec
  | _, [] => []
  | x, v :: vs => x.output v :: x.advance.outputs vs

section

variable (x : Fmx) (v : Vec) (vs : List Vec)

@[simp] theorem Fmx.outputs_nil : x.outputs [] = [] := rfl
@[simp] theorem Fmx.outputs_cons : x.outputs (v :: vs) = x.output v :: x.advance.outputs vs := rfl

@[simp] theorem Fmx.outputs_length : (x.outputs vs).length = vs.length := by
  induction vs generalizing x with
  | nil => rfl
  | cons v vs ih => simp [ih]

/-- The output at place `k` of a run is that of the unit after `k` vectors. -/
theorem Fmx.outputs_getElem? (k : Nat) : (x.outputs vs)[k]? = vs[k]?.map (Fmx.advance^[k] x).output := by
  induction vs generalizing x k with
  | nil => rfl
  | cons v vs ih =>
    cases k with
    | zero => rfl
    | succ k => exact ih x.advance k

end

/-- `n` vectors advance the counter by `n`, modulo `FL`, and change nothing else of the unit (R148). -/
theorem Fmx.advance_iterate {x : Fmx} (hc : x.c < x.FL) (n : Nat) :
    Fmx.advance^[n] x = { x with c := (x.c + n) % x.FL } := by
  induction n generalizing x with
  | zero => rw [Function.iterate_zero_apply, Nat.add_zero, Nat.mod_eq_of_lt hc]
  | succ n ih =>
    rw [Function.iterate_succ_apply, ih (Nat.mod_lt _ (by omega)), Fmx.advance_c, Fmx.advance_FL,
      Nat.mod_add_mod, Nat.add_assoc, Nat.add_comm 1]
    rfl

/-- After a configuration the counter is the position in the frame (R150). -/
theorem Fmx.advance_iterate_configure (x : Fmx) (L : Nat) {FL : Nat} (hFL : 1 ≤ FL) (pre : Vec) (n : Nat) :
    Fmx.advance^[n] (x.configure L FL pre) = { x.configure L FL pre with c := n % FL } := by
  have hc : (x.configure L FL pre).c < (x.configure L FL pre).FL := hFL
  rw [Fmx.advance_iterate hc, Fmx.configure_c, Fmx.configure_FL, Nat.zero_add]
  rfl

/-- A run of FMX_PROCESS with vectors of the configured length completes. -/
theorem execAll_fmxProcess {s : State} {vs : List Vec} (hs : s.FmxReady) (hvs : ∀ v ∈ vs, v.length = s.fmx.L) :
    ∃ t, execAll (vs.map Instr.fmxProcess) s = .next t ∧ t.fmx = Fmx.advance^[vs.length] s.fmx ∧
      t.fmxLog = s.fmxLog ++ (s.fmx.outputs vs).map fun w => some ⟨.ok, .vec w⟩ := by
  induction vs generalizing s with
  | nil => exact ⟨s, rfl, rfl, (List.append_nil _).symm⟩
  | cons v vs ih =>
    obtain ⟨hv, hvs⟩ := List.forall_mem_cons.mp hvs
    obtain ⟨t, hrun, hfmx, hlog⟩ := ih (hs.fmxProcessed v) hvs
    refine ⟨t, ?_, hfmx, ?_⟩
    · rw [List.map_cons, execAll_cons_next (hs.exec_fmxProcess hv), hrun]
    · rw [hlog, State.fmxProcessed_fmxLog, List.append_assoc]
      rfl

/-- A successful FMX_CONFIG and the FMX_PROCESS commands after it: the responses, and the final counter. -/
theorem execAll_fmxConfig_fmxProcess {s : State} {L FL : Nat} {pre : Vec} {vs : List Vec} (hf : s.fmx.fault = .none)
    (hfit : fmxFits s.syn L FL pre.length = true) (hok : fmxOk L FL pre.length = true)
    (hvs : ∀ v ∈ vs, v.length = L) :
    ∃ t, execAll (.fmxConfig L FL pre :: vs.map Instr.fmxProcess) s = .next t ∧
      t.fmxLog = s.fmxLog ++
        some ⟨.ok, .none⟩ :: ((s.fmx.configure L FL pre).outputs vs).map (fun w => some ⟨.ok, .vec w⟩) ∧
      t.fmx.c = vs.length % FL := by
  obtain ⟨_, _, hFL, _⟩ := (fmxOk_iff L FL pre.length).mp hok
  obtain ⟨t, hrun, hfmx, hlog⟩ := execAll_fmxProcess (State.fmxConfigured_ready hf hfit hok) hvs
  refine ⟨t, (execAll_cons_next (exec_fmxConfig_ok hf hfit hok)).trans hrun, ?_, ?_⟩
  · rw [hlog, State.fmxConfigured_fmxLog, List.append_assoc]
    rfl
  · rw [hfmx, State.fmxConfigured_fmx, Fmx.advance_iterate_configure _ _ hFL]

/-- The `k`-th output after a configuration is selected at the position `k mod FL` of the frame (R150). -/
theorem Fmx.configure_outputs_getElem? (x : Fmx) {L FL k : Nat} {pre : Vec} {vs : List Vec} (hFL : 1 ≤ FL)
    (hk : k < vs.length) :
    (k % FL < pre.length / L →
      ((x.configure L FL pre).outputs vs)[k]? = some ((pre.drop (k % FL * L)).take L)) ∧
    (pre.length / L ≤ k % FL → ((x.configure L FL pre).outputs vs)[k]? = vs[k]?) := by
  rw [Fmx.outputs_getElem?, x.advance_iterate_configure L hFL, List.getElem?_eq_getElem hk, Option.map_some]
  refine ⟨fun hpre => ?_, fun hpay => ?_⟩
  · rw [Fmx.output_preamble hpre, ← row_preambleRows hpre]
    rfl
  · rw [Fmx.output_payload hpay]

/-- Settles O26, from the run of these commands and the selection at each position of the frame. -/
theorem fmxFramesArePeriodic : Obligations.FmxFramesArePeriodic := by
  intro s L FL pre vs hf hfit hok hvs
  obtain ⟨t, hrun, hlog, hc⟩ := execAll_fmxConfig_fmxProcess hf hfit hok hvs
  obtain ⟨_, _, hFL, _⟩ := (fmxOk_iff L FL pre.length).mp hok
  exact ⟨t, _, hrun, hlog, Fmx.outputs_length _ vs, hc, fun k hk => s.fmx.configure_outputs_getElem? hFL hk⟩

/-- Settles O37: the configuration makes the two units equal, and the outputs are a function of the unit and the inputs. -/
theorem fmxIsDeterministic : Obligations.FmxIsDeterministic := by
  intro s s' L FL pre vs hsyn hf hf' hfit hok hvs
  have hfit' : fmxFits s'.syn L FL pre.length = true := hsyn ▸ hfit
  obtain ⟨t, hrun, hlog, hc⟩ := execAll_fmxConfig_fmxProcess hf hfit hok hvs
  obtain ⟨t', hrun', hlog', hc'⟩ := execAll_fmxConfig_fmxProcess hf' hfit' hok hvs
  rw [← Fmx.configure_congr (hf.trans hf'.symm)] at hlog'
  exact ⟨t, t', _, hrun, hrun', hlog, hlog', hc.trans hc'.symm⟩

/-! ## Codes that pass bit-exactly -/

/-- The first samples are read from the first parts, two for each (R65). -/
theorem samplesOfParts_take {fmt : SampleFmt} {ps : List (BitVec fmt.width)} {v : Vec}
    (h : samplesOfParts fmt ps = some v) (n : Nat) : samplesOfParts fmt (ps.take (2 * n)) = some (v.take n) := by
  induction n generalizing ps v with
  | zero => rfl
  | succ n ih =>
    rcases samplesOfParts_cases h with ⟨rfl, rfl⟩ | ⟨re, im, qs, z, w, rfl, rfl, hz, hw⟩
    · rfl
    · rw [Nat.mul_succ, List.take_succ_cons, List.take_succ_cons, samplesOfParts, ih hw, Option.map_some, ← hz,
        List.take_succ_cons]

section

variable {fmt : SampleFmt} (hfmt : ∀ b, fmt.code (fmt.value b) = some b)

include hfmt

/-- A sample is sent as the parts that it was read from. -/
theorem partsOfSample_of_readAs {z : Cplx} {re im : BitVec fmt.width} (h : ReadAs fmt z re im) :
    partsOfSample fmt z = some [re, im] := by
  rw [partsOfSample, h, Cplx.parts?_ofParts]
  simp only [hfmt]

/-- A vector is sent as the parts that it was read from (R149). -/
theorem partsOfSamples_samplesOfParts {ps : List (BitVec fmt.width)} {v : Vec} (h : samplesOfParts fmt ps = some v) :
    partsOfSamples fmt v = some ps := by
  induction v generalizing ps with
  | nil =>
    rcases samplesOfParts_cases h with ⟨rfl, _⟩ | ⟨_, _, _, _, _, _, hv, _⟩
    · rfl
    · cases hv
  | cons z v ih =>
    rcases samplesOfParts_cases h with ⟨_, hv⟩ | ⟨re, im, qs, _, _, rfl, hv, hz, hrest⟩
    · cases hv
    · cases hv
      rw [partsOfSamples, partsOfSample_of_readAs hfmt hz, ih hrest]
      rfl

/-- A response that holds a vector read from parts is sent as these parts (R65, R149). -/
theorem itemsOfPayload_samplesOfParts (w : Nat) {ps : List (BitVec fmt.width)} {v : Vec}
    (h : samplesOfParts fmt ps = some v) : itemsOfPayload fmt w (.vec v) = some [.parts ps] := by
  rw [itemsOfPayload, partsOfSamples_samplesOfParts hfmt h, Option.map_some]

end

/-- The first output after a configuration with a preamble is its first vector (R147). -/
theorem Fmx.configure_output_first (x : Fmx) {L : Nat} (FL : Nat) {pre : Vec} (h : 1 ≤ pre.length / L) (v : Vec) :
    (x.configure L FL pre).output v = pre.take L := by
  have hc : (x.configure L FL pre).c < (x.configure L FL pre).P := h
  rw [Fmx.output_preamble hc, Fmx.configure_pre, Fmx.configure_c, row_preambleRows h, Nat.zero_mul, List.drop_zero]

/-- Settles O47: FMX sends the payload vector or the first preamble vector, and a vector that was read from parts is sent
as these parts. -/
theorem fmxPassesEveryCodeBitExactly : Obligations.FmxPassesEveryCodeBitExactly := by
  intro fmt w hfmt
  refine ⟨fun s ps v hs hpay hps hv => ?_, fun s L FL ps pre v hf hfit hok hps hpre hv => ?_⟩
  · refine ⟨_, _, hs.exec_fmxProcess hv, s.fmxProcessed_fmxLog v, ?_⟩
    rw [Fmx.output_payload hpay]
    exact itemsOfPayload_samplesOfParts hfmt w hps
  · obtain ⟨t, hrun, hlog, _⟩ := execAll_fmxConfig_fmxProcess (vs := [v]) hf hfit hok (by simpa using hv)
    refine ⟨t, _, _, hrun, hlog, ?_⟩
    rw [Fmx.configure_output_first s.fmx FL hpre]
    exact itemsOfPayload_samplesOfParts hfmt w (samplesOfParts_take hps L)

end Sys2Proof.Machine
end

section
/-! PROOFS. The exceptions (60_exceptions.md): the outcomes of a command (R160, R169), the faults and their causes (R163,
R166), a faulted unit until its reset (R165, R168), the order of the checks (R172), and channels (R178). -/

namespace Sys2Proof.Machine

/-! ## Waiting -/

/-- Settles O9: with nothing to take, the step answers the state that it got. -/
theorem stepWithoutActionHoldsTheState : Obligations.StepWithoutActionHoldsTheState := by
  intro s hin
  rw [step, hin]

/-! ## The outcomes of a command -/

theorem execAfbConfig_refused_not_fits {L : Nat} {taps : Vec} {s : State} {why : Refusal} (hf : s.afb.fault = .none)
    (h : execAfbConfig L taps s = .refused why) : afbFits s.syn L taps.length = false := by
  cases hfit : afbFits s.syn L taps.length with
  | false => rfl
  | true =>
    cases hok : afbOk L taps.length with
    | false => rw [execAfbConfig_mismatch hf hfit hok] at h; cases h
    | true => rw [execAfbConfig_ok hf hfit hok] at h; cases h

theorem execFmxConfig_refused_not_fits {L FL : Nat} {pre : Vec} {s : State} {why : Refusal} (hf : s.fmx.fault = .none)
    (h : execFmxConfig L FL pre s = .refused why) : fmxFits s.syn L FL pre.length = false := by
  cases hfit : fmxFits s.syn L FL pre.length with
  | false => rfl
  | true =>
    cases hok : fmxOk L FL pre.length with
    | false => rw [execFmxConfig_mismatch hf hfit hok] at h; cases h
    | true => rw [execFmxConfig_ok hf hfit hok] at h; cases h

/-- A faulted unit does not look at the operands, so nothing is refused (R172). -/
theorem exec_refused_unfaulted {i : Instr} {s : State} {why : Refusal} (h : exec i s = .refused why) :
    s.faultOf i.unit = .none := by
  by_contra hf
  rw [exec_of_faulted hf] at h
  cases h

/-- The refused instructions are the configurations beyond the built block's storage (R103, R140). -/
theorem exec_refused_cases {i : Instr} {s : State} {why : Refusal} (h : exec i s = .refused why) :
    (∃ L taps, i = .afbConfig L taps ∧ afbFits s.syn L taps.length = false) ∨
    ∃ L FL pre, i = .fmxConfig L FL pre ∧ fmxFits s.syn L FL pre.length = false := by
  have hf := exec_refused_unfaulted h
  cases i with
  | afbConfig L taps => exact .inl ⟨L, taps, rfl, execAfbConfig_refused_not_fits hf h⟩
  | afbProcess u => exact absurd h checked_ne_refused
  | afbGetL => exact absurd h checked_ne_refused
  | afbGetOverlap => exact absurd h checked_ne_refused
  | fmxConfig L FL pre => exact .inr ⟨L, FL, pre, rfl, execFmxConfig_refused_not_fits hf h⟩
  | fmxProcess v => exact absurd h checked_ne_refused

/-- Settles O27, by the three outcomes: a next state has one more log entry, there are no reasons for a fault, and a
refusal is for capacity. -/
theorem everyCommandHasOneOutcome : Obligations.EveryCommandHasOneOutcome := by
  intro i s
  cases he : exec i s with
  | next t =>
    obtain ⟨r, hr, _⟩ := exec_withLogOf [] he
    exact .inl ⟨t, r, rfl, hr⟩
  | fault r => cases r
  | refused why =>
    exact .inr ⟨congrArg _ (exec_refused he), exec_refused_unfaulted he, exec_refused_cases he⟩

/-! ## The faults and their causes -/

/-- The fault that an instruction raises in a state of its unfaulted unit, `none` where it raises none (R163). -/
def State.checkOf (s : State) : Instr → FaultKind
  | .afbConfig _ _ => .none
  | .afbProcess u => processCheck s.afb.cfg s.afb.L u.length
  | .afbGetL => configuredCheck s.afb.cfg
  | .afbGetOverlap => configuredCheck s.afb.cfg
  | .fmxConfig _ _ _ => .none
  | .fmxProcess v => processCheck s.fmx.cfg s.fmx.L v.length

@[simp] theorem State.faultOf_raiseFault (u : UnitId) (k : FaultKind) (s : State) :
    (s.raiseFault u k).faultOf u = k := by
  cases u with
  | afb => rfl
  | fmx => rfl

/-- A PROCESS or an accessor to an unfaulted unit raises the fault of its check, or leaves the unit unfaulted. -/
theorem checked_unfaulted_cases {u : UnitId} {k : FaultKind} {s t done : State} (hf : s.faultOf u = .none)
    (he : whenUnfaulted u s (whenChecked u k s (.next done)) = .next t) (hdone : done.faultOf u = .none) :
    (k ≠ .none ∧ t = s.raiseFault u k) ∨ (k = .none ∧ t.faultOf u = .none) := by
  rcases checked_cases he with ⟨hf', _⟩ | ⟨_, hk, rfl⟩ | ⟨_, hk, rfl⟩
  · exact absurd hf hf'
  · exact .inl ⟨hk, rfl⟩
  · exact .inr ⟨hk, hdone⟩

/-- A configuration leaves an unfaulted unit unfaulted, whether it succeeds or not (R104). -/
theorem execAfbConfig_keeps_unfaulted {L : Nat} {taps : Vec} {s t : State} (hf : s.afb.fault = .none)
    (he : execAfbConfig L taps s = .next t) : t.afb.fault = .none := by
  rcases execAfbConfig_cases he with ⟨_, rfl⟩ | ⟨_, _, _, rfl⟩ | ⟨_, _, _, rfl⟩ <;> exact hf

/-- A configuration leaves an unfaulted unit unfaulted, whether it succeeds or not (R142). -/
theorem execFmxConfig_keeps_unfaulted {L FL : Nat} {pre : Vec} {s t : State} (hf : s.fmx.fault = .none)
    (he : execFmxConfig L FL pre s = .next t) : t.fmx.fault = .none := by
  rcases execFmxConfig_cases he with ⟨_, rfl⟩ | ⟨_, _, _, rfl⟩ | ⟨_, _, _, rfl⟩ <;> exact hf

/-- A command to an unfaulted unit raises the fault of its check, or leaves the unit unfaulted. -/
theorem exec_unfaulted_cases {i : Instr} {s t : State} (hf : s.faultOf i.unit = .none) (he : exec i s = .next t) :
    (s.checkOf i ≠ .none ∧ t = s.raiseFault i.unit (s.checkOf i)) ∨ (s.checkOf i = .none ∧ t.faultOf i.unit = .none) := by
  cases i with
  | afbConfig L taps => exact .inr ⟨rfl, execAfbConfig_keeps_unfaulted hf he⟩
  | afbProcess u => exact checked_unfaulted_cases (u := .afb) hf he hf
  | afbGetL => exact checked_unfaulted_cases (u := .afb) hf he hf
  | afbGetOverlap => exact checked_unfaulted_cases (u := .afb) hf he hf
  | fmxConfig L FL pre => exact .inr ⟨rfl, execFmxConfig_keeps_unfaulted hf he⟩
  | fmxProcess v => exact checked_unfaulted_cases (u := .fmx) hf he hf

/-- The fault of an unfaulted unit after a command is what the command's check says. -/
theorem exec_faultOf_eq_checkOf {i : Instr} {s t : State} (hf : s.faultOf i.unit = .none) (he : exec i s = .next t) :
    t.faultOf i.unit = s.checkOf i := by
  rcases exec_unfaulted_cases hf he with ⟨_, rfl⟩ | ⟨hcheck, ht⟩
  · exact s.faultOf_raiseFault i.unit _
  · rw [ht, hcheck]

theorem OnlyUnitChanged.faultOf_eq {u v : UnitId} {s t : State} (h : OnlyUnitChanged v s t) (hv : v ≠ u) :
    t.faultOf u = s.faultOf u := by
  cases v with
  | afb =>
    obtain ⟨hfmx, _⟩ := h
    cases u with
    | afb => exact absurd rfl hv
    | fmx => exact congrArg Fmx.fault hfmx
  | fmx =>
    obtain ⟨hafb, _⟩ := h
    cases u with
    | afb => exact congrArg Afb.fault hafb
    | fmx => exact absurd rfl hv

/-- A unit that becomes faulted is the one that the command addressed. -/
theorem exec_unit_of_faulted {i : Instr} {s t : State} {u : UnitId} (he : exec i s = .next t)
    (hs : s.faultOf u = .none) (ht : t.faultOf u ≠ .none) : i.unit = u := by
  by_contra hu
  exact ht (((exec_onlyUnitChanged he).faultOf_eq hu).trans hs)

/-- Settles O29: the addressed unit, faulted now, raised the fault of the command's check, and that is all of it (R165). -/
theorem faultsArePrecise : Obligations.FaultsArePrecise := by
  intro i s t u he hs ht
  obtain rfl := exec_unit_of_faulted he hs ht
  have hcheck := exec_faultOf_eq_checkOf hs he
  rcases exec_unfaulted_cases hs he with ⟨_, hraise⟩ | ⟨_, hnone⟩
  · exact ⟨rfl, by rw [hcheck]; exact hraise⟩
  · exact absurd hnone ht

@[simp] theorem configuredCheck_eq_notConfigured_iff {cfg : CfgFlag} :
    configuredCheck cfg = .notConfigured ↔ cfg = .unconfigured := by
  cases cfg <;> simp

@[simp] theorem configuredCheck_ne_vectorLength (cfg : CfgFlag) : configuredCheck cfg ≠ .vectorLength := by
  cases cfg <;> simp

@[simp] theorem processCheck_eq_notConfigured_iff {cfg : CfgFlag} {L n : Nat} :
    processCheck cfg L n = .notConfigured ↔ cfg = .unconfigured := by
  cases cfg with
  | unconfigured => simp
  | configured => by_cases h : n = L <;> simp [processCheck, h]

@[simp] theorem processCheck_eq_vectorLength_iff {cfg : CfgFlag} {L n : Nat} :
    processCheck cfg L n = .vectorLength ↔ cfg = .configured ∧ n ≠ L := by
  cases cfg with
  | unconfigured => simp
  | configured => by_cases h : n = L <;> simp [processCheck, h]

/-- NOT_CONFIGURED is raised for every command but a configuration, while the unit is unconfigured (R163). -/
theorem State.checkOf_eq_notConfigured_iff {i : Instr} {s : State} :
    s.checkOf i = .notConfigured ↔
      s.cfgOf i.unit = .unconfigured ∧ (∀ L taps, i ≠ .afbConfig L taps) ∧ ∀ L FL pre, i ≠ .fmxConfig L FL pre := by
  cases i <;> simp [State.checkOf, Instr.unit, State.cfgOf]

/-- VECTOR_LENGTH is raised for a PROCESS of another length than the unit's, while it is configured (R163). -/
theorem State.checkOf_eq_vectorLength_iff {i : Instr} {s : State} :
    s.checkOf i = .vectorLength ↔
      s.cfgOf i.unit = .configured ∧
        ((∃ u, i = .afbProcess u ∧ u.length ≠ s.afb.L) ∨ ∃ v, i = .fmxProcess v ∧ v.length ≠ s.fmx.L) := by
  cases i <;> simp [State.checkOf, Instr.unit, State.cfgOf]

/-- Settles O30: the fault after a command is its check, which names each kind for exactly its causes. -/
theorem faultsHaveExactlyTheirCauses : Obligations.FaultsHaveExactlyTheirCauses := by
  refine ⟨⟨rfl, rfl, rfl⟩, fun i s t he hf => ?_⟩
  rw [exec_faultOf_eq_checkOf hf he]
  exact ⟨State.checkOf_eq_notConfigured_iff, State.checkOf_eq_vectorLength_iff⟩

/-! ## A faulted unit -/

/-- Settles O31: a faulted unit does not perform the command, and that adds only the log entry. -/
theorem faultedUnitPerformsNothing : Obligations.FaultedUnitPerformsNothing := by
  intro i s hf
  refine ⟨_, exec_of_faulted hf, ?_⟩
  cases i.unit with
  | afb => exact ⟨rfl, rfl, rfl, rfl, rfl⟩
  | fmx => exact ⟨rfl, rfl, rfl, rfl, rfl⟩

/-- Between `s` and `t` the unit did nothing: it has the same state, and the host got no response from it. -/
structure State.IdleOf (u : UnitId) (s t : State) : Prop where
  log : ∃ n, t.logOf u = s.logOf u ++ List.replicate n none
  afb : u = .afb → t.afb = s.afb
  fmx : u = .fmx → t.fmx = s.fmx

namespace State.IdleOf

variable {u : UnitId} {s t m : State}

theorem refl (u : UnitId) (s : State) : IdleOf u s s := ⟨⟨0, by simp⟩, fun _ => rfl, fun _ => rfl⟩

theorem trans (h : IdleOf u s m) (h' : IdleOf u m t) : IdleOf u s t := by
  obtain ⟨n, hn⟩ := h.log
  obtain ⟨n', hn'⟩ := h'.log
  refine ⟨⟨n + n', ?_⟩, fun hu => (h'.afb hu).trans (h.afb hu), fun hu => (h'.fmx hu).trans (h.fmx hu)⟩
  rw [hn', hn, List.append_assoc, List.replicate_append_replicate]

theorem faultOf_eq (h : IdleOf u s t) : t.faultOf u = s.faultOf u := by
  cases u with
  | afb => exact congrArg Afb.fault (h.afb rfl)
  | fmx => exact congrArg Fmx.fault (h.fmx rfl)

theorem of_notPerformed (u : UnitId) (s : State) : IdleOf u s (s.notPerformed u) := by
  cases u with
  | afb => exact ⟨⟨1, rfl⟩, fun _ => rfl, nofun⟩
  | fmx => exact ⟨⟨1, rfl⟩, nofun, fun _ => rfl⟩

theorem of_onlyUnitChanged {v : UnitId} (hv : v ≠ u) (h : OnlyUnitChanged v s t) : IdleOf u s t := by
  cases v with
  | afb =>
    obtain ⟨hfmx, hlog, _⟩ := h
    cases u with
    | afb => exact absurd rfl hv
    | fmx => exact ⟨⟨0, by simp [hlog]⟩, nofun, fun _ => hfmx⟩
  | fmx =>
    obtain ⟨hafb, hlog, _⟩ := h
    cases u with
    | afb => exact ⟨⟨0, by simp [hlog]⟩, fun _ => hafb, nofun⟩
    | fmx => exact absurd rfl hv

/-- A command to a faulted unit is not performed, and one to the other unit does not touch it (R168). -/
theorem of_exec {i : Instr} (hf : s.faultOf u ≠ .none) (he : exec i s = .next t) : IdleOf u s t := by
  by_cases hu : i.unit = u
  · subst hu
    rw [exec_of_faulted hf] at he
    cases he
    exact of_notPerformed i.unit s
  · exact of_onlyUnitChanged hu (exec_onlyUnitChanged he)

theorem of_execAll {is : List Instr} (hf : s.faultOf u ≠ .none) (hrun : execAll is s = .next t) : IdleOf u s t := by
  refine execAll_induction (P := IdleOf u s) (fun i m m' hm he => ?_) (refl u s) hrun
  have hfm : m.faultOf u ≠ .none := hm.faultOf_eq ▸ hf
  exact hm.trans (of_exec hfm he)

end State.IdleOf

/-- Settles O32: a faulted unit does nothing through the whole run. -/
theorem faultStaysUntilReset : Obligations.FaultStaysUntilReset := by
  intro is s t u hf hrun
  have hidle := State.IdleOf.of_execAll hf hrun
  exact ⟨hidle.faultOf_eq, hidle.log, hidle.afb, hidle.fmx⟩

/-! ## The order of the checks -/

theorem perform_undecoded {c : Command} {e : DecodeError} (h : decode c = .error e) (s : State) :
    perform c s = .refused .reservedEncoding := by
  rw [perform, h]

/-- Settles O33: each check by the value of a command for which it is the first to fail. -/
theorem checksComeInTheirOrder : Obligations.ChecksComeInTheirOrder := by
  refine ⟨fun s c e rest hin hdec => ?_, fun s L taps hf => ?_, fun s L FL pre hf => ?_, fun s L taps => ?_,
    fun s L FL pre => ?_, fun s u hf hc => ?_, fun s v hf hc => ?_⟩
  · rw [step_command hin, perform_undecoded hdec]
  · exact exec_of_faulted (i := .afbConfig L taps) hf
  · exact exec_of_faulted (i := .fmxConfig L FL pre) hf
  · exact execAfbConfig_capacity
  · exact execFmxConfig_capacity
  · obtain ⟨t, he, hafb, _⟩ := (afbProcessFaultsOnItsPreconditions s u hf).1 hc
    exact ⟨t, he, by rw [hafb]⟩
  · obtain ⟨t, he, hfmx, _⟩ := (fmxProcessFaultsOnItsPreconditions s v hf).1 hc
    exact ⟨t, he, by rw [hfmx]⟩

/-! ## Recovery by reset -/

theorem step_reset {s : State} {rest : List HostEvent} (h : s.inbox = .reset :: rest) :
    step s = .next (State.resetBlock { s with inbox := rest }) := by
  rw [step, h]

/-- The encoding of an instruction, sent as a command, is performed as the instruction. -/
theorem step_encode {i : Instr} {s : State} {rest : List HostEvent} (h : s.inbox = .command (encode i) :: rest) :
    step s = exec i { s with inbox := rest } := by
  rw [step_command h, perform_decoded (decode_encode i)]

theorem State.faultOf_withInbox (u : UnitId) (s : State) (es : List HostEvent) :
    State.faultOf u { s with inbox := es } = s.faultOf u := by
  cases u with
  | afb => rfl
  | fmx => rfl

/-- A pending command to a faulted unit is taken and not performed (R165). -/
theorem step_encode_of_faulted {i : Instr} {s : State} {rest : List HostEvent} (hf : s.faultOf i.unit ≠ .none)
    (h : s.inbox = .command (encode i) :: rest) :
    step s = .next (State.notPerformed i.unit { s with inbox := rest }) := by
  rw [step_encode h, exec_of_faulted (by rwa [State.faultOf_withInbox])]

/-- A command sent to a faulted unit, a reset, and the command sent again: the run ends as the command ends in the
unfaulted block `m` right after the reset (R168, R190). -/
theorem core_run_retry_after_reset {i : Instr} {s : State} {rest : List HostEvent} (hf : s.faultOf i.unit ≠ .none)
    (hin : s.inbox = .command (encode i) :: .reset :: .command (encode i) :: rest) :
    ∃ m : State, m.syn = s.syn ∧ m.afb.fault = .none ∧ m.fmx.fault = .none ∧ m.afbLog = [] ∧ m.fmxLog = [] ∧
      m.inbox = rest ∧ ∀ t, exec i m = .next t → Host.Core.run Sys2Proof.core 3 s = .next t := by
  obtain ⟨taken, hfirst, hsyn, hinbox⟩ : ∃ taken, step s = .next taken ∧ taken.syn = s.syn ∧
      taken.inbox = .reset :: .command (encode i) :: rest :=
    ⟨_, step_encode_of_faulted hf hin, (State.notPerformed_onlyUnitChanged i.unit _).syn_inbox⟩
  have hretry : step (State.resetBlock { taken with inbox := .command (encode i) :: rest })
      = exec i (State.resetBlock { taken with inbox := rest }) := step_encode rfl
  refine ⟨State.resetBlock { taken with inbox := rest }, hsyn, rfl, rfl, rfl, rfl, rfl, fun t ht => ?_⟩
  rw [core_run_succ 2 hfirst, core_run_succ 1 (step_reset hinbox), core_run_succ 0 (hretry.trans ht)]
  rfl

/-- Settles O46: after the reset the unit is unfaulted and its log is empty, and the operands are as valid as before. -/
theorem resetThenConfigRecoversAFaultedUnit : Obligations.ResetThenConfigRecoversAFaultedUnit := by
  refine ⟨fun s L taps rest hf hfit hok hin => ?_, fun s L FL pre rest hf hfit hok hin => ?_⟩
  · have hfirst := step_encode_of_faulted (i := .afbConfig L taps) hf hin
    obtain ⟨m, hsyn, hfm, _, hlog, _, hrest, hrun⟩ := core_run_retry_after_reset (i := .afbConfig L taps) hf hin
    refine ⟨⟨_, hfirst, rfl, rfl, rfl, rfl⟩, _, hrun _ (exec_afbConfig_ok hfm (hsyn ▸ hfit) hok), rfl, hfm, ?_, hrest⟩
    rw [State.configured_afbLog, hlog, List.nil_append]
  · have hfirst := step_encode_of_faulted (i := .fmxConfig L FL pre) hf hin
    obtain ⟨m, hsyn, _, hfm, _, hlog, hrest, hrun⟩ := core_run_retry_after_reset (i := .fmxConfig L FL pre) hf hin
    refine ⟨⟨_, hfirst, rfl, rfl, rfl, rfl⟩, _, hrun _ (exec_fmxConfig_ok hfm (hsyn ▸ hfit) hok), rfl, hfm, ?_, hrest⟩
    rw [State.fmxConfigured_fmxLog, hlog, List.nil_append]

/-! ## Channels -/

/-- A step of a channel is a step of its block (R178). -/
theorem System.stepChannel_cases {k : Nat} {sys sys' : System} {s : State} (hs : sys[k]? = some s)
    (h : System.stepChannel k sys = .next sys') : ∃ t, step s = .next t ∧ sys' = sys.set k t := by
  unfold System.stepChannel at h
  rw [hs] at h
  cases hstep : step s with
  | next t =>
    simp only [hstep] at h
    exact ⟨t, rfl, (Host.Outcome.next.inj h).symm⟩
  | fault r => cases r
  | refused r => simp only [hstep] at h; cases h

/-- Settles O39: the system after the step is the list with block `k` replaced. -/
theorem channelsShareNothing : Obligations.ChannelsShareNothing := by
  intro k sys sys' s hs h
  obtain ⟨t, hstep, rfl⟩ := System.stepChannel_cases hs h
  have hk : k < sys.length := (List.getElem?_eq_some_iff.mp hs).1
  exact ⟨⟨t, hstep, List.getElem?_set_self hk⟩, List.length_set, fun j hj => List.getElem?_set_ne hj.symm⟩

end Sys2Proof.Machine
end

section
/-! PROOFS. Reset (R190, R191), and the boot sequence to the successful end of its run (R194, R202). -/

namespace Sys2Proof.Machine

/-! ## Reset -/

/-- Settles O11: the state after power-on is given field by field. -/
theorem powerOnIsUnconfiguredAndUnfaulted : Obligations.PowerOnIsUnconfiguredAndUnfaulted :=
  fun _ => ⟨rfl, rfl, rfl, rfl⟩

/-- A unit that is unconfigured shows nothing but its fault, and reset clears it (R190, R191). -/
theorem State.resetBlock_agree (p : Synth) (s : State) :
    s.resetBlock.afb.Agree (State.resetOf p).afb ∧ s.resetBlock.fmx.Agree (State.resetOf p).fmx :=
  ⟨⟨rfl, rfl, nofun⟩, rfl, rfl, nofun⟩

/-- Settles O10: the step is a reset of the whole block, whatever its state was. -/
theorem resetUnconfiguresBothUnits : Obligations.ResetUnconfiguresBothUnits := by
  intro s rest hin
  obtain ⟨hafb, hfmx⟩ := State.resetBlock_agree s.syn { s with inbox := rest }
  exact ⟨_, step_reset hin, rfl, rfl, rfl, rfl, hafb, hfmx, rfl, rfl, rfl, rfl⟩

/-! ## A command that completes with a response -/

/-- So far every command got a response, and no unit is faulted: the end of a run is successful if nothing is pending
then (R202). -/
abbrev State.NothingFailed (s : State) : Prop :=
  s.afb.fault = .none ∧ s.fmx.fault = .none ∧ (∀ r ∈ s.afbLog, r ≠ none) ∧ ∀ r ∈ s.fmxLog, r ≠ none

/-- How many entries the two logs hold together. -/
def State.answered (s : State) : Nat := s.afbLog.length + s.fmxLog.length

/-- The instruction completes in `t` with a response, and its unit is not faulted then. -/
structure Completes (i : Instr) (s t : State) : Prop where
  performed : exec i s = .next t
  unfaulted : t.faultOf i.unit = .none
  response : ∃ r : Response, t.logOf i.unit = s.logOf i.unit ++ [some r]

/-- A log of responses with one more response is a log of responses. -/
theorem forall_ne_none_append {l : List (Option Response)} (h : ∀ r ∈ l, r ≠ none) (r : Response) :
    ∀ r' ∈ l ++ [some r], r' ≠ none :=
  List.forall_mem_append.mpr ⟨h, List.forall_mem_singleton.mpr nofun⟩

namespace Completes

variable {i : Instr} {s t : State} (h : Completes i s t)

include h

/-- One unit answers, and the other one is as before with its log (R32, R80). -/
theorem log_cases : ∃ r : Response,
    (t.afb.fault = .none ∧ t.afbLog = s.afbLog ++ [some r] ∧ t.fmx = s.fmx ∧ t.fmxLog = s.fmxLog) ∨
    (t.fmx.fault = .none ∧ t.fmxLog = s.fmxLog ++ [some r] ∧ t.afb = s.afb ∧ t.afbLog = s.afbLog) := by
  obtain ⟨he, hf, r, hr⟩ := h
  have honly := exec_onlyUnitChanged he
  cases hu : i.unit with
  | afb =>
    rw [hu] at honly hf hr
    obtain ⟨hother, hotherLog, _⟩ := honly
    exact ⟨r, .inl ⟨hf, hr, hother, hotherLog⟩⟩
  | fmx =>
    rw [hu] at honly hf hr
    obtain ⟨hother, hotherLog, _⟩ := honly
    exact ⟨r, .inr ⟨hf, hr, hother, hotherLog⟩⟩

theorem nothingFailed (hs : s.NothingFailed) : t.NothingFailed := by
  obtain ⟨hafb, hfmx, hafbLog, hfmxLog⟩ := hs
  obtain ⟨r, ⟨hf, hr, hother, hotherLog⟩ | ⟨hf, hr, hother, hotherLog⟩⟩ := h.log_cases
  · exact ⟨hf, by rwa [hother], by rw [hr]; exact forall_ne_none_append hafbLog r, by rwa [hotherLog]⟩
  · exact ⟨by rwa [hother], hf, by rwa [hotherLog], by rw [hr]; exact forall_ne_none_append hfmxLog r⟩

theorem answered : t.answered = s.answered + 1 := by
  obtain ⟨r, ⟨_, hr, _, hotherLog⟩ | ⟨_, hr, _, hotherLog⟩⟩ := h.log_cases
  · simp only [State.answered, hr, hotherLog, List.length_append, List.length_singleton]
    omega
  · simp only [State.answered, hr, hotherLog, List.length_append, List.length_singleton]
    omega

end Completes

/-! ## The commands that the configured units serve -/

/-- The preconditions of PROCESS and of the accessors hold (R107, R120, R122, R146). -/
inductive State.Serves (s : State) : Instr → Prop where
  | afbProcess {u : Vec} (hc : s.afb.cfg = .configured) (hu : u.length = s.afb.L) : s.Serves (.afbProcess u)
  | afbGetL (hc : s.afb.cfg = .configured) : s.Serves .afbGetL
  | afbGetOverlap (hc : s.afb.cfg = .configured) : s.Serves .afbGetOverlap
  | fmxProcess {v : Vec} (hc : s.fmx.cfg = .configured) (hv : v.length = s.fmx.L) : s.Serves (.fmxProcess v)

/-- Both units are configured as before, for vectors of the same lengths. -/
abbrev SameSettings (s t : State) : Prop :=
  t.afb.cfg = s.afb.cfg ∧ t.afb.L = s.afb.L ∧ t.fmx.cfg = s.fmx.cfg ∧ t.fmx.L = s.fmx.L

theorem State.Serves.of_sameSettings {i : Instr} {s t : State} (h : s.Serves i) (hst : SameSettings s t) :
    t.Serves i := by
  obtain ⟨hafb, hL, hfmx, hL'⟩ := hst
  cases h with
  | afbProcess hc hu => exact .afbProcess (hafb.trans hc) (hu.trans hL.symm)
  | afbGetL hc => exact .afbGetL (hafb.trans hc)
  | afbGetOverlap hc => exact .afbGetOverlap (hafb.trans hc)
  | fmxProcess hc hv => exact .fmxProcess (hfmx.trans hc) (hv.trans hL'.symm)

/-- A command whose preconditions hold completes on an unfaulted unit, and leaves the settings of both. -/
theorem State.Serves.completes {i : Instr} {s : State} (h : s.Serves i) (hf : s.faultOf i.unit = .none) :
    ∃ t, Completes i s t ∧ SameSettings s t := by
  cases h with
  | afbProcess hc hu => exact ⟨_, ⟨execAfbProcess_ok hf hc hu, hf, _, rfl⟩, rfl, rfl, rfl, rfl⟩
  | afbGetL hc => exact ⟨_, ⟨checked_performed (u := .afb) hf _ (by rw [hc]; rfl), hf, _, rfl⟩, rfl, rfl, rfl, rfl⟩
  | afbGetOverlap hc =>
    exact ⟨_, ⟨checked_performed (u := .afb) hf _ (by rw [hc]; rfl), hf, _, rfl⟩, rfl, rfl, rfl, rfl⟩
  | fmxProcess hc hv => exact ⟨_, ⟨execFmxProcess_ok hf hc hv, hf, _, rfl⟩, rfl, rfl, rfl, rfl⟩

/-! ## Runs from power-on -/

/-- The state with the issue of these instructions as the host's pending actions. -/
def State.awaiting (is : List Instr) (s : State) : State := { s with inbox := is.map issue }

/-- The run of these instructions from `s`, one step for each, ends successfully (R202) with one more response for
each. -/
def State.Finishes (is : List Instr) (s : State) : Prop :=
  ∃ t, Host.Core.run Sys2Proof.core is.length (s.awaiting is) = .next t ∧ t.EndedSuccessfully ∧
    t.answered = s.answered + is.length

theorem State.finishes_nil {s : State} (h : s.NothingFailed) : s.Finishes [] := ⟨s.awaiting [], rfl, ⟨rfl, h⟩, rfl⟩

/-- A run whose first command completes goes on as the run of the rest. -/
theorem State.finishes_cons {i : Instr} {is : List Instr} {s m : State} (hs : s.NothingFailed)
    (hi : Completes i (s.awaiting is) m) (his : m.NothingFailed → m.Finishes is) : s.Finishes (i :: is) := by
  obtain ⟨t, hrun, hend, hcount⟩ := his (hi.nothingFailed hs)
  have hinbox : m.inbox = is.map issue := (exec_onlyUnitChanged hi.performed).syn_inbox.2
  have hm : m.awaiting is = m := by rw [State.awaiting, ← hinbox]
  have hstep : step (s.awaiting (i :: is)) = .next m := (step_encode rfl).trans hi.performed
  rw [hm] at hrun
  refine ⟨t, (core_run_succ is.length hstep).trans hrun, hend, ?_⟩
  calc t.answered = m.answered + is.length := hcount
    _ = s.answered + 1 + is.length := congrArg (· + is.length) hi.answered
    _ = s.answered + (i :: is).length := Nat.add_right_comm _ _ _

/-- Commands that the configured units serve run to a successful end, in any order. -/
theorem State.finishes_of_serves {is : List Instr} {s : State} (hs : s.NothingFailed) (his : ∀ i ∈ is, s.Serves i) :
    s.Finishes is := by
  induction is generalizing s with
  | nil => exact State.finishes_nil hs
  | cons i is ih =>
    obtain ⟨hi, his⟩ := List.forall_mem_cons.mp his
    have hunfaulted : (s.awaiting is).faultOf i.unit = .none := by
      obtain ⟨hafb, hfmx, _⟩ := hs
      cases i.unit with
      | afb => exact hafb
      | fmx => exact hfmx
    obtain ⟨m, hm, hsame⟩ := (hi.of_sameSettings (t := s.awaiting is) ⟨rfl, rfl, rfl, rfl⟩).completes hunfaulted
    exact State.finishes_cons hs hm fun hms => ih hms fun j hj => (his j hj).of_sameSettings hsame

/-- What a run from power-on comes to is what it comes to from the state after power-on. -/
theorem runSucceeds_of_finishes {p : Synth} {is : List Instr} (h : (State.resetOf p).Finishes is) :
    RunSucceeds p (is.map encode) := by
  obtain ⟨t, hrun, hend, hcount⟩ := h
  have hstart : State.runOf p (is.map encode) = (State.resetOf p).awaiting is := by
    rw [State.runOf, State.awaiting, List.map_map]
    rfl
  rw [RunSucceeds, hstart, List.length_map]
  exact ⟨t, hrun, hend, hcount.trans (Nat.zero_add _)⟩

theorem State.resetOf_nothingFailed (p : Synth) : (State.resetOf p).NothingFailed := ⟨rfl, rfl, nofun, nofun⟩

section

variable {s : State}

theorem completes_afbConfig {L : Nat} {taps : Vec} (hf : s.afb.fault = .none)
    (hfit : afbFits s.syn L taps.length = true) (hok : afbOk L taps.length = true) :
    Completes (.afbConfig L taps) s (s.configured L taps) :=
  ⟨exec_afbConfig_ok hf hfit hok, hf, _, rfl⟩

theorem completes_fmxConfig {L FL : Nat} {pre : Vec} (hf : s.fmx.fault = .none)
    (hfit : fmxFits s.syn L FL pre.length = true) (hok : fmxOk L FL pre.length = true) :
    Completes (.fmxConfig L FL pre) s (s.fmxConfigured L FL pre) :=
  ⟨exec_fmxConfig_ok hf hfit hok, hf, _, rfl⟩

end

/-- Settles O45: the configurations complete, and the units then serve every command of the list. -/
theorem bootSequenceRunsToASuccessfulEnd : Obligations.BootSequenceRunsToASuccessfulEnd := by
  intro p L L' FL taps pre is
  have hstart := State.resetOf_nothingFailed p
  refine ⟨fun hfit hok his => runSucceeds_of_finishes ?_, fun hfit hok his => runSucceeds_of_finishes ?_,
    fun hfit hok hfit' hok' his => runSucceeds_of_finishes ?_⟩
  · refine State.finishes_cons hstart (completes_afbConfig rfl hfit hok) fun h =>
      State.finishes_of_serves h fun i hi => ?_
    rcases his i hi with rfl | rfl | ⟨u, rfl, hu⟩
    · exact .afbGetL rfl
    · exact .afbGetOverlap rfl
    · exact .afbProcess rfl hu
  · refine State.finishes_cons hstart (completes_fmxConfig rfl hfit hok) fun h =>
      State.finishes_of_serves h fun i hi => ?_
    obtain ⟨v, rfl, hv⟩ := his i hi
    exact .fmxProcess rfl hv
  · refine State.finishes_cons hstart (completes_afbConfig rfl hfit hok) fun h =>
      State.finishes_cons h (completes_fmxConfig rfl hfit' hok') fun h' =>
        State.finishes_of_serves h' fun i hi => ?_
    rcases his i hi with rfl | rfl | ⟨u, rfl, hu⟩ | ⟨v, rfl, hv⟩
    · exact .afbGetL rfl
    · exact .afbGetOverlap rfl
    · exact .afbProcess rfl hu
    · exact .fmxProcess rfl hv

end Sys2Proof.Machine
end
